-- ==== Sys2Proof/Word.lean ====
section
/-! DEFINITION. The word, address and byte types of the pdp17 CORE (`00_scope.md` R6–R8, `20_memory.md` R60). -/

namespace Sys2Proof

/-- A machine word: 16 bits, unsigned, bit 0 the least significant (R8, R60). -/
abbrev Word := BitVec 16

/-- A bus address: 32 bits, naming a word (R60). -/
abbrev Addr := BitVec 32

/-- A console byte (R43). -/
abbrev Byte := BitVec 8

end Sys2Proof
end

