-- ==== Sys2Proof/Config.lean ====
section
/-! DEFINITION. What the hardware fixes as a parameter, and the free values (`00_scope.md` R6, `93_implementation_defined.md`). -/

namespace Sys2Proof

/-- Who takes the next step of a run: the CPU or one of the two terminal agents (R11, R374). -/
inductive Turn where
  | cpu
  | outAgent
  | inAgent
  deriving DecidableEq, Repr, Inhabited

/-- The two readings of OSR (R286): `load` is AC <- SR, `or` is AC <- AC | SR. -/
inductive OsrMode where
  | load
  | or
  deriving DecidableEq, Repr, Inhabited

/-- The parameters of R6 that the spec leaves OPEN and that are plain data. They sit in State, where no step
changes them (log 12), so that a statement about every state is a statement about every choice of them. -/
structure Params where
  fSkip        : Word
  fRead        : Word
  inputPresent : Bool
  osrMode      : OsrMode
  deriving DecidableEq, Repr

namespace Config

/-- `MAILBOX_EMPTY` (R6, R41). -/
def mailboxEmpty : Word := 0xFFFF#16

/-- `F_OUT`, "write accumulator low byte to output" (R6, R227). -/
def fOut : Word := 4#16

/-- `PAGE_SIZE` (R6). -/
def pageSize : Nat := 256

/-- The defaults R6 gives the OPEN parameters. DESIGN CHOICE: State.reset starts with them (log 12). -/
def defaultParams : Params :=
  { fSkip := 1#16, fRead := 6#16, inputPresent := true, osrMode := .load }

/-- The default of `TTY_OUT_UNIT` (R6). DESIGN CHOICE as the value at reset (log 12). -/
def defaultTtyOutUnit : BitVec 8 := 4#8

/-- The default of `TTY_IN_UNIT` (R6). DESIGN CHOICE as the value at reset (log 12). -/
def defaultTtyInUnit : BitVec 8 := 3#8

/-- The address at which `State.withFetchWord` loads an instruction when PC points into the register file.
DESIGN CHOICE (log 18); the start address of most of the spec's vectors. -/
def loadAddress : Word := 0x0100#16

/-- The OPEN parameter `bsw6 : (Word, Bit) -> (Word, Bit)` (R272, D14): no body, nothing is known of it (log 11). -/
opaque bsw6 : Word → Bool → Word × Bool

/-- The free value of PSW bits 15:1 in the `n`th draw (R33(a), U9; log 8). -/
opaque freeScratch : Nat → BitVec 15

/-- The console's free answer in the `n`th draw: a byte when it is ready, none when it is not (R231, U19; log 9). -/
opaque freeAnswer : Nat → Option Byte

/-- The scheduler's free choice in the `n`th draw (R374, U22; log 10). -/
opaque freeTurn : Nat → Turn

end Config

end Sys2Proof
end

