-- ==== Sys2Proof/Machine/State.lean ====
section
/-! DEFINITION. The state of the pdp17 CORE (`10_state.md` R20–R48), the reasons a step stops, and reset. -/

namespace Sys2Proof.Machine

/-- A written word of an array, under its index. The hardware addresses words, never bytes (R60, R76; log 7). -/
abbrev Cell := Nat × Word

/-- An array of words: the written ones only, indices strictly rising. An index not listed holds no value (R47; log 6). -/
abbrev Memory := List Cell

/-- The handlers a page slot can hold: the CPU unit's (R71) or the flat memory's (R72). -/
inductive PageUnit where
  | cpu
  | memory
  deriving DecidableEq, Repr

/-- The handler an attention slot can hold: the terminal's (R222). -/
inductive AttnUnit where
  | terminal
  deriving DecidableEq, Repr

/-- The kinds of machine check (R40, R332). -/
inductive CheckKind where
  | fetchUnbound
  | readUnbound
  | writeUnbound
  deriving DecidableEq, Repr

/-- The machine-check record (R40). -/
structure MachineCheck where
  kind : CheckKind
  addr : Addr
  deriving DecidableEq, Repr

/-- The mailbox (R41); it is empty when `cmd` is 0xFFFF (R224). -/
structure Mailbox where
  unit : BitVec 8
  cmd  : Word
  deriving DecidableEq, Repr

/-- A terminal device agent (R42). -/
structure Agent where
  unit    : BitVec 8
  pending : Option Word
  running : Bool
  deriving DecidableEq, Repr

/-- Where a word is kept: a register slot, a word of ZP[16..255], or a word of MEM (R20, R46). -/
inductive Loc where
  | slot (i : BitVec 4)
  | zp (o : BitVec 8)
  | mem (a : Word)
  deriving DecidableEq, Repr

/-- The whole machine. -/
structure State where
  /-- The in-file slots x[0..15]: AC0–AC6, the PSW, IX0–IX6, the PC (R20, R21). -/
  regs     : Vector Word 16
  /-- ZP[16..255] (R20). -/
  zp       : Memory
  /-- MEM[0..65535] (R46). -/
  mem      : Memory
  /-- The switch register (R37). -/
  sr       : Word
  /-- The effective-address latch (R38). -/
  ea       : Addr
  /-- The writeback latch (R39). -/
  wb       : Word
  /-- The machine-check record (R40). -/
  mcheck   : Option MachineCheck
  /-- The mailbox (R41). -/
  mailbox  : Mailbox
  /-- The terminal's output agent (R42). -/
  outAgent : Agent
  /-- The terminal's input agent (R42). -/
  inAgent  : Agent
  /-- OUT, the console's output, oldest byte first (R43). -/
  out      : List Byte
  /-- A run is in progress (R44). -/
  running  : Bool
  /-- The external-interruption flag (R44, R376). -/
  cancel   : Bool
  /-- The number of CPU steps of the current run (R44, R375). -/
  count    : Nat
  /-- The page table, 256 slots (R45, R62). -/
  pages    : Vector (Option PageUnit) 256
  /-- The attention table, 256 slots (R45, R63). -/
  attns    : Vector (Option AttnUnit) 256
  /-- The OPEN parameters that are plain data (R6; log 12). -/
  params   : Params
  /-- The model's own: the index of the next free value (log 8). -/
  draws    : Nat
  /-- The model's own: the scheduler's coming choices (log 10). -/
  turns    : List Turn
  /-- The model's own: the console's coming answers (log 9). -/
  answers  : List (Option Byte)
  deriving DecidableEq, Repr

/-- No step of this machine faults: the one fault the spec has, the machine check, is a next state (R332, R340),
and whatever else stops is a refusal (R330). Safe: nothing is ever raised. -/
inductive Fault
  deriving DecidableEq, Repr

/-- Why the spec gives a step no meaning (R331). Each is safe: no property rests on what would follow. -/
inductive Refusal where
  /-- Raised by `exec` for an instruction without a meaning here. No arm answers it. Safe. -/
  | notModelled (mnemonic : String)
  /-- Raised by the meanings of the reserved words (R115). Safe. -/
  | reservedEncoding
  /-- Raised by the meanings of the words R116 and R189 refuse; by an effect that finds such a field in a
  host-deposited PSW (R189); by a device action that finds ACC 7 there (log 19). Safe. -/
  | noRegisterForm
  /-- Raised by JMP-with-load (R188). Safe. -/
  | unspecifiedSemantics
  /-- Raised by an engine write of the PSW (R33(b), R146). Safe. -/
  | pswWrite
  /-- Raised by an engine read of a zero-page or memory word nothing has written (R47). Safe. -/
  | readUnwritten
  /-- Raised by a register-count shift or rotate whose count is above 15 (R290). Safe. -/
  | shiftCountRange
  /-- Raised by a step in CYCLE 5 to 8 or 10 to 14 (R153). Safe. -/
  | undefinedCycle
  /-- Raised by EXECUTE when TMP is above 5 (R149). Safe. -/
  | badScratch
  deriving DecidableEq, Repr

/-- The three ways a step of the CPU ends (R330): normally with a value, with a machine check, or refused. -/
inductive Res (α : Type) where
  | ok (a : α)
  | check (kind : CheckKind) (addr : Addr)
  | refuse (r : Refusal)
  deriving DecidableEq, Repr

/-- What a step answers. -/
abbrev Answer := Host.Outcome State Fault Refusal

/-- Power-up (R48, R370). The PSW's CYCLE and scratch fields are 0, the arrays are unwritten, the tables empty, no agent
runs. LK, the other registers, SR and the latches have no value in the spec: DESIGN CHOICE 0 (log 1–5). The OPEN
parameters have the defaults of R6 (log 12); the mailbox's unit is meaningless (R224; log 22). -/
def State.reset : State :=
  { regs := Vector.replicate 16 0#16
    zp := []
    mem := []
    sr := 0#16
    ea := 0#32
    wb := 0#16
    mcheck := none
    mailbox := { unit := 0#8, cmd := Config.mailboxEmpty }
    outAgent := { unit := Config.defaultTtyOutUnit, pending := none, running := false }
    inAgent := { unit := Config.defaultTtyInUnit, pending := none, running := false }
    out := []
    running := false
    cancel := false
    count := 0
    pages := Vector.replicate 256 none
    attns := Vector.replicate 256 none
    params := Config.defaultParams
    draws := 0
    turns := []
    answers := [] }

end Sys2Proof.Machine
end

