-- ==== Sys2Proof/Syntax.lean ====
section
/-! DEFINITION. The instructions: one constructor for each row of `spec/opcode_table.json`, refused rows included.

A group-1 or group-2 OPR word runs every micro-operation whose bit it sets, in the order of `43_opr.md` R261 and R275.
Its constructor is that of the FIRST micro-operation in that order, and the constructor's arguments say which of the
later ones the word also asks for. Two words ask for none and belong to no row: 0xE000 (`nop`, R273) and 0xE100
(`nop2`, R276). The log entry is 16. -/

namespace Sys2Proof

/-- The group-1 ROT field, but for its reserved value 7 (R109). -/
inductive Rot where
  | none
  | rar
  | ral
  | rtr
  | rtl
  | bsw
  | bsw6
  deriving DecidableEq, Repr

/-- An instruction. `acc` and `d` are w[12:10], `s` is w[2:0] (R102, R111); `i`, `z`, `off` are w[9], w[8], w[7:0] (R103). -/
inductive Instr where
  -- memory reference (R103)
  | and (acc : BitVec 3) (i z : Bool) (off : BitVec 8)
  | tad (acc : BitVec 3) (i z : Bool) (off : BitVec 8)
  | sta (acc : BitVec 3) (i z : Bool) (off : BitVec 8)
  | isz (i z : Bool) (off : BitVec 8)
  | dca (acc : BitVec 3) (i z : Bool) (off : BitVec 8)
  | jms (i z : Bool) (off : BitVec 8)
  | jmp (i z : Bool) (off : BitVec 8)
  /-- JMP-with-load: refused, its effect is not specified (R188). -/
  | jmpWithLoad (acc : BitVec 3) (i z : Bool) (off : BitVec 8)
  -- IOT (R106)
  | iot (acc : BitVec 3) (unit : BitVec 6) (fn : BitVec 3)
  -- OPR group 1 (R108, R261): CLA, CLL, CMA, CML, IAC, then one rotation
  | cla (acc : BitVec 3) (cll cma cml iac : Bool) (rot : Rot)
  | cll (acc : BitVec 3) (cma cml iac : Bool) (rot : Rot)
  | cma (acc : BitVec 3) (cml iac : Bool) (rot : Rot)
  | cml (acc : BitVec 3) (iac : Bool) (rot : Rot)
  | iac (acc : BitVec 3) (rot : Rot)
  | rar (acc : BitVec 3)
  | ral (acc : BitVec 3)
  | rtr (acc : BitVec 3)
  | rtl (acc : BitVec 3)
  | bsw (acc : BitVec 3)
  | bsw6 (acc : BitVec 3)
  /-- Group 1 with no bit set: NOP (R117, R273). -/
  | nop (acc : BitVec 3)
  /-- ROT = 7: reserved (R115). `hi` is w[7:4], `lo` is w[0]. -/
  | reservedRot7 (acc : BitVec 3) (hi : BitVec 4) (lo : Bool)
  -- OPR group 2 (R110, R275): the test, CLA, OSR, HLT
  | sma (acc : BitVec 3) (sza snl cla osr hlt : Bool)
  | sza (acc : BitVec 3) (snl cla osr hlt : Bool)
  | snl (acc : BitVec 3) (cla osr hlt : Bool)
  | spa (acc : BitVec 3) (sna szl cla osr hlt : Bool)
  | sna (acc : BitVec 3) (szl cla osr hlt : Bool)
  | szl (acc : BitVec 3) (cla osr hlt : Bool)
  | skp (acc : BitVec 3) (cla osr hlt : Bool)
  | cla2 (acc : BitVec 3) (osr hlt : Bool)
  | osr (acc : BitVec 3) (hlt : Bool)
  | hlt (acc : BitVec 3)
  /-- Group 2, OR sense, nothing selected: never skips and does nothing (R276). -/
  | nop2 (acc : BitVec 3)
  /-- Group 2 with w[0] = 1: reserved (R115). `hi` is w[7:1]. -/
  | reservedBit0 (acc : BitVec 3) (hi : BitVec 7)
  -- OPR group 3R (R111, R113)
  | mov (d s : BitVec 3)
  | swp (d s : BitVec 3)
  | or (d s : BitVec 3)
  | xor (d s : BitVec 3)
  | shl (d s : BitVec 3)
  | shr (d s : BitVec 3)
  | sar (d s : BitVec 3)
  | rol (d s : BitVec 3)
  | ror (d s : BitVec 3)
  -- OPR group 3I (R112, R113)
  | shli (d : BitVec 3) (n : BitVec 4)
  | shri (d : BitVec 3) (n : BitVec 4)
  | sari (d : BitVec 3) (n : BitVec 4)
  | roli (d : BitVec 3) (n : BitVec 4)
  | rori (d : BitVec 3) (n : BitVec 4)
  -- refused patterns (R115, R116, R189)
  /-- JMS with a register: refused (R116, R189). -/
  | jmsReg (acc : BitVec 3) (i z : Bool) (off : BitVec 8)
  /-- AND, TAD, DCA, IOT or OPR with ACC 7: refused (R116). `op` is w[15:13], `low` is w[9:0]. -/
  | acc7 (op : BitVec 3) (low : BitVec 10)
  /-- IOT with w[9] = 1: reserved (R115). -/
  | iotBit9 (acc : BitVec 3) (low : BitVec 9)
  /-- Group 3R with source 7: refused (R116). -/
  | g3rSource7 (d : BitVec 3) (op3 : BitVec 4)
  /-- Group 3R with w[3] = 1: reserved (R115). -/
  | g3rBit3 (d : BitVec 3) (op3 : BitVec 4) (low : BitVec 3)
  /-- Group 3R with op3 9 to 15: reserved (R115). -/
  | g3rOp3 (d : BitVec 3) (op3 : BitVec 4) (s : BitVec 3)
  /-- Group 3I with op3 0 to 3 or 9 to 15: reserved (R115). -/
  | g3iOp3 (d : BitVec 3) (op3 : BitVec 4) (n : BitVec 4)
  deriving DecidableEq, Repr

end Sys2Proof
end

