-- ==== Sys2Proof/Machine/Flags.lean ====
section
/-! DEFINITION. The register slots, the PSW's fields (`10_state.md` R23, R24) and every value that reaches LK. -/

namespace Sys2Proof.Machine

/-- `x[i]` (R10, R20). -/
def State.x (s : State) (i : BitVec 4) : Word := s.regs[i.toNat]

/-- `x[i] <- v` (R10). -/
def State.setX (s : State) (i : BitVec 4) (v : Word) : State := { s with regs := s.regs.set i.toNat v }

/-- The PSW, slot 7 (R21). -/
def State.psw (s : State) : Word := s.x 7#4

/-- The PC, slot 15 (R21). -/
def State.pc (s : State) : Word := s.x 15#4

def State.setPsw (s : State) (v : Word) : State := s.setX 7#4 v

/-- `pc <- v` (R10). -/
def State.setPc (s : State) (v : Word) : State := s.setX 15#4 v

/-- The slot of accumulator `acc`, 0 to 6 (R22). -/
def acSlot (acc : BitVec 3) : BitVec 4 := acc.setWidth 4

/-- `AC`, that is `x[acc]` (R22). -/
def State.ac (s : State) (acc : BitVec 3) : Word := s.x (acSlot acc)

def State.setAc (s : State) (acc : BitVec 3) (v : Word) : State := s.setX (acSlot acc) v

/-- A skip: one word more, mod 2^16 (R13, R35). -/
def State.skip (s : State) : State := s.setPc (s.pc + 1#16)

/-- The mask of a PSW field of `n` bits at `lo` (R24). -/
def fieldMask (lo n : Nat) : Word := (BitVec.allOnes n).setWidth 16 <<< lo

/-- `psw.F`: mask and shift (R24). -/
def getField (w : Word) (lo n : Nat) : BitVec n := ((w &&& fieldMask lo n) >>> lo).setWidth n

/-- `psw.F <- v`: only the field's bits change (R24). -/
def putField (w : Word) (lo n : Nat) (v : BitVec n) : Word :=
  (w &&& ~~~fieldMask lo n) ||| ((v.setWidth 16 <<< lo) &&& fieldMask lo n)

/-- A one-bit PSW field as a truth value (R23). -/
def getFlag (w : Word) (lo : Nat) : Bool := getField w lo 1 == 1#1

def putFlag (w : Word) (lo : Nat) (b : Bool) : Word := putField w lo 1 (BitVec.ofBool b)

/-- A PSW word from its fields (R23). -/
def packPsw (lk op io ex id : Bool) (cycle tmp : BitVec 4) (acc : BitVec 3) : Word :=
  acc ++ tmp ++ cycle ++ BitVec.ofBool id ++ BitVec.ofBool ex ++ BitVec.ofBool io ++ BitVec.ofBool op ++ BitVec.ofBool lk

/-- LK, bit 0 (R25). -/
def State.lk (s : State) : Bool := getFlag s.psw 0
/-- OP, bit 1 (R26). -/
def State.op (s : State) : Bool := getFlag s.psw 1
/-- IO, bit 2 (R27). -/
def State.io (s : State) : Bool := getFlag s.psw 2
/-- EX, bit 3 (R28). -/
def State.ex (s : State) : Bool := getFlag s.psw 3
/-- ID, bit 4 (R29). -/
def State.id (s : State) : Bool := getFlag s.psw 4
/-- CYCLE, bits 8:5 (R30). -/
def State.cycle (s : State) : BitVec 4 := getField s.psw 5 4
/-- TMP, bits 12:9 (R31). -/
def State.tmp (s : State) : BitVec 4 := getField s.psw 9 4
/-- ACC, bits 15:13 (R32). -/
def State.acc (s : State) : BitVec 3 := getField s.psw 13 3

def State.setLk (s : State) (b : Bool) : State := s.setPsw (putFlag s.psw 0 b)
def State.setOp (s : State) (b : Bool) : State := s.setPsw (putFlag s.psw 1 b)
def State.setIo (s : State) (b : Bool) : State := s.setPsw (putFlag s.psw 2 b)
def State.setEx (s : State) (b : Bool) : State := s.setPsw (putFlag s.psw 3 b)
def State.setId (s : State) (b : Bool) : State := s.setPsw (putFlag s.psw 4 b)
def State.setCycle (s : State) (c : BitVec 4) : State := s.setPsw (putField s.psw 5 4 c)
def State.setTmp (s : State) (t : BitVec 4) : State := s.setPsw (putField s.psw 9 4 t)
def State.setAcc (s : State) (a : BitVec 3) : State := s.setPsw (putField s.psw 13 3 a)

/-- CYCLE's named values (R30). -/
def cycleFetch : BitVec 4 := 0#4
def cycleIndirect : BitVec 4 := 2#4
def cycleExecute : BitVec 4 := 3#4
def cycleIoWait : BitVec 4 := 4#4
def cycleWriteback : BitVec 4 := 9#4
def cycleHalted : BitVec 4 := 15#4

/-- A 17-bit sum: its low word and whether it carries out of bit 15 (R182, R266). -/
def addCarry (a b : Word) : Word × Bool :=
  let s : BitVec 17 := a.setWidth 17 + b.setWidth 17
  (s.setWidth 16, decide (0x10000 ≤ s.toNat))

/-- Complement LK on a carry, never set or clear it (R25, R182, R266). -/
def carryLk (lk carry : Bool) : Bool := if carry then !lk else lk

/-- RAR: AC and LK right by one, as 17 bits (R267). -/
def rar (v : Word) (l : Bool) : Word × Bool := (BitVec.ofBool l ++ v.extractLsb' 1 15, v.getLsbD 0)

/-- RAL: AC and LK left by one, as 17 bits (R268). -/
def ral (v : Word) (l : Bool) : Word × Bool := (v.extractLsb' 0 15 ++ BitVec.ofBool l, v.getLsbD 15)

/-- BSW: the two bytes exchanged (R271). -/
def swapBytes (v : Word) : Word := v.extractLsb' 0 8 ++ v.extractLsb' 8 8

/-- The group-1 rotation or swap of AC and LK (R267–R272). -/
def rotate (rot : Rot) (v : Word) (l : Bool) : Word × Bool :=
  match rot with
  | .none => (v, l)
  | .rar => rar v l
  | .ral => ral v l
  | .rtr => rar (rar v l).1 (rar v l).2
  | .rtl => ral (ral v l).1 (ral v l).2
  | .bsw => (swapBytes v, l)
  | .bsw6 => Config.bsw6 v l

/-- SHL by `n`, 0 to 15, and LK: the last bit out, unchanged when `n` = 0 (R295). -/
def shiftLeft (v : Word) (l : Bool) (n : Nat) : Word × Bool :=
  if n = 0 then (v, l) else (v <<< n, v.getLsbD (16 - n))

/-- SHR (R296). -/
def shiftRight (v : Word) (l : Bool) (n : Nat) : Word × Bool :=
  if n = 0 then (v, l) else (v >>> n, v.getLsbD (n - 1))

/-- SAR: `(sext_32(v) >> n)[15:0]` (R297). -/
def shiftArith (v : Word) (l : Bool) (n : Nat) : Word × Bool :=
  if n = 0 then (v, l) else (((v.signExtend 32) >>> n).setWidth 16, v.getLsbD (n - 1))

/-- ROL, within 16 bits (R298). -/
def rotLeft (v : Word) (l : Bool) (n : Nat) : Word × Bool :=
  if n = 0 then (v, l) else ((v <<< n) ||| (v >>> (16 - n)), v.getLsbD (16 - n))

/-- ROR, within 16 bits (R299). -/
def rotRight (v : Word) (l : Bool) (n : Nat) : Word × Bool :=
  if n = 0 then (v, l) else ((v >>> n) ||| (v <<< (16 - n)), v.getLsbD (n - 1))

/-- The OR-group skip condition on AC and LK (R276). -/
def skipOr (sma sza snl : Bool) (v : Word) (l : Bool) : Bool :=
  (sma && v.getLsbD 15) || (sza && v == 0#16) || (snl && l)

/-- The AND-group skip condition on AC and LK (R277). -/
def skipAnd (spa sna szl : Bool) (v : Word) (l : Bool) : Bool :=
  (!spa || !v.getLsbD 15) && (!sna || v != 0#16) && (!szl || !l)

end Sys2Proof.Machine
end

