-- ==== Sys2Proof/Machine/Ops.lean ====
section
/-! DEFINITION. The named operations over memory, the bus and the step's three endings (`20_memory.md`, `60_exceptions.md`). -/

namespace Sys2Proof.Machine

/-! Memory: a list of written words, indices strictly rising. -/

/-- The word at index `a`, none if nothing has written it (R47). -/
def Memory.read : Memory → Nat → Option Word
  | [], _ => none
  | (b, v) :: m, a => if b = a then some v else Memory.read m a

/-- Write the word at index `a`, keeping the order. -/
def Memory.write : Memory → Nat → Word → Memory
  | [], a, v => [(a, v)]
  | (b, u) :: m, a, v =>
    if a < b then (a, v) :: (b, u) :: m
    else if a = b then (a, v) :: m
    else (b, u) :: Memory.write m a v

/-- Indices strictly rising from `lo`, all below `hi`: the canonical form. -/
def Memory.wfFrom (hi : Nat) : Nat → Memory → Bool
  | _, [] => true
  | lo, (b, _) :: m => decide (lo ≤ b) && decide (b < hi) && Memory.wfFrom hi (b + 1) m

/-- The canonical form of an array with the indices `lo` to `hi` - 1. -/
def Memory.wf (lo hi : Nat) (m : Memory) : Bool := Memory.wfFrom hi lo m

/-! The three endings of a step (R330). -/

def Res.bind {α β : Type} (r : Res α) (f : α → Res β) : Res β :=
  match r with
  | .ok a => f a
  | .check k a => .check k a
  | .refuse r => .refuse r

/-- TAKING A MACHINE CHECK (R332), the machine's one exception. `s` is the state the step began in, so that every write
of the step is undone; CYCLE becomes 15 and no other PSW field changes; the kind and the failing address are
recorded. Nothing else is saved and control goes to no handler (R339). -/
def takeMachineCheck (k : CheckKind) (a : Addr) (s : State) : State :=
  { s.setCycle cycleHalted with mcheck := some { kind := k, addr := a } }

/-- RETURNING (R340, R378): there is no return instruction; the host's zap sets CYCLE to FETCH and clears the
record, and changes nothing else. -/
def zap (s : State) : State := { s.setCycle cycleFetch with mcheck := none }

/-- The outcome of a step that began in `s` (R330). -/
def Res.outcome (s : State) (r : Res State) : Answer :=
  match r with
  | .ok t => .next t
  | .check k a => .next (takeMachineCheck k a s)
  | .refuse r => .refused r

/-! Free values. -/

/-- The free value of PSW bits 15:1 and the state that has drawn it (R33(a); log 8). -/
def State.drawScratch (s : State) : BitVec 15 × State :=
  (Config.freeScratch s.draws, { s with draws := s.draws + 1 })

/-- The console's answer to one poll: the next scripted one, or a free one (R231; log 9). -/
def State.drawAnswer (s : State) : Option Byte × State :=
  match s.answers with
  | a :: rest => (a, { s with answers := rest })
  | [] => (Config.freeAnswer s.draws, { s with draws := s.draws + 1 })

/-- The scheduler's choice of who moves: the next scripted one, or a free one (R374; log 10). -/
def State.drawTurn (s : State) : Turn × State :=
  match s.turns with
  | t :: rest => (t, { s with turns := rest })
  | [] => (Config.freeTurn s.draws, { s with draws := s.draws + 1 })

/-! Storage. -/

/-- `page(A)` (R61). -/
def pageOf (a : Addr) : Nat := (a >>> 8).toNat

/-- `offset(A)` (R61). -/
def offsetOf (a : Addr) : BitVec 8 := a.setWidth 8

/-- The place of `ZP[o]`: the first sixteen are the register slots (R20). -/
def zpLoc (o : BitVec 8) : Loc := if o.toNat ≤ 15 then .slot (o.setWidth 4) else .zp o

/-- The unit bound to the page of `a`, none if the slot is empty or there is no such slot (R64, D29). -/
def State.unitAt (s : State) (a : Addr) : Option PageUnit := (s.pages[pageOf a]?).join

/-- Where a bus access at `a` goes: the page's unit picks the word (R71, R72). None is `Unbound` (R64, R65). -/
def State.locate (s : State) (a : Addr) : Option Loc :=
  match s.unitAt a with
  | none => none
  | some .cpu => some (zpLoc (offsetOf a))
  | some .memory => some (.mem (a.setWidth 16))

/-- The word kept at a place, exactly; none where nothing has written (R47). -/
def State.peek (s : State) : Loc → Option Word
  | .slot i => some (s.x i)
  | .zp o => Memory.read s.zp o.toNat
  | .mem a => Memory.read s.mem a.toNat

/-- Keep a word at a place. -/
def State.poke (s : State) (l : Loc) (v : Word) : State :=
  match l with
  | .slot i => s.setX i v
  | .zp o => { s with zp := Memory.write s.zp o.toNat v }
  | .mem a => { s with mem := Memory.write s.mem a.toNat v }

/-- The engine's read of a register slot: slot 7 gives LK exactly and bits 15:1 free (R33(a)). -/
def State.readSlot (s : State) (i : BitVec 4) : Word × State :=
  if i = 7#4 then (s.drawScratch.1 ++ BitVec.ofBool s.lk, s.drawScratch.2) else (s.x i, s)

/-- The engine's read of a place (R33(a), R47). -/
def State.readLoc (s : State) (l : Loc) : Res (Word × State) :=
  match l with
  | .slot i => .ok (s.readSlot i)
  | .zp _ | .mem _ =>
    match s.peek l with
    | some v => .ok (v, s)
    | none => .refuse .readUnwritten

/-- `MemRead(A, 1)` by the engine (R64); an unbound page is a machine check of the kind given (R332). -/
def State.busRead (s : State) (k : CheckKind) (a : Addr) : Res (Word × State) :=
  match s.locate a with
  | none => .check k a
  | some l => s.readLoc l

/-- `MemWrite(A, 1, v)` by the engine (R65). Slot 7 is refused through any page that holds the CPU unit
(R33(b); log 20). -/
def State.busWrite (s : State) (a : Addr) (v : Word) : Res State :=
  match s.locate a with
  | none => .check .writeUnbound a
  | some l => if l = .slot 7#4 then .refuse .pswWrite else .ok (s.poke l v)

/-- What `Attn` does at a unit whose slot is bound: the terminal posts to its mailbox (R66, R222). None is
`Unbound`. -/
def State.attn (s : State) (unit : Nat) (cmd : Word) : Option State :=
  match (s.attns[unit]?).join with
  | none => none
  | some .terminal => some { s with mailbox := { unit := BitVec.ofNat 8 unit, cmd := cmd } }

end Sys2Proof.Machine
end

