-- ==== Sys2Proof/Machine/Agents.lean ====
section
/-! DEFINITION. The terminal's device agents (`42_iot_attention.md` R225–R232). -/

namespace Sys2Proof.Machine

/-- The two terminal devices (R42). -/
inductive Dev where
  | output
  | input
  deriving DecidableEq, Repr

def State.agent (s : State) : Dev → Agent
  | .output => s.outAgent
  | .input => s.inAgent

def State.setAgent (s : State) (d : Dev) (a : Agent) : State :=
  match d with
  | .output => { s with outAgent := a }
  | .input => { s with inAgent := a }

/-- The mailbox holds a command (R224). -/
def State.mailFull (s : State) : Bool := s.mailbox.cmd != Config.mailboxEmpty

/-- The mailbox emptied: only the command member changes (R224, R225). -/
def State.emptyMailbox (s : State) : State := { s with mailbox := { s.mailbox with cmd := Config.mailboxEmpty } }

/-- The claim step is enabled (R225, R232). -/
def State.canClaim (s : State) (d : Dev) : Bool :=
  (s.agent d).running && (s.agent d).pending == none && s.mailFull && s.mailbox.unit == (s.agent d).unit

/-- The perform step is enabled (R226, R232). -/
def State.canPerform (s : State) (d : Dev) : Bool := (s.agent d).running && (s.agent d).pending != none

/-- `DevClaim(d)` (R225). -/
def devClaim (d : Dev) (s : State) : State :=
  (s.setAgent d { s.agent d with pending := some s.mailbox.cmd }).emptyMailbox

/-- The output command (R227). -/
def actionOutput (acc : BitVec 3) (s : State) : Res State :=
  if acc = 7#3 then .refuse .noRegisterForm else .ok { s with out := s.out ++ [(s.ac acc).setWidth 8] }

/-- The skip command (R228): a readiness check, which consumes no byte. -/
def actionSkip (s : State) : Res State :=
  let r := s.drawAnswer
  .ok (if r.1.isSome then r.2.skip else r.2)

/-- The read command (R229): the byte zero-extended, or 0 when none is ready. -/
def actionRead (acc : BitVec 3) (s : State) : Res State :=
  if acc = 7#3 then .refuse .noRegisterForm
  else
    let r := s.drawAnswer
    .ok (r.2.setAc acc ((r.1.getD 0#8).setWidth 16))

/-- `Action(d, c, acc)` (R227–R230): an unknown command does nothing. -/
def action (d : Dev) (c : Word) (acc : BitVec 3) (s : State) : Res State :=
  match d with
  | .output => if c = Config.fOut then actionOutput acc s else .ok s
  | .input =>
    if c = s.params.fSkip then actionSkip s
    else if c = s.params.fRead then actionRead acc s
    else .ok s

/-- `DevPerform(d)` for the claimed command `c` (R226): the action, then IO <- 0 and nothing pending. -/
def devPerform (d : Dev) (c : Word) (s : State) : Res State :=
  (action d c s.acc s).bind fun s1 =>
    let s2 := s1.setIo false
    .ok (s2.setAgent d { s2.agent d with pending := none })

/-- Finish a claimed command, if there is one (R226, R379). -/
def devFinish (d : Dev) (s : State) : Res State :=
  match (s.agent d).pending with
  | some c => devPerform d c s
  | none => .ok s

end Sys2Proof.Machine
end

