-- ==== Sys2Proof/WellFormed.lean ====
section
/-! DEFINITION. Which terms of `Instr` stand for a word: the field restrictions of `30_encoding.md` R115 and R116. -/

namespace Sys2Proof

/-- The ACC or source field names an accumulator, AC0 to AC6; 7 is "no register" (R102). -/
def isReg (r : BitVec 3) : Bool := r != 7#3

/-- w[9:0] of an IOT or OPR word that R115 reserves. `op` is w[15:13]. -/
def reservedLow (op : BitVec 3) (low : BitVec 10) : Bool :=
  let grp := low.extractLsb' 8 2
  let op3 := low.extractLsb' 4 4
  if op == 6#3 then low.getLsbD 9
  else if op == 7#3 then
    if grp == 0#2 then low.extractLsb' 1 3 == 7#3
    else if grp == 1#2 then low.getLsbD 0
    else if grp == 2#2 then low.getLsbD 3 || decide (9 ≤ op3.toNat)
    else decide (op3.toNat ≤ 3) || decide (9 ≤ op3.toNat)
  else false

/-- The constraint each row of the opcode table puts on its fields. -/
def Instr.WellFormed : Instr → Bool
  | .and acc _ _ _ | .tad acc _ _ _ | .sta acc _ _ _ | .dca acc _ _ _ | .jmpWithLoad acc _ _ _
  | .jmsReg acc _ _ _ => isReg acc
  | .isz _ _ _ | .jms _ _ _ | .jmp _ _ _ => true
  | .iot acc _ _ => isReg acc
  | .cla acc _ _ _ _ _ | .cll acc _ _ _ _ | .cma acc _ _ _ | .cml acc _ _ | .iac acc _ => isReg acc
  | .rar acc | .ral acc | .rtr acc | .rtl acc | .bsw acc | .bsw6 acc | .nop acc => isReg acc
  | .sma acc _ _ _ _ _ | .sza acc _ _ _ _ | .snl acc _ _ _ => isReg acc
  | .spa acc _ _ _ _ _ | .sna acc _ _ _ _ | .szl acc _ _ _ | .skp acc _ _ _ => isReg acc
  | .cla2 acc _ _ | .osr acc _ | .hlt acc | .nop2 acc => isReg acc
  | .mov d s | .swp d s | .or d s | .xor d s | .shl d s | .shr d s | .sar d s | .rol d s | .ror d s =>
    isReg d && isReg s
  | .shli d _ | .shri d _ | .sari d _ | .roli d _ | .rori d _ => isReg d
  | .reservedRot7 _ _ _ | .reservedBit0 _ _ | .iotBit9 _ _ | .g3rBit3 _ _ _ => true
  | .acc7 op low => (op != 2#3 && op != 4#3 && op != 5#3) && !reservedLow op low
  | .g3rSource7 d op3 => isReg d && decide (op3.toNat ≤ 8)
  | .g3rOp3 _ op3 _ => decide (9 ≤ op3.toNat)
  | .g3iOp3 _ op3 _ => decide (op3.toNat ≤ 3) || decide (9 ≤ op3.toNat)

end Sys2Proof
end

