-- ==== Sys2Proof/Decode.lean ====
section
/-! DEFINITION. The decoder and the encoder, both written from the tables of `spec/30_encoding.md`.

Every 16-bit word decodes (R118): a word that R115 or R116 refuses decodes to the constructor of its refused pattern,
whose meaning answers that refusal by name. Reserved patterns are looked for before the register forms (R337, D47).
The encoder packs the fields of R103, R106 and R107–R112 back, most significant first. -/

namespace Sys2Proof

namespace Decode

/-- w[15:13] (R101). -/
def op (w : Word) : BitVec 3 := w.extractLsb' 13 3
/-- w[12:10] (R102). -/
def acc (w : Word) : BitVec 3 := w.extractLsb' 10 3
/-- w[9] and w[8] of an MRI (R103). -/
def ind (w : Word) : Bool := w.getLsbD 9
def zero (w : Word) : Bool := w.getLsbD 8
/-- w[7:0] of an MRI (R103). -/
def off (w : Word) : BitVec 8 := w.extractLsb' 0 8
/-- w[8:3] and w[2:0] of an IOT (R106). -/
def unit (w : Word) : BitVec 6 := w.extractLsb' 3 6
def fn (w : Word) : BitVec 3 := w.extractLsb' 0 3
/-- w[9:8] of an OPR (R107). -/
def grp (w : Word) : BitVec 2 := w.extractLsb' 8 2
/-- w[3:1] of group 1 (R109). -/
def rotField (w : Word) : BitVec 3 := w.extractLsb' 1 3
/-- w[7:4] of group 3 (R111, R112). -/
def op3 (w : Word) : BitVec 4 := w.extractLsb' 4 4
/-- w[3:0] of group 3I (R112). -/
def cnt (w : Word) : BitVec 4 := w.extractLsb' 0 4

end Decode

/-- The ROT field's name (R109). The value 7 is taken out before this is asked. -/
def rotOf (r : BitVec 3) : Rot :=
  if r = 1#3 then .rar
  else if r = 2#3 then .ral
  else if r = 3#3 then .rtr
  else if r = 4#3 then .rtl
  else if r = 5#3 then .bsw
  else if r = 6#3 then .bsw6
  else .none

/-- Opcodes 0 to 5 (R101, R103, R116). -/
def decodeMri (w : Word) : Instr :=
  let acc := Decode.acc w
  let i := Decode.ind w
  let z := Decode.zero w
  let off := Decode.off w
  let low := w.extractLsb' 0 10
  if Decode.op w = 0#3 then (if acc = 7#3 then .acc7 0#3 low else .and acc i z off)
  else if Decode.op w = 1#3 then (if acc = 7#3 then .acc7 1#3 low else .tad acc i z off)
  else if Decode.op w = 2#3 then (if acc = 7#3 then .isz i z off else .sta acc i z off)
  else if Decode.op w = 3#3 then (if acc = 7#3 then .acc7 3#3 low else .dca acc i z off)
  else if Decode.op w = 4#3 then (if acc = 7#3 then .jms i z off else .jmsReg acc i z off)
  else (if acc = 7#3 then .jmp i z off else .jmpWithLoad acc i z off)

/-- Opcode 6 (R106, R115, R116). -/
def decodeIot (w : Word) : Instr :=
  if w.getLsbD 9 then .iotBit9 (Decode.acc w) (w.extractLsb' 0 9)
  else if Decode.acc w = 7#3 then .acc7 6#3 (w.extractLsb' 0 10)
  else .iot (Decode.acc w) (Decode.unit w) (Decode.fn w)

/-- OPR group 1 (R108, R109). -/
def decodeGroup1 (w : Word) : Instr :=
  let acc := Decode.acc w
  let rot := rotOf (Decode.rotField w)
  if Decode.rotField w = 7#3 then .reservedRot7 acc (w.extractLsb' 4 4) (w.getLsbD 0)
  else if acc = 7#3 then .acc7 7#3 (w.extractLsb' 0 10)
  else if w.getLsbD 7 then .cla acc (w.getLsbD 6) (w.getLsbD 5) (w.getLsbD 4) (w.getLsbD 0) rot
  else if w.getLsbD 6 then .cll acc (w.getLsbD 5) (w.getLsbD 4) (w.getLsbD 0) rot
  else if w.getLsbD 5 then .cma acc (w.getLsbD 4) (w.getLsbD 0) rot
  else if w.getLsbD 4 then .cml acc (w.getLsbD 0) rot
  else if w.getLsbD 0 then .iac acc rot
  else match rot with
    | .none => .nop acc
    | .rar => .rar acc
    | .ral => .ral acc
    | .rtr => .rtr acc
    | .rtl => .rtl acc
    | .bsw => .bsw acc
    | .bsw6 => .bsw6 acc

/-- OPR group 2 (R110): w[3] = S chooses the OR or the AND sense. -/
def decodeGroup2 (w : Word) : Instr :=
  let acc := Decode.acc w
  let cla := w.getLsbD 7
  let osr := w.getLsbD 2
  let hlt := w.getLsbD 1
  if w.getLsbD 0 then .reservedBit0 acc (w.extractLsb' 1 7)
  else if acc = 7#3 then .acc7 7#3 (w.extractLsb' 0 10)
  else if w.getLsbD 3 then
    if w.getLsbD 6 then .spa acc (w.getLsbD 5) (w.getLsbD 4) cla osr hlt
    else if w.getLsbD 5 then .sna acc (w.getLsbD 4) cla osr hlt
    else if w.getLsbD 4 then .szl acc cla osr hlt
    else .skp acc cla osr hlt
  else
    if w.getLsbD 6 then .sma acc (w.getLsbD 5) (w.getLsbD 4) cla osr hlt
    else if w.getLsbD 5 then .sza acc (w.getLsbD 4) cla osr hlt
    else if w.getLsbD 4 then .snl acc cla osr hlt
    else if cla then .cla2 acc osr hlt
    else if osr then .osr acc hlt
    else if hlt then .hlt acc
    else .nop2 acc

/-- OPR group 3R (R111, R113). -/
def decodeGroup3R (w : Word) : Instr :=
  let d := Decode.acc w
  let s := Decode.fn w
  let op3 := Decode.op3 w
  if w.getLsbD 3 then .g3rBit3 d op3 s
  else if 9 ≤ op3.toNat then .g3rOp3 d op3 s
  else if d = 7#3 then .acc7 7#3 (w.extractLsb' 0 10)
  else if s = 7#3 then .g3rSource7 d op3
  else if op3 = 0#4 then .mov d s
  else if op3 = 1#4 then .swp d s
  else if op3 = 2#4 then .or d s
  else if op3 = 3#4 then .xor d s
  else if op3 = 4#4 then .shl d s
  else if op3 = 5#4 then .shr d s
  else if op3 = 6#4 then .sar d s
  else if op3 = 7#4 then .rol d s
  else .ror d s

/-- OPR group 3I (R112, R113). -/
def decodeGroup3I (w : Word) : Instr :=
  let d := Decode.acc w
  let n := Decode.cnt w
  let op3 := Decode.op3 w
  if op3.toNat ≤ 3 ∨ 9 ≤ op3.toNat then .g3iOp3 d op3 n
  else if d = 7#3 then .acc7 7#3 (w.extractLsb' 0 10)
  else if op3 = 4#4 then .shli d n
  else if op3 = 5#4 then .shri d n
  else if op3 = 6#4 then .sari d n
  else if op3 = 7#4 then .roli d n
  else .rori d n

/-- Opcode 7 (R107). -/
def decodeOpr (w : Word) : Instr :=
  if Decode.grp w = 0#2 then decodeGroup1 w
  else if Decode.grp w = 1#2 then decodeGroup2 w
  else if Decode.grp w = 2#2 then decodeGroup3R w
  else decodeGroup3I w

/-- The instruction a word stands for, total and from the word alone (R114, R118). -/
def decode (w : Word) : Instr :=
  if Decode.op w = 6#3 then decodeIot w
  else if Decode.op w = 7#3 then decodeOpr w
  else decodeMri w

/-- The decoder's reading of an instruction given as the opcode table numbers its bits. Instructions are one word
(R100), so the bits above `nbits` are 0 and the table gives at most 16. -/
def decodeTableWord (nbits w : Nat) : Option Instr :=
  if nbits ≤ 16 then some (decode (BitVec.ofNat 16 (w % 2 ^ nbits))) else none

/-- The ROT field of a rotation (R109). -/
def rotBits : Rot → BitVec 3
  | .none => 0#3
  | .rar => 1#3
  | .ral => 2#3
  | .rtr => 3#3
  | .rtl => 4#3
  | .bsw => 5#3
  | .bsw6 => 6#3

/-- An MRI word (R103). -/
def encodeMri (op acc : BitVec 3) (i z : Bool) (off : BitVec 8) : Word :=
  op ++ acc ++ BitVec.ofBool i ++ BitVec.ofBool z ++ off

/-- An OPR group-1 word (R108). -/
def encodeGroup1 (acc : BitVec 3) (cla cll cma cml : Bool) (rot : BitVec 3) (iac : Bool) : Word :=
  7#3 ++ acc ++ 0#2 ++ BitVec.ofBool cla ++ BitVec.ofBool cll ++ BitVec.ofBool cma ++ BitVec.ofBool cml ++ rot
    ++ BitVec.ofBool iac

/-- An OPR group-2 word (R110): the three tests, the sense S, OSR, HLT and w[0] = 0. -/
def encodeGroup2 (acc : BitVec 3) (cla t6 t5 t4 s osr hlt : Bool) : Word :=
  7#3 ++ acc ++ 1#2 ++ BitVec.ofBool cla ++ BitVec.ofBool t6 ++ BitVec.ofBool t5 ++ BitVec.ofBool t4
    ++ BitVec.ofBool s ++ BitVec.ofBool osr ++ BitVec.ofBool hlt ++ 0#1

/-- An OPR group-3R word (R111). -/
def encodeGroup3R (d : BitVec 3) (op3 : BitVec 4) (bit3 : Bool) (s : BitVec 3) : Word :=
  7#3 ++ d ++ 2#2 ++ op3 ++ BitVec.ofBool bit3 ++ s

/-- An OPR group-3I word (R112). -/
def encodeGroup3I (d : BitVec 3) (op3 n : BitVec 4) : Word :=
  7#3 ++ d ++ 3#2 ++ op3 ++ n

/-- The word of a well-formed instruction (R103, R106, R107–R113, R121). -/
def encode : Instr → Word
  | .and acc i z off => encodeMri 0#3 acc i z off
  | .tad acc i z off => encodeMri 1#3 acc i z off
  | .sta acc i z off => encodeMri 2#3 acc i z off
  | .isz i z off => encodeMri 2#3 7#3 i z off
  | .dca acc i z off => encodeMri 3#3 acc i z off
  | .jms i z off => encodeMri 4#3 7#3 i z off
  | .jmp i z off => encodeMri 5#3 7#3 i z off
  | .jmpWithLoad acc i z off => encodeMri 5#3 acc i z off
  | .iot acc unit fn => 6#3 ++ acc ++ 0#1 ++ unit ++ fn
  | .cla acc cll cma cml iac rot => encodeGroup1 acc true cll cma cml (rotBits rot) iac
  | .cll acc cma cml iac rot => encodeGroup1 acc false true cma cml (rotBits rot) iac
  | .cma acc cml iac rot => encodeGroup1 acc false false true cml (rotBits rot) iac
  | .cml acc iac rot => encodeGroup1 acc false false false true (rotBits rot) iac
  | .iac acc rot => encodeGroup1 acc false false false false (rotBits rot) true
  | .rar acc => encodeGroup1 acc false false false false (rotBits .rar) false
  | .ral acc => encodeGroup1 acc false false false false (rotBits .ral) false
  | .rtr acc => encodeGroup1 acc false false false false (rotBits .rtr) false
  | .rtl acc => encodeGroup1 acc false false false false (rotBits .rtl) false
  | .bsw acc => encodeGroup1 acc false false false false (rotBits .bsw) false
  | .bsw6 acc => encodeGroup1 acc false false false false (rotBits .bsw6) false
  | .nop acc => encodeGroup1 acc false false false false 0#3 false
  | .reservedRot7 acc hi lo => 7#3 ++ acc ++ 0#2 ++ hi ++ 7#3 ++ BitVec.ofBool lo
  | .sma acc sza snl cla osr hlt => encodeGroup2 acc cla true sza snl false osr hlt
  | .sza acc snl cla osr hlt => encodeGroup2 acc cla false true snl false osr hlt
  | .snl acc cla osr hlt => encodeGroup2 acc cla false false true false osr hlt
  | .spa acc sna szl cla osr hlt => encodeGroup2 acc cla true sna szl true osr hlt
  | .sna acc szl cla osr hlt => encodeGroup2 acc cla false true szl true osr hlt
  | .szl acc cla osr hlt => encodeGroup2 acc cla false false true true osr hlt
  | .skp acc cla osr hlt => encodeGroup2 acc cla false false false true osr hlt
  | .cla2 acc osr hlt => encodeGroup2 acc true false false false false osr hlt
  | .osr acc hlt => encodeGroup2 acc false false false false false true hlt
  | .hlt acc => encodeGroup2 acc false false false false false false true
  | .nop2 acc => encodeGroup2 acc false false false false false false false
  | .reservedBit0 acc hi => 7#3 ++ acc ++ 1#2 ++ hi ++ 1#1
  | .mov d s => encodeGroup3R d 0#4 false s
  | .swp d s => encodeGroup3R d 1#4 false s
  | .or d s => encodeGroup3R d 2#4 false s
  | .xor d s => encodeGroup3R d 3#4 false s
  | .shl d s => encodeGroup3R d 4#4 false s
  | .shr d s => encodeGroup3R d 5#4 false s
  | .sar d s => encodeGroup3R d 6#4 false s
  | .rol d s => encodeGroup3R d 7#4 false s
  | .ror d s => encodeGroup3R d 8#4 false s
  | .shli d n => encodeGroup3I d 4#4 n
  | .shri d n => encodeGroup3I d 5#4 n
  | .sari d n => encodeGroup3I d 6#4 n
  | .roli d n => encodeGroup3I d 7#4 n
  | .rori d n => encodeGroup3I d 8#4 n
  | .jmsReg acc i z off => encodeMri 4#3 acc i z off
  | .acc7 op low => op ++ 7#3 ++ low
  | .iotBit9 acc low => 6#3 ++ acc ++ 1#1 ++ low
  | .g3rSource7 d op3 => encodeGroup3R d op3 false 7#3
  | .g3rBit3 d op3 low => encodeGroup3R d op3 true low
  | .g3rOp3 d op3 s => encodeGroup3R d op3 false s
  | .g3iOp3 d op3 n => encodeGroup3I d op3 n

end Sys2Proof
end

