-- ==== Sys2Proof/Machine/Operands.lean ====
section
/-! DEFINITION. The operand forms of the memory-reference instructions: `address()`, one indirection, the local
accessor (`30_encoding.md` R104, R105; `40_cycle_engine.md` R144–R146). -/

namespace Sys2Proof.Machine

/-- In-file: "address <= PC slot index" (R144, D43). -/
def inFile (a : Addr) : Bool := decide (a.toNat ≤ 15)

/-- `address(Z, off)` for the PC given, which is past the instruction (R104, D7). -/
def address (pc : Word) (z : Bool) (off : BitVec 8) : Addr :=
  if z then off.setWidth 32 else (pc.extractLsb' 8 8 ++ off).setWidth 32

/-- An in-file address is an index register: slots 8 to 14 (R34). -/
def isIndex (i : BitVec 4) : Bool := decide (8 ≤ i.toNat) && decide (i.toNat ≤ 14)

/-- `ResolvePointer(a)` for an in-file `a` (R145): the old word is the pointer, then an index register counts up. -/
def State.resolvePointer (s : State) (a : Addr) : Addr × State :=
  let i : BitVec 4 := a.setWidth 4
  let r := s.readSlot i
  (r.1.setWidth 32, if isIndex i then r.2.setX i (r.2.x i + 1#16) else r.2)

/-- `LocalRead(a)` (R146). -/
def State.localRead (s : State) (a : Addr) : Res (Word × State) :=
  if inFile a then .ok (s.readSlot (a.setWidth 4)) else s.busRead .readUnbound a

/-- `LocalWrite(a, v)` (R146). -/
def State.localWrite (s : State) (a : Addr) (v : Word) : Res State :=
  if a = 7#32 then .refuse .pswWrite
  else if inFile a then .ok (s.setX (a.setWidth 4) v)
  else s.busWrite a v

end Sys2Proof.Machine
end

