-- ==== Sys2Proof/Machine/Fetch.lean ====
section
/-! DEFINITION. FETCH around the instruction (`40_cycle_engine.md` R142, R147): what it does before decoding, what it
latches after, and how it chooses the next cycle state. -/

namespace Sys2Proof.Machine

/-- `x[7] <- zext_16(psw.LK)`: every PSW field but LK becomes 0 (R142). -/
def State.clearPsw (s : State) : State := s.setPsw (BitVec.zeroExtend 16 (BitVec.ofBool s.lk))

/-- FETCH up to decoding (R142): clear the PSW, read the word at PC through the bus, count PC up. -/
def State.fetch (s : State) : Res (Word × State) :=
  let s0 := s.clearPsw
  (s0.busRead .fetchUnbound (s0.pc.setWidth 32)).bind fun (w, s1) => .ok (w, s1.setPc (s1.pc + 1#16))

/-- `psw.ACC <- w[12:10]` and `psw.TMP <- zext_4(w[15:13])` (R142). -/
def State.latch (s : State) (op acc : BitVec 3) : State := (s.setAcc acc).setTmp (op.setWidth 4)

/-- `NextAfterFetch()` (R147). -/
def State.nextAfterFetch (s : State) : BitVec 4 :=
  if s.id then cycleIndirect
  else if s.ex then cycleExecute
  else if s.io then cycleIoWait
  else cycleFetch

/-- FETCH's last line (R142): HLT leaves CYCLE at 15. -/
def State.selectCycle (s : State) : State :=
  if s.cycle = cycleHalted then s else s.setCycle s.nextAfterFetch

/-- End FETCH: choose the next cycle state of what the instruction did to `s`. -/
def endFetch (s : State) (r : Res State) : Answer := (r.bind fun t => .ok t.selectCycle).outcome s

end Sys2Proof.Machine
end

