-- ==== Sys2Proof/Machine/Iot.lean ====
section
/-! DEFINITION. IOT (`42_iot_attention.md` R220, R221). -/

namespace Sys2Proof.Machine

/-- `IOT-ISSUE` (R220): set IO and call the unit's attention handler; an unbound unit clears IO again (R221). -/
def iotIssue (unit : BitVec 6) (fn : BitVec 3) (s : State) : State :=
  let s1 := s.setIo true
  match s1.attn unit.toNat (fn.setWidth 16) with
  | some s2 => s2
  | none => s1.setIo false

/-- IOT (R220): one attention call in FETCH; IO-WAIT follows while a device owes an answer. -/
def execIot (acc : BitVec 3) (unit : BitVec 6) (fn : BitVec 3) (s : State) : Answer :=
  endFetch s (.ok (iotIssue unit fn (s.latch 6#3 acc)))

end Sys2Proof.Machine
end

