-- ==== Sys2Proof/Machine/MemRef.lean ====
section
/-! DEFINITION. The memory-reference instructions (`41_memory_reference.md`): the effect of each at its final address,
and the path FETCH takes to it (`40_cycle_engine.md` R144). An effect runs in FETCH when the address is direct and
in-file, and in EXECUTE otherwise. -/

namespace Sys2Proof.Machine

/-- AND (R181). -/
def effectAnd (acc : BitVec 3) (a : Addr) (s : State) : Res State :=
  if acc = 7#3 then .refuse .noRegisterForm
  else (s.localRead a).bind fun (v, s1) => .ok (s1.setAc acc (s1.ac acc &&& v))

/-- TAD (R182). -/
def effectTad (acc : BitVec 3) (a : Addr) (s : State) : Res State :=
  if acc = 7#3 then .refuse .noRegisterForm
  else (s.localRead a).bind fun (v, s1) =>
    let sum := addCarry (s1.ac acc) v
    .ok ((s1.setAc acc sum.1).setLk (carryLk s1.lk sum.2))

/-- ISZ (R183): in-file it stores at once, out-of-file it defers the store to WRITEBACK; then it may skip. -/
def effectIsz (a : Addr) (s : State) : Res State :=
  (s.localRead a).bind fun (v, s1) =>
    let v' := v + 1#16
    let stored := if inFile a then s1.localWrite a v' else .ok { s1.setId true with wb := v' }
    stored.bind fun s2 => .ok (if v' = 0#16 then s2.skip else s2)

/-- STA (R184). -/
def effectSta (acc : BitVec 3) (a : Addr) (s : State) : Res State := s.localWrite a (s.ac acc)

/-- DCA (R185). -/
def effectDca (acc : BitVec 3) (a : Addr) (s : State) : Res State :=
  if acc = 7#3 then .refuse .noRegisterForm
  else (s.localWrite a (s.ac acc)).bind fun s1 => .ok (s1.setAc acc 0#16)

/-- JMS (R186). -/
def effectJms (acc : BitVec 3) (a : Addr) (s : State) : Res State :=
  if acc ≠ 7#3 then .refuse .noRegisterForm
  else (s.localWrite a s.pc).bind fun s1 => .ok (s1.setPc (a.setWidth 16 + 1#16))

/-- JMP (R187). -/
def effectJmp (a : Addr) (s : State) : Res State := .ok (s.setPc (a.setWidth 16))

/-- JMP-with-load: no effect is specified (R188). -/
def effectJmpl : Res State := .refuse .unspecifiedSemantics

/-- `Effect(op, acc, a)` (R180), for `op` 0 to 5. -/
def effect (op acc : BitVec 3) (a : Addr) (s : State) : Res State :=
  if op = 0#3 then effectAnd acc a s
  else if op = 1#3 then effectTad acc a s
  else if op = 2#3 then (if acc = 7#3 then effectIsz a s else effectSta acc a s)
  else if op = 3#3 then effectDca acc a s
  else if op = 4#3 then effectJms acc a s
  else (if acc = 7#3 then effectJmp a s else effectJmpl)

/-- `MRI-FETCH` (R144): the short-circuit, or EX and, for an indirection, the pointer in-line or deferred. -/
def mriFetch (op acc : BitVec 3) (i z : Bool) (off : BitVec 8) (s : State) : Res State :=
  let a := address s.pc z off
  if !i && inFile a then effect op acc a s
  else
    let s1 := s.setEx true
    if i && inFile a then
      let p := s1.resolvePointer a
      .ok { p.2 with ea := p.1 }
    else if i then .ok { s1.setId true with ea := a }
    else .ok { s1 with ea := a }

/-- The FETCH of an MRI (R142, R144). -/
def fetchMri (op acc : BitVec 3) (i z : Bool) (off : BitVec 8) (s : State) : Answer :=
  endFetch s (mriFetch op acc i z off (s.latch op acc))

/-- AND (R181). -/
def execAnd (acc : BitVec 3) (i z : Bool) (off : BitVec 8) (s : State) : Answer := fetchMri 0#3 acc i z off s

/-- TAD (R182). -/
def execTad (acc : BitVec 3) (i z : Bool) (off : BitVec 8) (s : State) : Answer := fetchMri 1#3 acc i z off s

/-- STA (R184). -/
def execSta (acc : BitVec 3) (i z : Bool) (off : BitVec 8) (s : State) : Answer := fetchMri 2#3 acc i z off s

/-- ISZ (R183): opcode 2 with ACC = 7. -/
def execIsz (i z : Bool) (off : BitVec 8) (s : State) : Answer := fetchMri 2#3 7#3 i z off s

/-- DCA (R185). -/
def execDca (acc : BitVec 3) (i z : Bool) (off : BitVec 8) (s : State) : Answer := fetchMri 3#3 acc i z off s

/-- JMS (R186): opcode 4 with ACC = 7. -/
def execJms (i z : Bool) (off : BitVec 8) (s : State) : Answer := fetchMri 4#3 7#3 i z off s

/-- JMP (R187): opcode 5 with ACC = 7. -/
def execJmp (i z : Bool) (off : BitVec 8) (s : State) : Answer := fetchMri 5#3 7#3 i z off s

end Sys2Proof.Machine
end

