-- ==== Sys2Proof/Machine/Opr.lean ====
section
/-! DEFINITION. What every OPR does in FETCH (`40_cycle_engine.md` R142, `43_opr.md` R260). -/

namespace Sys2Proof.Machine

/-- The FETCH of an OPR (R142, R260): latch, OP <- 1, the operation, the next cycle state. No bus access. -/
def fetchOpr (acc : BitVec 3) (f : State → Res State) (s : State) : Answer :=
  endFetch s (f ((s.latch 7#3 acc).setOp true))

/-- Run `f` where the word's bit asks for it. -/
def State.doIf (s : State) (b : Bool) (f : State → State) : State := if b then f s else s

/-- CLA: `x[d] <- 0` (R262, R285). -/
def opCla (d : BitVec 3) (s : State) : State := s.setAc d 0#16

end Sys2Proof.Machine
end

