-- ==== Sys2Proof/Machine/OprAcc.lean ====
section
/-! DEFINITION. OPR group 1, the accumulator micro-operations (`43_opr.md` R261–R273). -/

namespace Sys2Proof.Machine

/-- CLL (R263). -/
def opCll (s : State) : State := s.setLk false

/-- CMA (R264). -/
def opCma (d : BitVec 3) (s : State) : State := s.setAc d (~~~(s.ac d))

/-- CML (R265). -/
def opCml (s : State) : State := s.setLk (!s.lk)

/-- IAC (R266): a carry complements LK. -/
def opIac (d : BitVec 3) (s : State) : State :=
  let sum := addCarry (s.ac d) 1#16
  (s.setAc d sum.1).setLk (carryLk s.lk sum.2)

/-- One rotation or swap of AC and LK (R267–R272). -/
def opRot (rot : Rot) (d : BitVec 3) (s : State) : State :=
  let r := rotate rot (s.ac d) s.lk
  (s.setAc d r.1).setLk r.2

/-- `Group1(w, d)`: the sequence (R261). -/
def group1 (d : BitVec 3) (cla cll cma cml iac : Bool) (rot : Rot) (s : State) : State :=
  let s1 := s.doIf cla (opCla d)
  let s2 := s1.doIf cll opCll
  let s3 := s2.doIf cma (opCma d)
  let s4 := s3.doIf cml opCml
  let s5 := s4.doIf iac (opIac d)
  opRot rot d s5

/-- The FETCH of a group-1 word. -/
def fetchGroup1 (d : BitVec 3) (cla cll cma cml iac : Bool) (rot : Rot) (s : State) : Answer :=
  fetchOpr d (fun t => .ok (group1 d cla cll cma cml iac rot t)) s

/-- CLA and what the word asks for after it (R262). -/
def execCla (acc : BitVec 3) (cll cma cml iac : Bool) (rot : Rot) (s : State) : Answer :=
  fetchGroup1 acc true cll cma cml iac rot s

/-- CLL and what the word asks for after it (R263). -/
def execCll (acc : BitVec 3) (cma cml iac : Bool) (rot : Rot) (s : State) : Answer :=
  fetchGroup1 acc false true cma cml iac rot s

/-- CMA and what the word asks for after it (R264). -/
def execCma (acc : BitVec 3) (cml iac : Bool) (rot : Rot) (s : State) : Answer :=
  fetchGroup1 acc false false true cml iac rot s

/-- CML and what the word asks for after it (R265). -/
def execCml (acc : BitVec 3) (iac : Bool) (rot : Rot) (s : State) : Answer :=
  fetchGroup1 acc false false false true iac rot s

/-- IAC and what the word asks for after it (R266). -/
def execIac (acc : BitVec 3) (rot : Rot) (s : State) : Answer := fetchGroup1 acc false false false false true rot s

/-- RAR (R267). -/
def execRar (acc : BitVec 3) (s : State) : Answer := fetchGroup1 acc false false false false false .rar s

/-- RAL (R268). -/
def execRal (acc : BitVec 3) (s : State) : Answer := fetchGroup1 acc false false false false false .ral s

/-- RTR (R269). -/
def execRtr (acc : BitVec 3) (s : State) : Answer := fetchGroup1 acc false false false false false .rtr s

/-- RTL (R270). -/
def execRtl (acc : BitVec 3) (s : State) : Answer := fetchGroup1 acc false false false false false .rtl s

/-- BSW (R271). -/
def execBsw (acc : BitVec 3) (s : State) : Answer := fetchGroup1 acc false false false false false .bsw s

/-- BSW6 (R272): whatever `Config.bsw6` gives. -/
def execBsw6 (acc : BitVec 3) (s : State) : Answer := fetchGroup1 acc false false false false false .bsw6 s

/-- NOP, group 1 with no bit set (R117, R273). -/
def execNop (acc : BitVec 3) (s : State) : Answer := fetchGroup1 acc false false false false false .none s

end Sys2Proof.Machine
end

