-- ==== Sys2Proof/Machine/OprReg.lean ====
section
/-! DEFINITION. OPR group 3, the register-register ALU operations, shifts and rotates (`43_opr.md` R290–R300). -/

namespace Sys2Proof.Machine

/-- Apply a shift or rotate of `x[d]` and LK by `n` (R295–R299). -/
def shiftBy (f : Word → Bool → Nat → Word × Bool) (d : BitVec 3) (n : Nat) (s : State) : State :=
  let r := f (s.ac d) s.lk n
  (s.setAc d r.1).setLk r.2

/-- The FETCH of a 3R shift or rotate: the count is `x[s]`, and above 15 it is refused (R290). -/
def fetchShiftReg (f : Word → Bool → Nat → Word × Bool) (d s : BitVec 3) (st : State) : Answer :=
  fetchOpr d (fun t =>
    if 15 < (t.ac s).toNat then .refuse .shiftCountRange else .ok (shiftBy f d (t.ac s).toNat t)) st

/-- The FETCH of a 3I shift or rotate: the count is w[3:0] (R290). -/
def fetchShiftImm (f : Word → Bool → Nat → Word × Bool) (d : BitVec 3) (n : BitVec 4) (st : State) : Answer :=
  fetchOpr d (fun t => .ok (shiftBy f d n.toNat t)) st

/-- MOV (R291). -/
def execMov (d s : BitVec 3) (st : State) : Answer := fetchOpr d (fun t => .ok (t.setAc d (t.ac s))) st

/-- SWP (R292). -/
def execSwp (d s : BitVec 3) (st : State) : Answer :=
  fetchOpr d (fun t => .ok ((t.setAc d (t.ac s)).setAc s (t.ac d))) st

/-- OR (R293). -/
def execOr (d s : BitVec 3) (st : State) : Answer := fetchOpr d (fun t => .ok (t.setAc d (t.ac d ||| t.ac s))) st

/-- XOR (R294). -/
def execXor (d s : BitVec 3) (st : State) : Answer := fetchOpr d (fun t => .ok (t.setAc d (t.ac d ^^^ t.ac s))) st

/-- SHL (R295). -/
def execShl (d s : BitVec 3) (st : State) : Answer := fetchShiftReg shiftLeft d s st

/-- SHR (R296). -/
def execShr (d s : BitVec 3) (st : State) : Answer := fetchShiftReg shiftRight d s st

/-- SAR (R297). -/
def execSar (d s : BitVec 3) (st : State) : Answer := fetchShiftReg shiftArith d s st

/-- ROL (R298). -/
def execRol (d s : BitVec 3) (st : State) : Answer := fetchShiftReg rotLeft d s st

/-- ROR (R299). -/
def execRor (d s : BitVec 3) (st : State) : Answer := fetchShiftReg rotRight d s st

/-- SHLI (R295). -/
def execShli (d : BitVec 3) (n : BitVec 4) (st : State) : Answer := fetchShiftImm shiftLeft d n st

/-- SHRI (R296). -/
def execShri (d : BitVec 3) (n : BitVec 4) (st : State) : Answer := fetchShiftImm shiftRight d n st

/-- SARI (R297). -/
def execSari (d : BitVec 3) (n : BitVec 4) (st : State) : Answer := fetchShiftImm shiftArith d n st

/-- ROLI (R298). -/
def execRoli (d : BitVec 3) (n : BitVec 4) (st : State) : Answer := fetchShiftImm rotLeft d n st

/-- RORI (R299). -/
def execRori (d : BitVec 3) (n : BitVec 4) (st : State) : Answer := fetchShiftImm rotRight d n st

end Sys2Proof.Machine
end

