-- ==== Sys2Proof/Machine/OprSkip.lean ====
section
/-! DEFINITION. OPR group 2, the skip chain (`43_opr.md` R275–R288). -/

namespace Sys2Proof.Machine

/-- OSR's value of AC (R286). -/
def osrValue (mode : OsrMode) (ac sr : Word) : Word :=
  match mode with
  | .load => sr
  | .or => ac ||| sr

/-- OSR (R286). SR always holds a value here (log 3). -/
def opOsr (d : BitVec 3) (s : State) : State := s.setAc d (osrValue s.params.osrMode (s.ac d) s.sr)

/-- HLT (R287). -/
def opHlt (s : State) : State := s.setCycle cycleHalted

/-- `Group2(w, d)`: the test on the old AC and LK, then CLA, OSR, HLT (R275). -/
def group2 (d : BitVec 3) (skips : Word → Bool → Bool) (cla osr hlt : Bool) (s : State) : State :=
  let s1 := s.doIf (skips (s.ac d) s.lk) State.skip
  let s2 := s1.doIf cla (opCla d)
  let s3 := s2.doIf osr (opOsr d)
  s3.doIf hlt opHlt

/-- The FETCH of a group-2 word. -/
def fetchGroup2 (d : BitVec 3) (skips : Word → Bool → Bool) (cla osr hlt : Bool) (s : State) : Answer :=
  fetchOpr d (fun t => .ok (group2 d skips cla osr hlt t)) s

/-- SMA, with any of SZA and SNL (R276, R278). -/
def execSma (acc : BitVec 3) (sza snl cla osr hlt : Bool) (s : State) : Answer :=
  fetchGroup2 acc (skipOr true sza snl) cla osr hlt s

/-- SZA, with or without SNL (R276, R279). -/
def execSza (acc : BitVec 3) (snl cla osr hlt : Bool) (s : State) : Answer :=
  fetchGroup2 acc (skipOr false true snl) cla osr hlt s

/-- SNL (R276, R280). -/
def execSnl (acc : BitVec 3) (cla osr hlt : Bool) (s : State) : Answer :=
  fetchGroup2 acc (skipOr false false true) cla osr hlt s

/-- SPA, with any of SNA and SZL (R277, R281). -/
def execSpa (acc : BitVec 3) (sna szl cla osr hlt : Bool) (s : State) : Answer :=
  fetchGroup2 acc (skipAnd true sna szl) cla osr hlt s

/-- SNA, with or without SZL (R277, R282). -/
def execSna (acc : BitVec 3) (szl cla osr hlt : Bool) (s : State) : Answer :=
  fetchGroup2 acc (skipAnd false true szl) cla osr hlt s

/-- SZL (R277, R283). -/
def execSzl (acc : BitVec 3) (cla osr hlt : Bool) (s : State) : Answer :=
  fetchGroup2 acc (skipAnd false false true) cla osr hlt s

/-- SKP: the AND group with no test (R277, R284). -/
def execSkp (acc : BitVec 3) (cla osr hlt : Bool) (s : State) : Answer :=
  fetchGroup2 acc (skipAnd false false false) cla osr hlt s

/-- CLA of group 2, with no test (R285). -/
def execCla2 (acc : BitVec 3) (osr hlt : Bool) (s : State) : Answer :=
  fetchGroup2 acc (skipOr false false false) true osr hlt s

/-- OSR, with no test and no CLA (R286). -/
def execOsr (acc : BitVec 3) (hlt : Bool) (s : State) : Answer :=
  fetchGroup2 acc (skipOr false false false) false true hlt s

/-- HLT alone (R287). -/
def execHlt (acc : BitVec 3) (s : State) : Answer :=
  fetchGroup2 acc (skipOr false false false) false false true s

/-- The OR group with nothing selected: never skips (R276). -/
def execNop2 (acc : BitVec 3) (s : State) : Answer :=
  fetchGroup2 acc (skipOr false false false) false false false s

end Sys2Proof.Machine
end

