-- ==== Sys2Proof/Machine/RefusedRows.lean ====
section
/-! DEFINITION. The rows of the opcode table the spec refuses (`30_encoding.md` R115, R116; `41_memory_reference.md` R188,
R189). A refused step has no successor and its own writes have no meaning (R331). -/

namespace Sys2Proof.Machine

/-- JMP-with-load (R188): the FETCH that decodes it is refused, on every address form. -/
def execJmpWithLoad (_acc : BitVec 3) (_i _z : Bool) (_off : BitVec 8) (_s : State) : Answer :=
  .refused .unspecifiedSemantics

/-- Group 1 with ROT = 7 (R115, R273). -/
def execReservedRot7 (_acc : BitVec 3) (_hi : BitVec 4) (_lo : Bool) (_s : State) : Answer := .refused .reservedEncoding

/-- Group 2 with w[0] = 1 (R115, R288). -/
def execReservedBit0 (_acc : BitVec 3) (_hi : BitVec 7) (_s : State) : Answer := .refused .reservedEncoding

/-- JMS with a register (R116, R189). -/
def execJmsReg (_acc : BitVec 3) (_i _z : Bool) (_off : BitVec 8) (_s : State) : Answer := .refused .noRegisterForm

/-- AND, TAD, DCA, IOT or OPR with ACC 7 (R116, R189). -/
def execAcc7 (_op : BitVec 3) (_low : BitVec 10) (_s : State) : Answer := .refused .noRegisterForm

/-- IOT with w[9] = 1 (R115). -/
def execIotBit9 (_acc : BitVec 3) (_low : BitVec 9) (_s : State) : Answer := .refused .reservedEncoding

/-- Group 3R with source 7 (R116). -/
def execG3rSource7 (_d : BitVec 3) (_op3 : BitVec 4) (_s : State) : Answer := .refused .noRegisterForm

/-- Group 3R with w[3] = 1 (R115, R300). -/
def execG3rBit3 (_d : BitVec 3) (_op3 : BitVec 4) (_low : BitVec 3) (_s : State) : Answer := .refused .reservedEncoding

/-- Group 3R with op3 9 to 15 (R115, R300). -/
def execG3rOp3 (_d : BitVec 3) (_op3 : BitVec 4) (_src : BitVec 3) (_s : State) : Answer := .refused .reservedEncoding

/-- Group 3I with op3 0 to 3 or 9 to 15 (R115, R300). -/
def execG3iOp3 (_d : BitVec 3) (_op3 _n : BitVec 4) (_s : State) : Answer := .refused .reservedEncoding

end Sys2Proof.Machine
end

