-- ==== Sys2Proof/Machine/Dispatch.lean ====
section
/-! DEFINITION. `exec`: one arm per constructor of `Instr`, each one call of that instruction's meaning.

`exec i s` is the part of a FETCH step that follows decoding (`40_cycle_engine.md` R142, from `psw.ACC <- w[12:10]` on): `s`
is the state with the PSW cleared and PC counted up. An MRI whose operand is not direct and in-file goes on in
INDIRECT-RESOLVE, EXECUTE and WRITEBACK (R148-R150; log 15). -/

namespace Sys2Proof.Machine

def exec (i : Instr) (s : State) : Host.Outcome State Fault Refusal :=
  match i with
  | .and acc ind z off => Sys2Proof.Machine.execAnd acc ind z off s
  | .tad acc ind z off => Sys2Proof.Machine.execTad acc ind z off s
  | .sta acc ind z off => Sys2Proof.Machine.execSta acc ind z off s
  | .isz ind z off => Sys2Proof.Machine.execIsz ind z off s
  | .dca acc ind z off => Sys2Proof.Machine.execDca acc ind z off s
  | .jms ind z off => Sys2Proof.Machine.execJms ind z off s
  | .jmp ind z off => Sys2Proof.Machine.execJmp ind z off s
  | .jmpWithLoad acc ind z off => Sys2Proof.Machine.execJmpWithLoad acc ind z off s
  | .iot acc unit fn => Sys2Proof.Machine.execIot acc unit fn s
  | .cla acc cll cma cml iac rot => Sys2Proof.Machine.execCla acc cll cma cml iac rot s
  | .cll acc cma cml iac rot => Sys2Proof.Machine.execCll acc cma cml iac rot s
  | .cma acc cml iac rot => Sys2Proof.Machine.execCma acc cml iac rot s
  | .cml acc iac rot => Sys2Proof.Machine.execCml acc iac rot s
  | .iac acc rot => Sys2Proof.Machine.execIac acc rot s
  | .rar acc => Sys2Proof.Machine.execRar acc s
  | .ral acc => Sys2Proof.Machine.execRal acc s
  | .rtr acc => Sys2Proof.Machine.execRtr acc s
  | .rtl acc => Sys2Proof.Machine.execRtl acc s
  | .bsw acc => Sys2Proof.Machine.execBsw acc s
  | .bsw6 acc => Sys2Proof.Machine.execBsw6 acc s
  | .nop acc => Sys2Proof.Machine.execNop acc s
  | .reservedRot7 acc hi lo => Sys2Proof.Machine.execReservedRot7 acc hi lo s
  | .sma acc sza snl cla osr hlt => Sys2Proof.Machine.execSma acc sza snl cla osr hlt s
  | .sza acc snl cla osr hlt => Sys2Proof.Machine.execSza acc snl cla osr hlt s
  | .snl acc cla osr hlt => Sys2Proof.Machine.execSnl acc cla osr hlt s
  | .spa acc sna szl cla osr hlt => Sys2Proof.Machine.execSpa acc sna szl cla osr hlt s
  | .sna acc szl cla osr hlt => Sys2Proof.Machine.execSna acc szl cla osr hlt s
  | .szl acc cla osr hlt => Sys2Proof.Machine.execSzl acc cla osr hlt s
  | .skp acc cla osr hlt => Sys2Proof.Machine.execSkp acc cla osr hlt s
  | .cla2 acc osr hlt => Sys2Proof.Machine.execCla2 acc osr hlt s
  | .osr acc hlt => Sys2Proof.Machine.execOsr acc hlt s
  | .hlt acc => Sys2Proof.Machine.execHlt acc s
  | .nop2 acc => Sys2Proof.Machine.execNop2 acc s
  | .reservedBit0 acc hi => Sys2Proof.Machine.execReservedBit0 acc hi s
  | .mov d r => Sys2Proof.Machine.execMov d r s
  | .swp d r => Sys2Proof.Machine.execSwp d r s
  | .or d r => Sys2Proof.Machine.execOr d r s
  | .xor d r => Sys2Proof.Machine.execXor d r s
  | .shl d r => Sys2Proof.Machine.execShl d r s
  | .shr d r => Sys2Proof.Machine.execShr d r s
  | .sar d r => Sys2Proof.Machine.execSar d r s
  | .rol d r => Sys2Proof.Machine.execRol d r s
  | .ror d r => Sys2Proof.Machine.execRor d r s
  | .shli d n => Sys2Proof.Machine.execShli d n s
  | .shri d n => Sys2Proof.Machine.execShri d n s
  | .sari d n => Sys2Proof.Machine.execSari d n s
  | .roli d n => Sys2Proof.Machine.execRoli d n s
  | .rori d n => Sys2Proof.Machine.execRori d n s
  | .jmsReg acc ind z off => Sys2Proof.Machine.execJmsReg acc ind z off s
  | .acc7 op low => Sys2Proof.Machine.execAcc7 op low s
  | .iotBit9 acc low => Sys2Proof.Machine.execIotBit9 acc low s
  | .g3rSource7 d op3 => Sys2Proof.Machine.execG3rSource7 d op3 s
  | .g3rBit3 d op3 low => Sys2Proof.Machine.execG3rBit3 d op3 low s
  | .g3rOp3 d op3 r => Sys2Proof.Machine.execG3rOp3 d op3 r s
  | .g3iOp3 d op3 n => Sys2Proof.Machine.execG3iOp3 d op3 n s

end Sys2Proof.Machine
end

