-- ==== Sys2Proof/Machine/Cycle.lean ====
section
/-! DEFINITION. One CPU step: the cycle-state handlers (`40_cycle_engine.md` R140–R153). -/

namespace Sys2Proof.Machine

/-- FETCH (R142): fetch, decode, and the instruction's own part. A machine check undoes the whole step (R332). -/
def stepFetch (s : State) : Answer :=
  match s.fetch with
  | .ok (w, s1) => exec (decode w) s1
  | .check k a => .next (takeMachineCheck k a s)
  | .refuse r => .refused r

/-- INDIRECT-RESOLVE (R148). -/
def stepIndirect (s : State) : Answer :=
  let pointer : Res (Addr × State) :=
    if inFile s.ea then .ok (s.resolvePointer s.ea)
    else (s.localRead s.ea).bind fun (p, s1) => .ok (p.setWidth 32, s1)
  (pointer.bind fun (p, s1) => .ok (({ s1 with ea := p }.setId false).setCycle cycleExecute)).outcome s

/-- The end of EXECUTE (R149): EX <- 0, and WRITEBACK if a store is deferred. -/
def State.endExecute (s : State) : State :=
  let s1 := s.setEx false
  s1.setCycle (if s1.id then cycleWriteback else cycleFetch)

/-- EXECUTE (R149). -/
def stepExecute (s : State) : Answer :=
  if 5 < s.tmp.toNat then .refused .badScratch
  else ((effect (s.tmp.setWidth 3) s.acc s.ea s).bind fun s1 => .ok s1.endExecute).outcome s

/-- WRITEBACK (R150). -/
def stepWriteback (s : State) : Answer :=
  ((s.localWrite s.ea s.wb).bind fun s1 => .ok ((s1.setId false).setCycle cycleFetch)).outcome s

/-- IO-WAIT (R151). -/
def stepIoWait (s : State) : Answer := .next (if s.io then s else s.setCycle cycleFetch)

/-- `step()` of the CPU (R140): the handler CYCLE selects. HALTED changes nothing (R152); a value without a handler is
refused (R153). -/
def cpuStep (s : State) : Answer :=
  if s.cycle = 0#4 ∨ s.cycle = 1#4 then stepFetch s
  else if s.cycle = 2#4 then stepIndirect s
  else if s.cycle = 3#4 then stepExecute s
  else if s.cycle = 4#4 then stepIoWait s
  else if s.cycle = 9#4 then stepWriteback s
  else if s.cycle = 15#4 then .next s
  else .refused .undefinedCycle

end Sys2Proof.Machine
end

