-- ==== Sys2Proof/Machine/Run.lean ====
section
/-! DEFINITION. A run: its start, its loop, cancellation and its end (`70_reset_and_hazards.md` R374–R379), and the
machine's step, inside a run and outside. -/

namespace Sys2Proof.Machine

/-- `run()` up to its loop (R374): a fresh mailbox, the agents started, or nothing at all in HALTED. -/
def runStart (s : State) : State :=
  let s0 := { s with count := 0 }
  if s0.cycle = cycleHalted then s0
  else
    { s0.emptyMailbox with
      cancel := false
      running := true
      outAgent := { s0.outAgent with pending := none, running := true }
      inAgent := { s0.inAgent with pending := none, running := s0.params.inputPresent } }

/-- `Cancel()` (R376). -/
def cancelRun (s : State) : State := { s with cancel := true }.setIo false

/-- One agent's end (R379): a claimed command completes, then the agent stops. -/
def stopAgent (d : Dev) (s : State) : Res State :=
  if (s.agent d).running then
    (devFinish d s).bind fun s1 => .ok (s1.setAgent d { s1.agent d with running := false })
  else .ok s

/-- `EndOfRun()` (R379). -/
def endOfRun (s : State) : Res State :=
  (stopAgent .output s).bind fun s1 => (stopAgent .input s1).bind fun s2 => .ok { s2 with running := false }

/-- One turn of `run()`'s loop (R374, R375): the condition, then one CPU step, counted; or the run's end. -/
def loopStep (s : State) : Answer :=
  if s.cancel ∨ s.cycle = cycleHalted then (endOfRun s).outcome s
  else
    match cpuStep s with
    | .next t => .next { t with count := t.count + 1 }
    | .fault r => .fault r
    | .refused r => .refused r

/-- A device agent's move, where it has one; a poll that finds nothing is no step (R225), and the CPU moves. -/
def devMove (d : Dev) (s : State) : Answer :=
  if s.canPerform d then (devFinish d s).outcome s
  else if s.canClaim d then .next (devClaim d s)
  else loopStep s

/-- One step of whoever moves during a run (R11, R374; log 10). -/
def runStep (s : State) : Answer :=
  match s.drawTurn with
  | (.cpu, s1) => loopStep s1
  | (.outAgent, s1) => devMove .output s1
  | (.inAgent, s1) => devMove .input s1

/-- The machine's step: inside a run one agent's step or the run's end; outside, the host's `step()` (R377). -/
def machineStep (s : State) : Answer := if s.running then runStep s else cpuStep s

end Sys2Proof.Machine
end

