-- ==== Sys2Proof/Machine/HostCalls.lean ====
section
/-! DEFINITION. The host interface (`70_reset_and_hazards.md` R372–R379): what the outside does to the machine, between
steps. All calls but cancel are answered only between runs (R373, R386). -/

namespace Sys2Proof.Machine

/-- The calls of R373. -/
inductive HostCall where
  | init
  | install (page : Nat) (u : PageUnit)
  | installAttn (unit : Nat) (u : AttnUnit)
  | busRead (a : Addr)
  | busWrite (a : Addr) (v : Word)
  | attn (unit : Nat) (cmd : Word)
  | step
  | run
  | inspect (i : BitVec 4)
  | deposit (i : BitVec 4) (v : Word)
  | setSr (v : Word)
  | readMcheck
  | zap
  | cancel
  deriving DecidableEq, Repr

/-- The errors a host call can return (R335). -/
inductive HostError where
  | configurationError
  | invalidPage
  | invalidUnit
  | unbound
  deriving DecidableEq, Repr

/-- What a host call returns. `noValue` answers a bus read of a word nothing has written (R47; log 23). -/
inductive HostReply where
  | done
  | word (v : Word)
  | noValue
  | record (m : Option MachineCheck)
  | count (n : Nat)
  | error (e : HostError)
  deriving DecidableEq, Repr

/-- The end of a host call: answered, with the state after; not permitted now (R386); or a refused step (R331). -/
inductive HostResult where
  | answered (reply : HostReply) (s : State)
  | notPermitted
  | refused (r : Refusal)
  deriving DecidableEq, Repr

/-- A page size `init()` accepts (R67). -/
def isPowerOfTwo (n : Nat) : Bool := decide (2 ^ Nat.log2 n = n)

/-- `bus.init()`: all slots of both tables cleared (R67). -/
def busInit (s : State) : State :=
  { s with pages := Vector.replicate 256 none, attns := Vector.replicate 256 none }

/-- `bus.install`: an index of 256 or more fails and changes nothing; a later binding replaces an earlier (R68). -/
def hostInstall (page : Nat) (u : PageUnit) (s : State) : HostResult :=
  if h : page < 256 then .answered .done { s with pages := s.pages.set page (some u) }
  else .answered (.error .invalidPage) s

/-- `bus.install_attn` (R69). -/
def hostInstallAttn (unit : Nat) (u : AttnUnit) (s : State) : HostResult :=
  if h : unit < 256 then .answered .done { s with attns := s.attns.set unit (some u) }
  else .answered (.error .invalidUnit) s

/-- `bus.read` by the host: exact, no draw (R64, R373). -/
def hostBusRead (a : Addr) (s : State) : HostResult :=
  match s.locate a with
  | none => .answered (.error .unbound) s
  | some l =>
    match s.peek l with
    | some v => .answered (.word v) s
    | none => .answered .noValue s

/-- `bus.write` by the host: exact, slot 7 included (R65, R373). -/
def hostBusWrite (a : Addr) (v : Word) (s : State) : HostResult :=
  match s.locate a with
  | none => .answered (.error .unbound) s
  | some l => .answered .done (s.poke l v)

/-- `attn` by the host (R66, R335). -/
def hostAttn (unit : Nat) (cmd : Word) (s : State) : HostResult :=
  match s.attn unit cmd with
  | none => .answered (.error .unbound) s
  | some t => .answered .done t

/-- The host's `step()` outside a run (R377). -/
def hostStep (s : State) : HostResult :=
  match cpuStep s with
  | .next t => .answered .done t
  | .fault f => nomatch f
  | .refused r => .refused r

/-- `run()`: in HALTED it returns 0 at once; otherwise the run is on, and `machineStep` carries it (R374). -/
def hostRun (s : State) : HostResult :=
  let t := runStart s
  if t.running then .answered .done t else .answered (.count 0) t

/-- The calls the host makes between runs (R373). -/
def hostIdleCall (c : HostCall) (s : State) : HostResult :=
  match c with
  | .init => if isPowerOfTwo Config.pageSize then .answered .done (busInit s) else .answered (.error .configurationError) s
  | .install page u => hostInstall page u s
  | .installAttn unit u => hostInstallAttn unit u s
  | .busRead a => hostBusRead a s
  | .busWrite a v => hostBusWrite a v s
  | .attn unit cmd => hostAttn unit cmd s
  | .step => hostStep s
  | .run => hostRun s
  | .inspect i => .answered (.word (s.x i)) s
  | .deposit i v => .answered .done (s.setX i v)
  | .setSr v => .answered .done { s with sr := v }
  | .readMcheck => .answered (.record s.mcheck) s
  | .zap => .answered .done (Sys2Proof.Machine.zap s)
  | .cancel => .notPermitted

/-- A host call (R373): during a run only cancel, once (R376, R386); between runs everything else. -/
def hostCall (c : HostCall) (s : State) : HostResult :=
  if s.running then
    (if c = .cancel ∧ s.cancel = false then .answered .done (cancelRun s) else .notPermitted)
  else hostIdleCall c s

/-- The default PAGE_MAP (R73): page 0 is the CPU unit, pages 1 to 255 are flat memory. -/
def defaultPageMap : Vector (Option PageUnit) 256 := (Vector.replicate 256 (some .memory)).set 0 (some .cpu)

/-- Steps 1 to 3 of the boot sequence under the default PAGE_MAP (R372, R222). -/
def setup (s : State) : State :=
  let s1 := { busInit s with pages := defaultPageMap }
  let s2 := { s1 with attns := s1.attns.set s.outAgent.unit.toNat (some .terminal) }
  if s.params.inputPresent then { s2 with attns := s2.attns.set s.inAgent.unit.toNat (some .terminal) } else s2

end Sys2Proof.Machine
end

