-- ==== Sys2Proof/Machine/Load.lean ====
section
/-! DEFINITION. Loading one instruction from outside (`70_reset_and_hazards.md` R371, R372; log 18). -/

namespace Sys2Proof.Machine

/-- The fetch address for a loaded word: PC, or, where PC points into the register file, whose slots are no place for a
program, the address the loader deposits into PC. -/
def loadPoint (s : State) : Word := if s.pc.toNat ≤ 15 then Config.loadAddress else s.pc

/-- Bind the page of `a` and keep `v` there: page 0 is the CPU unit's zero page, any other page flat memory (R73). -/
def placeWord (a v : Word) (s : State) : State :=
  let page : Fin 256 := (a.extractLsb' 8 8).toFin
  if page = 0 then
    { s with pages := s.pages.set 0 (some .cpu), zp := Memory.write s.zp a.toNat v }
  else
    { s with pages := s.pages.set page (some .memory), mem := Memory.write s.mem a.toNat v }

/-- Make the next step a FETCH by the CPU: CYCLE to FETCH where it is another state, and during a run the next turn the
CPU's with no cancellation pending. -/
def readyToFetch (s : State) : State :=
  let s1 := if s.cycle = 0#4 ∨ s.cycle = 1#4 then s else s.setCycle cycleFetch
  if s1.running then { s1 with turns := .cpu :: s1.turns, cancel := false } else s1

/-- The host's load of one word (R372): place it, point PC at it, and let the CPU fetch. -/
def loadWord (s : State) (v : Word) : State :=
  let a := loadPoint s
  readyToFetch ((placeWord a v s).setPc a)

end Sys2Proof.Machine
end

