-- ==== Sys2Proof/Machine/Step.lean ====
section
/-! DEFINITION. The machine's step and the placing of one instruction for it to fetch. -/

namespace Sys2Proof.Machine

/-- One step (R11, R140, R374, R377). -/
def step (s : State) : Host.Outcome State Fault Refusal := machineStep s

/-- `s` with the one-word instruction whose `nbits` low bits are `w` where the next step fetches (log 18). -/
def State.withFetchWord (s : State) (nbits w : Nat) : State := loadWord s (BitVec.ofNat 16 (w % 2 ^ nbits))

end Sys2Proof.Machine
end

