-- ==== Sys2Proof/Safety.lean ====
section
/-! DEFINITION. The terms the statements use: what a step leaves alone, the state an instruction's meaning is called in,
and the invariants of the engine, the memory and the devices. -/

namespace Sys2Proof.Machine

/-- `t` reads as `s` at every place not listed, and differs from `s` in no other field. The model's own draw counter is
not compared. -/
def Frame (touched : List Loc) (s t : State) : Prop :=
  (∀ l, l ∉ touched → t.peek l = s.peek l) ∧
    { t with regs := s.regs, zp := s.zp, mem := s.mem, draws := s.draws } = s

/-- The PSW as FETCH has it when it calls an instruction's meaning: every field but LK is 0 (R142). -/
abbrev Fetched (s : State) : Prop := s.psw = packPsw s.lk false false false false 0#4 0#4 0#3

/-- Both arrays are in canonical form. -/
abbrev CanonicalMemory (s : State) : Prop := Memory.wf 16 256 s.zp = true ∧ Memory.wf 0 65536 s.mem = true

/-- CYCLE names a handler (R30). -/
abbrev LegalCycle (s : State) : Prop :=
  s.cycle = 0#4 ∨ s.cycle = 1#4 ∨ s.cycle = 2#4 ∨ s.cycle = 3#4 ∨ s.cycle = 4#4 ∨ s.cycle = 9#4 ∨ s.cycle = 15#4

/-- TMP and ACC are those of a memory-reference instruction the decoder accepts (R101, R116). -/
abbrev LegalForm (tmp : BitVec 4) (acc : BitVec 3) : Prop :=
  tmp.toNat ≤ 5 ∧ (tmp = 0#4 ∨ tmp = 1#4 ∨ tmp = 3#4 → acc ≠ 7#3) ∧ (tmp = 4#4 ∨ tmp = 5#4 → acc = 7#3)

/-- What the engine keeps of its own scratch state between steps: a named CYCLE; in INDIRECT-RESOLVE, EXECUTE and
WRITEBACK an address below 0x10000 (R74); in the first two an MRI's TMP and ACC; no store deferred when EXECUTE
begins; WRITEBACK out-of-file only (R183); IO set in IO-WAIT only (R233). -/
abbrev EngineLegal (s : State) : Prop :=
  LegalCycle s ∧
  (s.cycle = 2#4 ∨ s.cycle = 3#4 → LegalForm s.tmp s.acc) ∧
  (s.cycle = 2#4 ∨ s.cycle = 3#4 ∨ s.cycle = 9#4 → s.ea.toNat < 65536) ∧
  (s.cycle = 3#4 → s.id = false) ∧
  (s.cycle = 9#4 → 15 < s.ea.toNat) ∧
  (s.io = true → s.cycle = 4#4)

/-- How many commands are outstanding: in the mailbox or claimed. -/
def outstanding (s : State) : Nat :=
  s.mailFull.toNat + s.outAgent.pending.isSome.toNat + s.inAgent.pending.isSome.toNat

/-- During a run at most one command is outstanding, and while one is the CPU is in IO-WAIT for an accumulator 0 to 6,
with IO set unless the run is cancelled (R84, R223, R234). -/
abbrev DeviceLegal (s : State) : Prop :=
  s.running = true → outstanding s ≤ 1 ∧
    (outstanding s = 1 → s.cycle = 4#4 ∧ s.acc ≠ 7#3 ∧ (s.cancel = false → s.io = true))

/-- The machine's invariant. -/
abbrev Inv (s : State) : Prop := CanonicalMemory s ∧ EngineLegal s ∧ DeviceLegal s

/-- Every page slot is bound, as under the default PAGE_MAP (R73). -/
abbrev AllPagesBound (s : State) : Prop := ∀ p : Fin 256, s.pages[p] ≠ none

end Sys2Proof.Machine
end

