-- ==== Sys2Proof/Certificates/Slice0/Obligations.lean ====
section
/-! DEFINITION. The statements for the provers, from the numbered rules of spec/. Each `def Obligations.<Name> : Prop`
states one; OBLIGATIONS.json lists them. `Sys2Proof.Reference` holds what the statements compare the model with: the
rules' arithmetic read over natural numbers and integers, and the rules' bit patterns read off the word. -/

open Sys2Proof Sys2Proof.Machine

namespace Sys2Proof.Reference

/-! ### Encodings -/

/-- w[hi:lo] as a number (R8). -/
def bits (w : Word) (hi lo : Nat) : Nat := w.toNat / 2 ^ lo % 2 ^ (hi + 1 - lo)

/-- The reserved encodings, as R115 lists them. -/
abbrev Reserved (w : Word) : Prop :=
  (bits w 15 13 = 6 ∧ bits w 9 9 = 1) ∨
  (bits w 15 13 = 7 ∧
    ((bits w 9 8 = 0 ∧ bits w 3 1 = 7) ∨
     (bits w 9 8 = 1 ∧ bits w 0 0 = 1) ∨
     (bits w 9 8 = 2 ∧ (bits w 3 3 = 1 ∨ 9 ≤ bits w 7 4)) ∨
     (bits w 9 8 = 3 ∧ (bits w 7 4 ≤ 3 ∨ 9 ≤ bits w 7 4))))

/-- The forms R116 refuses with `NoRegisterForm`. -/
abbrev NoRegister (w : Word) : Prop :=
  ((bits w 15 13 = 0 ∨ bits w 15 13 = 1 ∨ bits w 15 13 = 3 ∨ bits w 15 13 = 6 ∨ bits w 15 13 = 7) ∧ bits w 12 10 = 7) ∨
  (bits w 15 13 = 4 ∧ bits w 12 10 ≠ 7) ∨
  (bits w 15 13 = 7 ∧ bits w 9 8 = 2 ∧ bits w 2 0 = 7)

/-- The form R116 refuses with `UnspecifiedSemantics`: JMP-with-load. -/
abbrev JumpWithLoad (w : Word) : Prop := bits w 15 13 = 5 ∧ bits w 12 10 ≠ 7

/-- Opcode, ACC field, I, Z and offset of the seven memory-reference instructions that have an effect (R101, R103). -/
def mriFields : Instr → Option (BitVec 3 × BitVec 3 × Bool × Bool × BitVec 8)
  | .and acc i z off => some (0#3, acc, i, z, off)
  | .tad acc i z off => some (1#3, acc, i, z, off)
  | .sta acc i z off => some (2#3, acc, i, z, off)
  | .isz i z off => some (2#3, 7#3, i, z, off)
  | .dca acc i z off => some (3#3, acc, i, z, off)
  | .jms i z off => some (4#3, 7#3, i, z, off)
  | .jmp i z off => some (5#3, 7#3, i, z, off)
  | _ => none

/-! ### Arithmetic -/

/-- AC and LK as one 17-bit number, LK on top (R267). -/
def join17 (v : Word) (l : Bool) : Nat := l.toNat * 65536 + v.toNat

def split17 (n : Nat) : Word × Bool := (BitVec.ofNat 16 n, decide (n / 65536 % 2 = 1))

/-- One place right and one place left in 17 bits (R267, R268). -/
def right17 (n : Nat) : Nat := n / 2 + n % 2 * 65536
def left17 (n : Nat) : Nat := n * 2 % 131072 + n / 65536

/-- The rotations and swaps of R109 as arithmetic; BSW6 is the OPEN parameter (R267–R272). -/
def rotated (rot : Rot) (v : Word) (l : Bool) : Word × Bool :=
  match rot with
  | .none => (v, l)
  | .rar => split17 (right17 (join17 v l))
  | .ral => split17 (left17 (join17 v l))
  | .rtr => split17 (right17 (right17 (join17 v l)))
  | .rtl => split17 (left17 (left17 (join17 v l)))
  | .bsw => (BitVec.ofNat 16 (v.toNat % 256 * 256 + v.toNat / 256), l)
  | .bsw6 => Config.bsw6 v l

/-- The group-1 sequence on AC and LK (R261–R266), as arithmetic. -/
def groupOne (cla cll cma cml iac : Bool) (rot : Rot) (v : Word) (l : Bool) : Word × Bool :=
  let v1 : Nat := if cla then 0 else v.toNat
  let l1 := if cll then false else l
  let v2 := if cma then 65535 - v1 else v1
  let l2 := if cml then !l1 else l1
  let l3 := if iac ∧ v2 = 65535 then !l2 else l2
  let v3 := if iac then (v2 + 1) % 65536 else v2
  rotated rot (BitVec.ofNat 16 v3) l3

/-- The OR-group tests (R276): minus, zero, link set. -/
abbrev orTests (sma sza snl : Bool) (v : Word) (l : Bool) : Prop :=
  (sma = true ∧ v.toInt < 0) ∨ (sza = true ∧ v.toNat = 0) ∨ (snl = true ∧ l = true)

/-- The AND-group tests (R277): every selected one of not minus, not zero, link clear. -/
abbrev andTests (spa sna szl : Bool) (v : Word) (l : Bool) : Prop :=
  (spa = true → 0 ≤ v.toInt) ∧ (sna = true → v.toNat ≠ 0) ∧ (szl = true → l = false)

/-- AC after group 2's CLA and OSR (R285, R286). -/
def claOsr (cla osr : Bool) (mode : OsrMode) (sr v : Word) : Word :=
  let v1 := if cla then 0#16 else v
  if osr then (match mode with
    | .load => sr
    | .or => v1 ||| sr)
  else v1

/-- The shifts and rotates of group 3. -/
inductive Shift where
  | shl
  | shr
  | sar
  | rol
  | ror
  deriving DecidableEq, Repr

/-- The new AC for a count `n` of 0 to 15 (R295–R299): a shift left drops what passes 2^16, a logical shift right is
the quotient, an arithmetic one the floor of the signed quotient, a rotate puts what leaves at the other end. -/
def Shift.value (f : Shift) (v : Word) (n : Nat) : Word :=
  match f with
  | .shl => BitVec.ofNat 16 (v.toNat * 2 ^ n)
  | .shr => BitVec.ofNat 16 (v.toNat / 2 ^ n)
  | .sar => BitVec.ofInt 16 (v.toInt / 2 ^ n)
  | .rol => BitVec.ofNat 16 (v.toNat * 2 ^ n % 65536 + v.toNat / 2 ^ (16 - n))
  | .ror => BitVec.ofNat 16 (v.toNat / 2 ^ n + v.toNat % 2 ^ n * 2 ^ (16 - n))

/-- The new LK: the last bit out, unchanged for the count 0 (R295–R299). -/
def Shift.link (f : Shift) (v : Word) (l : Bool) (n : Nat) : Bool :=
  if n = 0 then l
  else match f with
    | .shl | .rol => decide (v.toNat / 2 ^ (16 - n) % 2 = 1)
    | .shr | .sar | .ror => decide (v.toNat / 2 ^ (n - 1) % 2 = 1)

/-- The instruction of a shift with a register count, and with a 4-bit count (R113). -/
def Shift.byReg : Shift → BitVec 3 → BitVec 3 → Instr
  | .shl => .shl
  | .shr => .shr
  | .sar => .sar
  | .rol => .rol
  | .ror => .ror

def Shift.byImm : Shift → BitVec 3 → BitVec 4 → Instr
  | .shl => .shli
  | .shr => .shri
  | .sar => .sari
  | .rol => .roli
  | .ror => .rori

/-- The instructions that may write LK (R25): TAD, the group-1 words with CLL, CML, IAC or a rotation through LK (BSW6
among them), and the shifts and rotates of group 3. -/
def mayWriteLink : Instr → Bool
  | .tad _ _ _ _ => true
  | .cla _ cll _ cml iac rot => cll || cml || iac || (rot != .none && rot != .bsw)
  | .cma _ cml iac rot => cml || iac || (rot != .none && rot != .bsw)
  | .cll _ _ _ _ _ | .cml _ _ _ | .iac _ _ => true
  | .rar _ | .ral _ | .rtr _ | .rtl _ | .bsw6 _ => true
  | .shl _ _ | .shr _ _ | .sar _ _ | .rol _ _ | .ror _ _ => true
  | .shli _ _ | .shri _ _ | .sari _ _ | .roli _ _ | .rori _ _ => true
  | _ => false

/-! ### How a step ends -/

/-- The place an engine store to `a` goes to: the slot in-file, the bus's place otherwise (R146). -/
def storePlace (s : State) (a : Addr) : Option Loc :=
  if a.toNat ≤ 15 then some (.slot (a.setWidth 4)) else s.locate a

/-- The FETCH of an OPR on accumulator `acc` ends with AC = `v` and LK = `l`: OP is 1, TMP 7, ACC the accumulator, the
other scratch fields 0, and nothing but AC and the PSW changes (R142, R260). -/
def OprEnds (acc : BitVec 3) (s : State) (ans : Answer) (r : Word × Bool) : Prop :=
  ∃ t, ans = .next t ∧ t.ac acc = r.1 ∧ t.psw = packPsw r.2 true false false false 0#4 7#4 acc ∧
    Frame [.slot (acSlot acc), .slot 7#4] s t

/-- The FETCH of a group-2 word ends: PC skips when `skips` holds, AC is cleared and loaded as asked, CYCLE is 15 with
HLT and 0 without, LK stays, and nothing but AC, PC and the PSW changes (R275, R285–R287). -/
def SkipEnds (acc : BitVec 3) (s : State) (ans : Answer) (skips : Prop) (cla osr hlt : Bool) : Prop :=
  ∃ t, ans = .next t ∧
    (skips → t.pc = s.pc + 1#16) ∧ (¬ skips → t.pc = s.pc) ∧
    t.ac acc = claOsr cla osr s.params.osrMode s.sr (s.ac acc) ∧
    t.psw = packPsw s.lk true false false false (if hlt then 15#4 else 0#4) 7#4 acc ∧
    Frame [.slot (acSlot acc), .slot 15#4, .slot 7#4] s t

/-- The PSW after an MRI that completed in FETCH (R142, R144, R156). -/
def mriDone (lk : Bool) (op acc : BitVec 3) : Word := packPsw lk false false false false 0#4 (op.setWidth 4) acc

/-- The PSW after EXECUTE (R149, R156): EX 0, CYCLE as ID says, everything else but LK as it was. -/
def executed (s : State) (lk id : Bool) : Word :=
  packPsw lk s.op s.io false id (if id then 9#4 else 0#4) s.tmp s.acc

/-- A step halts with a machine check (R332): CYCLE 15 and the record are all that changes. -/
def ChecksWith (s : State) (ans : Answer) (k : CheckKind) (a : Addr) : Prop :=
  ∃ t, ans = .next t ∧ t.mcheck = some { kind := k, addr := a } ∧
    t.psw = packPsw s.lk s.op s.io s.ex s.id 15#4 s.tmp s.acc ∧ Frame [.slot 7#4] s { t with mcheck := s.mcheck }

/-- A device's turn (R374). -/
def turnOf : Dev → Turn
  | .output => .outAgent
  | .input => .inAgent

/-- Device `d` has an enabled step: a claimed command, or a command for its unit to claim (R225, R226, R232). -/
abbrev DeviceEnabled (d : Dev) (s : State) : Prop :=
  (s.agent d).running = true ∧
    ((s.agent d).pending ≠ none ∨ (s.mailbox.cmd ≠ 0xFFFF#16 ∧ s.mailbox.unit = (s.agent d).unit))

/-- The run's loop moves: on the CPU's turn, and on that of a device without an enabled step (R374; log 10). -/
def LoopMoves (s : State) : Prop :=
  (s.drawTurn).1 = .cpu ∨ ∃ d, (s.drawTurn).1 = turnOf d ∧ ¬ DeviceEnabled d s

/-- `s` with its agents and its run stopped (R379). -/
def runOver (s : State) : State :=
  { s with
    running := false
    outAgent := { s.outAgent with running := false }
    inAgent := { s.inAgent with running := false } }

/-- The perform step of device `d` (R226) ends in `t` with everything but AC, PC, OUT and the console's answers as the
rule says: IO is 0, the rest of the PSW stays, `d` has nothing pending. -/
def PerformEnds (d : Dev) (s : State) (r : Res State) (touched : List Loc) (t : State) : Prop :=
  r = .ok t ∧ t.psw = packPsw s.lk s.op false s.ex s.id s.cycle s.tmp s.acc ∧
    t.agent d = { s.agent d with pending := none } ∧
    Frame (.slot 7#4 :: touched) s { (t.setAgent d (s.agent d)) with out := s.out, answers := s.answers }

end Sys2Proof.Reference

open Sys2Proof.Reference

/-! ## Encoding -/

/-- Words written out in R103, R106, R121 and in the decoding vectors of `95_test_vectors.md` 2.1, 2.5, 2.6, 2.7. -/
def Obligations.SpecWordsDecodeAsWritten : Prop :=
  decode 0x0101#16 = .and 0#3 false true 0x01#8 ∧
  decode 0x2708#16 = .tad 1#3 true true 0x08#8 ∧
  decode 0x4810#16 = .sta 2#3 false false 0x10#8 ∧
  decode 0x5C10#16 = .isz false false 0x10#8 ∧
  decode 0x6012#16 = .dca 0#3 false false 0x12#8 ∧
  decode 0x9C10#16 = .jms false false 0x10#8 ∧
  decode 0xBE10#16 = .jmp true false 0x10#8 ∧
  decode 0xC024#16 = .iot 0#3 4#6 4#3 ∧
  decode 0xE021#16 = .cma 0#3 false true .none ∧
  decode 0xE1A0#16 = .sza 0#3 false true false false ∧
  decode 0xE642#16 = .shl 1#3 2#3 ∧
  decode 0xEB43#16 = .shli 2#3 3#4 ∧
  decode 0xDE00#16 = .iotBit9 7#3 0#9

/-- Decode and encode agree on every well-formed instruction, every operand at every value (R103, R106–R113). -/
def Obligations.DecodeOfEncodeIsIdentity : Prop := ∀ i : Instr, i.WellFormed = true → decode (encode i) = i

/-- Every word decodes to a well-formed instruction, and no bit of it is dropped (R114, R118). -/
def Obligations.EncodeOfDecodeIsIdentity : Prop :=
  ∀ w : Word, (decode w).WellFormed = true ∧ encode (decode w) = w

/-- R115: decoding any reserved word makes the FETCH step refuse ReservedEncoding, a forbidden ACC or source field
notwithstanding (R337). -/
def Obligations.ReservedEncodingsRefused : Prop :=
  ∀ (w : Word) (s s1 : State), s.cycle = 0#4 ∨ s.cycle = 1#4 → s.fetch = .ok (w, s1) → Reserved w →
    cpuStep s = .refused .reservedEncoding ∧ (s.running = false → step s = .refused .reservedEncoding)

/-- R116, R188, R189: a word that is not reserved and has a forbidden ACC or source field is refused, JMP-with-load
under its own name. -/
def Obligations.RegisterFormsRefused : Prop :=
  ∀ (w : Word) (s s1 : State), s.cycle = 0#4 ∨ s.cycle = 1#4 → s.fetch = .ok (w, s1) → ¬ Reserved w →
    (NoRegister w → cpuStep s = .refused .noRegisterForm ∧ (s.running = false → step s = .refused .noRegisterForm)) ∧
    (JumpWithLoad w →
      cpuStep s = .refused .unspecifiedSemantics ∧ (s.running = false → step s = .refused .unspecifiedSemantics))

/-- The ten refused rows of the opcode table stop under the name the table gives them, on every field value and in
every state (R115, R116, R188, R189). -/
def Obligations.RefusedRowsStopByName : Prop :=
  ∀ (s : State) (r : BitVec 3) (i z : Bool) (off : BitVec 8) (n4 m4 : BitVec 4) (n7 : BitVec 7) (n9 : BitVec 9)
    (n10 : BitVec 10) (r' : BitVec 3),
    exec (.jmpWithLoad r i z off) s = .refused .unspecifiedSemantics ∧
    exec (.reservedRot7 r n4 i) s = .refused .reservedEncoding ∧
    exec (.reservedBit0 r n7) s = .refused .reservedEncoding ∧
    exec (.jmsReg r i z off) s = .refused .noRegisterForm ∧
    exec (.acc7 r n10) s = .refused .noRegisterForm ∧
    exec (.iotBit9 r n9) s = .refused .reservedEncoding ∧
    exec (.g3rSource7 r n4) s = .refused .noRegisterForm ∧
    exec (.g3rBit3 r n4 r') s = .refused .reservedEncoding ∧
    exec (.g3rOp3 r n4 r') s = .refused .reservedEncoding ∧
    exec (.g3iOp3 r n4 m4) s = .refused .reservedEncoding

/-! ## FETCH -/

/-- A step in FETCH runs the decoded instruction on the state FETCH has prepared; in a run, when the CPU moves, the
step is also counted (R140, R142, R375). -/
def Obligations.StepRunsDecodedInstruction : Prop :=
  ∀ (s : State) (w : Word) (s1 : State), s.cycle = 0#4 ∨ s.cycle = 1#4 →
    (s.running = false → s.fetch = .ok (w, s1) → step s = exec (decode w) s1) ∧
    (s.running = true → (s.drawTurn).1 = .cpu → s.cancel = false → (s.drawTurn).2.fetch = .ok (w, s1) →
      step s = match exec (decode w) s1 with
        | .next t => .next { t with count := t.count + 1 }
        | .fault f => .fault f
        | .refused r => .refused r)

/-- R142 up to decoding: the word is the one the bus reaches at PC, PC counts up mod 2^16, every PSW field but LK
becomes 0, and nothing else changes. A fetch at PC = 7 through page 0 reads LK exactly and bits 15:1 free (R33(a), D42);
that a fetch reaches slot 7 in the same way at any other PC, on a page that holds the CPU unit, is the model's own choice
(DEDUCED, log 20). -/
def Obligations.FetchReadsWordAtPc : Prop :=
  ∀ (s : State) (l : Loc), s.locate (s.pc.setWidth 32) = some l →
    (∀ w, l ≠ .slot 7#4 → s.peek l = some w →
      ∃ s1, s.fetch = .ok (w, s1) ∧ s1.pc = s.pc + 1#16 ∧ s1.lk = s.lk ∧ Fetched s1 ∧
        Frame [.slot 7#4, .slot 15#4] s s1) ∧
    (l = .slot 7#4 →
      ∃ b s1, s.fetch = .ok (b ++ BitVec.ofBool s.lk, s1) ∧ b = Config.freeScratch s.draws ∧
        s1.pc = s.pc + 1#16 ∧ s1.lk = s.lk ∧ Fetched s1 ∧ Frame [.slot 7#4, .slot 15#4] s s1)

/-- R332, R339 in FETCH: an unbound page at PC halts the CPU with PC and the PSW's other fields as they were; a word
nothing has written is refused (R47, R337). -/
def Obligations.FetchStopsOnUnboundOrUnwritten : Prop :=
  ∀ s : State, s.running = false → s.cycle = 0#4 ∨ s.cycle = 1#4 →
    (s.locate (s.pc.setWidth 32) = none → ChecksWith s (step s) .fetchUnbound (s.pc.setWidth 32)) ∧
    (∀ l, s.locate (s.pc.setWidth 32) = some l → s.peek l = none → step s = .refused .readUnwritten)

/-! ## Memory-reference instructions -/

/-- R104: the raw offset, or the offset within PC's page; never sign-extended, always below 0x10000. -/
def Obligations.EffectiveAddressOfMri : Prop :=
  ∀ (pc : Word) (off : BitVec 8),
    (address pc true off).toNat = off.toNat ∧
    (address pc false off).toNat = pc.toNat / 256 * 256 + off.toNat ∧
    (∀ z, (address pc z off).toNat < 65536)

/-- R181 on a direct in-file address, which completes in FETCH (R144). The operand is the slot's word, or LK under
free bits for slot 7 (R33(a)). -/
def Obligations.AndDirectInFile : Prop :=
  ∀ (s : State) (acc : BitVec 3) (z : Bool) (off : BitVec 8), Fetched s → acc ≠ 7#3 →
    (address s.pc z off).toNat ≤ 15 →
    ∃ t, exec (.and acc false z off) s = .next t ∧
      t.ac acc = s.ac acc &&& (s.readSlot ((address s.pc z off).setWidth 4)).1 ∧
      t.psw = mriDone s.lk 0#3 acc ∧ Frame [.slot (acSlot acc), .slot 7#4] s t

/-- R182 on a direct in-file address: the sum mod 2^16, and LK complemented exactly when the sum reaches 0x10000. -/
def Obligations.TadDirectInFile : Prop :=
  ∀ (s : State) (acc : BitVec 3) (z : Bool) (off : BitVec 8), Fetched s → acc ≠ 7#3 →
    (address s.pc z off).toNat ≤ 15 →
    let v := (s.readSlot ((address s.pc z off).setWidth 4)).1
    ∃ t, exec (.tad acc false z off) s = .next t ∧
      t.ac acc = s.ac acc + v ∧
      t.psw = mriDone (if 65536 ≤ (s.ac acc).toNat + v.toNat then !s.lk else s.lk) 1#3 acc ∧
      Frame [.slot (acSlot acc), .slot 7#4] s t

/-- R183 on a direct in-file address other than the PSW's: the slot counts up at once and PC skips on zero. On slot 15
the increment writes PC first and the skip adds one more (D35). -/
def Obligations.IszDirectInFile : Prop :=
  ∀ (s : State) (z : Bool) (off : BitVec 8), Fetched s → (address s.pc z off).toNat ≤ 15 →
    (address s.pc z off).toNat ≠ 7 →
    let i : BitVec 4 := (address s.pc z off).setWidth 4
    let v := s.x i + 1#16
    ∃ t, exec (.isz false z off) s = .next t ∧
      (i ≠ 15#4 → t.x i = v ∧ t.pc = if v = 0#16 then s.pc + 1#16 else s.pc) ∧
      (i = 15#4 → t.pc = if v = 0#16 then v + 1#16 else v) ∧
      t.psw = mriDone s.lk 2#3 7#3 ∧ Frame [.slot i, .slot 15#4, .slot 7#4] s t

/-- R184 and R185 on a direct in-file address other than the PSW's: the slot gets AC; STA leaves AC, DCA clears it
after the store, so that depositing AC in itself leaves 0. -/
def Obligations.StaDcaDirectInFile : Prop :=
  ∀ (s : State) (acc : BitVec 3) (z : Bool) (off : BitVec 8), Fetched s → acc ≠ 7#3 →
    (address s.pc z off).toNat ≤ 15 → (address s.pc z off).toNat ≠ 7 →
    let i : BitVec 4 := (address s.pc z off).setWidth 4
    (∃ t, exec (.sta acc false z off) s = .next t ∧ t.x i = s.ac acc ∧ t.psw = mriDone s.lk 2#3 acc ∧
      Frame [.slot i, .slot 7#4] s t) ∧
    (∃ t, exec (.dca acc false z off) s = .next t ∧ t.ac acc = 0#16 ∧ (i ≠ acSlot acc → t.x i = s.ac acc) ∧
      t.psw = mriDone s.lk 3#3 acc ∧ Frame [.slot i, .slot (acSlot acc), .slot 7#4] s t)

/-- R186 and R187 on a direct in-file address: JMS keeps the return address there and goes to the next word (slot 15
keeps nothing and the jump goes to 16); JMP goes to the address. -/
def Obligations.JmsJmpDirectInFile : Prop :=
  ∀ (s : State) (z : Bool) (off : BitVec 8), Fetched s → (address s.pc z off).toNat ≤ 15 →
    let a := address s.pc z off
    let i : BitVec 4 := a.setWidth 4
    (a.toNat ≠ 7 → ∃ t, exec (.jms false z off) s = .next t ∧ t.pc = a.setWidth 16 + 1#16 ∧
      (i ≠ 15#4 → t.x i = s.pc) ∧ t.psw = mriDone s.lk 4#3 7#3 ∧ Frame [.slot i, .slot 15#4, .slot 7#4] s t) ∧
    (∃ t, exec (.jmp false z off) s = .next t ∧ t.pc = a.setWidth 16 ∧ t.psw = mriDone s.lk 5#3 7#3 ∧
      Frame [.slot 15#4, .slot 7#4] s t)

/-- R33(b), R146: an engine write of the PSW is refused, in FETCH for a direct address 7, in EXECUTE and WRITEBACK for
a final address 7. -/
def Obligations.PswWriteRefused : Prop :=
  (∀ (s : State) (acc : BitVec 3) (z : Bool) (off : BitVec 8), acc ≠ 7#3 → address s.pc z off = 7#32 →
    exec (.sta acc false z off) s = .refused .pswWrite ∧ exec (.dca acc false z off) s = .refused .pswWrite ∧
    exec (.isz false z off) s = .refused .pswWrite ∧ exec (.jms false z off) s = .refused .pswWrite) ∧
  (∀ s : State, s.ea = 7#32 →
    (s.cycle = 9#4 → cpuStep s = .refused .pswWrite) ∧
    (s.cycle = 3#4 → (s.tmp = 2#4 ∨ (s.tmp = 3#4 ∧ s.acc ≠ 7#3) ∨ (s.tmp = 4#4 ∧ s.acc = 7#3)) →
      cpuStep s = .refused .pswWrite))

/-- R144, R147: an MRI with a direct address out-of-file leaves FETCH for EXECUTE with the address in EA. -/
def Obligations.MriDirectOutOfFilePends : Prop :=
  ∀ (s : State) (ins : Instr) (op acc : BitVec 3) (z : Bool) (off : BitVec 8),
    mriFields ins = some (op, acc, false, z, off) → Fetched s → 15 < (address s.pc z off).toNat →
    ∃ t, exec ins s = .next t ∧ t.ea = address s.pc z off ∧
      t.psw = packPsw s.lk false false true false 3#4 (op.setWidth 4) acc ∧ Frame [.slot 7#4] s { t with ea := s.ea }

/-- R144, R145, R34: an MRI whose pointer is in-file resolves it in FETCH: EA is the slot's old word (LK under free bits
for slot 7), an index register (8 to 14) counts up, and EXECUTE follows. -/
def Obligations.MriIndirectInFileResolves : Prop :=
  ∀ (s : State) (ins : Instr) (op acc : BitVec 3) (z : Bool) (off : BitVec 8),
    mriFields ins = some (op, acc, true, z, off) → Fetched s → (address s.pc z off).toNat ≤ 15 →
    let i : BitVec 4 := (address s.pc z off).setWidth 4
    ∃ t, exec ins s = .next t ∧ t.ea = ((s.readSlot i).1).setWidth 32 ∧
      t.psw = packPsw s.lk false false true false 3#4 (op.setWidth 4) acc ∧
      (8 ≤ i.toNat ∧ i.toNat ≤ 14 → t.x i = s.x i + 1#16 ∧ Frame [.slot i, .slot 7#4] s { t with ea := s.ea }) ∧
      (¬ (8 ≤ i.toNat ∧ i.toNat ≤ 14) → Frame [.slot 7#4] s { t with ea := s.ea })

/-- R144, R147: an MRI whose pointer is out-of-file leaves FETCH for INDIRECT-RESOLVE with the pointer's address in
EA. -/
def Obligations.MriIndirectOutOfFilePends : Prop :=
  ∀ (s : State) (ins : Instr) (op acc : BitVec 3) (z : Bool) (off : BitVec 8),
    mriFields ins = some (op, acc, true, z, off) → Fetched s → 15 < (address s.pc z off).toNat →
    ∃ t, exec ins s = .next t ∧ t.ea = address s.pc z off ∧
      t.psw = packPsw s.lk false false true true 2#4 (op.setWidth 4) acc ∧ Frame [.slot 7#4] s { t with ea := s.ea }

/-- R146, R64, R33(a), R47: what an engine read answers. In-file it is the slot; out-of-file it is the word at the
place the bus reaches, a refusal where nothing has written it, a machine check where the page is unbound. Address 7 reads
as LK under free bits (R33(a)). The last clause, that slot 7 reads so through an address above 15 too, is the model's own
choice (DEDUCED, log 20): R33(a) speaks of address 7 only. -/
def Obligations.EngineReadAnswers : Prop :=
  ∀ (s : State) (a : Addr),
    (a.toNat ≤ 15 → a.toNat ≠ 7 → s.localRead a = .ok (s.x (a.setWidth 4), s)) ∧
    (a.toNat = 7 → ∃ s1, s.localRead a = .ok (Config.freeScratch s.draws ++ BitVec.ofBool s.lk, s1) ∧ Frame [] s s1) ∧
    (15 < a.toNat →
      (s.locate a = none → s.localRead a = .check .readUnbound a) ∧
      (∀ l, s.locate a = some l → l ≠ .slot 7#4 → ∀ v, s.peek l = some v → s.localRead a = .ok (v, s)) ∧
      (∀ l, s.locate a = some l → s.peek l = none → s.localRead a = .refuse .readUnwritten) ∧
      (s.locate a = some (.slot 7#4) →
        ∃ s1, s.localRead a = .ok (Config.freeScratch s.draws ++ BitVec.ofBool s.lk, s1) ∧ Frame [] s s1))

/-- R148: INDIRECT-RESOLVE puts the pointer in EA, clears ID and goes to EXECUTE. An in-file pointer, which only a
host deposit can bring here, counts its index register up. -/
def Obligations.IndirectResolveStep : Prop :=
  ∀ s : State, s.cycle = 2#4 →
    (∀ p s1, 15 < s.ea.toNat → s.localRead s.ea = .ok (p, s1) →
      ∃ t, cpuStep s = .next t ∧ t.ea = p.setWidth 32 ∧
        t.psw = packPsw s.lk s.op s.io s.ex false 3#4 s.tmp s.acc ∧ Frame [.slot 7#4] s { t with ea := s.ea }) ∧
    (s.ea.toNat ≤ 15 →
      let i : BitVec 4 := s.ea.setWidth 4
      ∃ t, cpuStep s = .next t ∧ t.ea = ((s.readSlot i).1).setWidth 32 ∧
        t.psw = packPsw s.lk s.op s.io s.ex false 3#4 s.tmp s.acc ∧
        (8 ≤ i.toNat ∧ i.toNat ≤ 14 → t.x i = s.x i + 1#16 ∧ Frame [.slot i, .slot 7#4] s { t with ea := s.ea }) ∧
        (¬ (8 ≤ i.toNat ∧ i.toNat ≤ 14) → Frame [.slot 7#4] s { t with ea := s.ea }))

/-- R149, R181, R182: AND and TAD in EXECUTE on any readable final address. -/
def Obligations.ExecuteAndTad : Prop :=
  ∀ (s : State) (v : Word) (s1 : State), s.cycle = 3#4 → s.acc ≠ 7#3 → s.localRead s.ea = .ok (v, s1) →
    (s.tmp = 0#4 → ∃ t, cpuStep s = .next t ∧ t.ac s.acc = s.ac s.acc &&& v ∧ t.psw = executed s s.lk s.id ∧
      Frame [.slot (acSlot s.acc), .slot 7#4] s t) ∧
    (s.tmp = 1#4 → ∃ t, cpuStep s = .next t ∧ t.ac s.acc = s.ac s.acc + v ∧
      t.psw = executed s (if 65536 ≤ (s.ac s.acc).toNat + v.toNat then !s.lk else s.lk) s.id ∧
      Frame [.slot (acSlot s.acc), .slot 7#4] s t)

/-- R149, R184–R186: STA, DCA and JMS in EXECUTE on any final address but the PSW's. The word stored goes to the place
of the address; DCA clears AC and JMS loads PC after it. -/
def Obligations.ExecuteStaDcaJms : Prop :=
  ∀ (s : State) (l : Loc), s.cycle = 3#4 → storePlace s s.ea = some l → l ≠ .slot 7#4 →
    (s.tmp = 2#4 → s.acc ≠ 7#3 → ∃ t, cpuStep s = .next t ∧ t.peek l = some (s.ac s.acc) ∧
      t.psw = executed s s.lk s.id ∧ Frame [l, .slot 7#4] s t) ∧
    (s.tmp = 3#4 → s.acc ≠ 7#3 → ∃ t, cpuStep s = .next t ∧ t.ac s.acc = 0#16 ∧
      (l ≠ .slot (acSlot s.acc) → t.peek l = some (s.ac s.acc)) ∧
      t.psw = executed s s.lk s.id ∧ Frame [l, .slot (acSlot s.acc), .slot 7#4] s t) ∧
    (s.tmp = 4#4 → s.acc = 7#3 → ∃ t, cpuStep s = .next t ∧ t.pc = s.ea.setWidth 16 + 1#16 ∧
      (l ≠ .slot 15#4 → t.peek l = some s.pc) ∧
      t.psw = executed s s.lk s.id ∧ Frame [l, .slot 15#4, .slot 7#4] s t)

/-- R149, R183: ISZ in EXECUTE. Out-of-file it defers the store to WRITEBACK and decides the skip now; in-file it
stores at once. -/
def Obligations.ExecuteIsz : Prop :=
  ∀ (s : State), s.cycle = 3#4 → s.tmp = 2#4 → s.acc = 7#3 →
    (∀ v s1, 15 < s.ea.toNat → s.localRead s.ea = .ok (v, s1) →
      ∃ t, cpuStep s = .next t ∧ t.wb = v + 1#16 ∧
        t.pc = (if v + 1#16 = 0#16 then s.pc + 1#16 else s.pc) ∧ t.psw = executed s s.lk true ∧
        Frame [.slot 15#4, .slot 7#4] s { t with wb := s.wb }) ∧
    (s.ea.toNat ≤ 15 → s.ea.toNat ≠ 7 →
      let i : BitVec 4 := s.ea.setWidth 4
      let v := s.x i + 1#16
      ∃ t, cpuStep s = .next t ∧
        (i ≠ 15#4 → t.x i = v ∧ t.pc = if v = 0#16 then s.pc + 1#16 else s.pc) ∧
        (i = 15#4 → t.pc = if v = 0#16 then v + 1#16 else v) ∧
        t.psw = executed s s.lk s.id ∧ Frame [.slot i, .slot 15#4, .slot 7#4] s t)

/-- R149, R187: JMP in EXECUTE. -/
def Obligations.ExecuteJmp : Prop :=
  ∀ s : State, s.cycle = 3#4 → s.tmp = 5#4 → s.acc = 7#3 →
    ∃ t, cpuStep s = .next t ∧ t.pc = s.ea.setWidth 16 ∧ t.psw = executed s s.lk s.id ∧
      Frame [.slot 15#4, .slot 7#4] s t

/-- R150: WRITEBACK stores WB at EA's place, clears ID and returns to FETCH. -/
def Obligations.WritebackStores : Prop :=
  ∀ (s : State) (l : Loc), s.cycle = 9#4 → storePlace s s.ea = some l → l ≠ .slot 7#4 →
    ∃ t, cpuStep s = .next t ∧ t.peek l = some s.wb ∧
      t.psw = packPsw s.lk s.op s.io s.ex false 0#4 s.tmp s.acc ∧ Frame [l, .slot 7#4] s t

/-- R332: an out-of-file access to an unbound page halts the step with the access's kind and address recorded and
nothing else changed: a pointer or operand read, an operand write, a deferred write. -/
def Obligations.UnboundAccessTakesMachineCheck : Prop :=
  ∀ s : State, 15 < s.ea.toNat → s.locate s.ea = none →
    (s.cycle = 2#4 → ChecksWith s (cpuStep s) .readUnbound s.ea) ∧
    (s.cycle = 9#4 → ChecksWith s (cpuStep s) .writeUnbound s.ea) ∧
    (s.cycle = 3#4 →
      ((s.tmp = 0#4 ∨ s.tmp = 1#4) ∧ s.acc ≠ 7#3) ∨ (s.tmp = 2#4 ∧ s.acc = 7#3) →
      ChecksWith s (cpuStep s) .readUnbound s.ea) ∧
    (s.cycle = 3#4 →
      ((s.tmp = 2#4 ∨ s.tmp = 3#4) ∧ s.acc ≠ 7#3) ∨ (s.tmp = 4#4 ∧ s.acc = 7#3) →
      ChecksWith s (cpuStep s) .writeUnbound s.ea)

/-- R183, R387: a direct ISZ of a zero-page or memory word takes three steps; it leaves the word one higher and PC one
past the instruction, or two when the word wrapped to 0. -/
def Obligations.IszOutOfFileThreeSteps : Prop :=
  ∀ (s s1 : State) (w v : Word) (z : Bool) (off : BitVec 8) (l : Loc), s.running = false →
    s.cycle = 0#4 ∨ s.cycle = 1#4 → s.fetch = .ok (w, s1) → decode w = .isz false z off →
    15 < (address s1.pc z off).toNat → s.locate (address s1.pc z off) = some l → (∀ i, l ≠ .slot i) →
    s.peek l = some v →
    ∃ t, Sys2Proof.core.run 3 s = .next t ∧ t.peek l = some (v + 1#16) ∧
      t.pc = (if v = 0xFFFF#16 then s.pc + 2#16 else s.pc + 1#16) ∧ t.lk = s.lk ∧ t.cycle = 0#4 ∧
      Frame [l, .slot 15#4, .slot 7#4] s { t with ea := s.ea, wb := s.wb }

/-- R154: on a direct in-file address, the short-circuit in FETCH and the path forced through EXECUTE end in the same
machine, but for the EA latch the long path writes; and they are refused alike. -/
def Obligations.ShortCircuitEqualsLongPath : Prop :=
  ∀ (s : State) (ins : Instr) (op acc : BitVec 3) (z : Bool) (off : BitVec 8),
    mriFields ins = some (op, acc, false, z, off) → ins.WellFormed = true → Fetched s →
    (address s.pc z off).toNat ≤ 15 →
    let forced : State := { ((s.latch op acc).setEx true).setCycle 3#4 with ea := address s.pc z off }
    match exec ins s with
    | .next t => ∃ t', cpuStep forced = .next t' ∧ t'.regs = t.regs ∧ { t' with ea := t.ea } = t
    | .fault _ => False
    | .refused r => cpuStep forced = .refused r

/-! ## IOT, the mailbox and the devices -/

/-- R220, R222: an IOT to a unit with the terminal's handler posts its command, sets IO and leaves FETCH for IO-WAIT. -/
def Obligations.IotPostsAndWaits : Prop :=
  ∀ (s : State) (acc : BitVec 3) (unit : BitVec 6) (fn : BitVec 3), Fetched s → acc ≠ 7#3 →
    s.attns[unit.toNat]? = some (some .terminal) →
    ∃ t, exec (.iot acc unit fn) s = .next t ∧ t.mailbox = { unit := unit.setWidth 8, cmd := fn.setWidth 16 } ∧
      t.psw = packPsw s.lk false true false false 4#4 6#4 acc ∧ Frame [.slot 7#4] s { t with mailbox := s.mailbox }

/-- R221, R333: an IOT to a unit with no handler clears IO in the same step and completes in FETCH, with the mailbox
untouched. -/
def Obligations.IotUnboundCompletes : Prop :=
  ∀ (s : State) (acc : BitVec 3) (unit : BitVec 6) (fn : BitVec 3), Fetched s → acc ≠ 7#3 →
    s.attns[unit.toNat]? = some none →
    ∃ t, exec (.iot acc unit fn) s = .next t ∧ t.psw = packPsw s.lk false false false false 0#4 6#4 acc ∧
      Frame [.slot 7#4] s t

/-- R151: IO-WAIT with IO = 1 writes nothing; with IO = 0 it goes to FETCH; and in a run each such step counts one. -/
def Obligations.IoWaitPolls : Prop :=
  ∀ s : State, s.cycle = 4#4 →
    (s.io = true → cpuStep s = .next s) ∧
    (s.io = false → ∃ t, cpuStep s = .next t ∧
      t.psw = packPsw s.lk s.op false s.ex s.id 0#4 s.tmp s.acc ∧ Frame [.slot 7#4] s t) ∧
    (s.running = true → (s.drawTurn).1 = .cpu → s.cancel = false → ∃ t, step s = .next t ∧ t.count = s.count + 1)

/-- R225, R226, R374: on a device's turn in a run, it performs the command it has claimed; else it claims a command
addressed to its unit, emptying the mailbox; else the CPU moves, which is the model's own choice (log 10). -/
def Obligations.AgentTurnPerformsOrClaims : Prop :=
  ∀ (s : State) (d : Dev), s.running = true → (s.drawTurn).1 = turnOf d →
    let s1 := (s.drawTurn).2
    (∀ c, (s.agent d).running = true → (s.agent d).pending = some c → step s = (devPerform d c s1).outcome s1) ∧
    ((s.agent d).running = true → (s.agent d).pending = none → s.mailbox.cmd ≠ 0xFFFF#16 →
      s.mailbox.unit = (s.agent d).unit →
      ∃ t, step s = .next t ∧ t.agent d = { s.agent d with pending := some s.mailbox.cmd } ∧
        t.mailbox = { s.mailbox with cmd := 0xFFFF#16 } ∧
        Frame [] s1 { (t.setAgent d (s.agent d)) with mailbox := s.mailbox }) ∧
    ((s.agent d).running = false → step s = loopStep s1) ∧
    ((s.agent d).pending = none → (s.mailbox.cmd = 0xFFFF#16 ∨ s.mailbox.unit ≠ (s.agent d).unit) →
      step s = loopStep s1)

/-- R227: the output command appends AC's low byte to OUT and clears IO. -/
def Obligations.OutputCommandEmitsByte : Prop :=
  ∀ s : State, s.acc ≠ 7#3 →
    ∃ t, PerformEnds .output s (devPerform .output 4#16 s) [] t ∧
      t.out = s.out ++ [BitVec.ofNat 8 ((s.ac s.acc).toNat % 256)] ∧ t.answers = s.answers

/-- R228: the skip command counts PC up when the console answers ready, and clears IO; OUT and the accumulators stay. The
answer is the next of the console's, which stand apart from the frame (log 9). With F_SKIP and F_READ equal the command is
taken as a skip, which is the model's own choice (log 25). -/
def Obligations.SkipCommandSkipsWhenReady : Prop :=
  ∀ s : State,
    ∃ t, PerformEnds .input s (devPerform .input s.params.fSkip s) [.slot 15#4] t ∧
      t.pc = (if (s.drawAnswer).1.isSome then s.pc + 1#16 else s.pc) ∧ t.out = s.out

/-- R229: the read command loads the console's byte zero-extended, or 0 when it has none, and clears IO. -/
def Obligations.ReadCommandLoadsByteOrZero : Prop :=
  ∀ s : State, s.acc ≠ 7#3 → s.params.fRead ≠ s.params.fSkip →
    ∃ t, PerformEnds .input s (devPerform .input s.params.fRead s) [.slot (acSlot s.acc)] t ∧
      (∀ b, (s.drawAnswer).1 = some b → t.ac s.acc = b.setWidth 16) ∧
      ((s.drawAnswer).1 = none → t.ac s.acc = 0#16) ∧ t.out = s.out

/-- R230, R334: a command the device does not know does nothing but clear IO. -/
def Obligations.UnknownCommandOnlyClearsIo : Prop :=
  ∀ (s : State) (c : Word),
    (c ≠ 4#16 → ∃ t, PerformEnds .output s (devPerform .output c s) [] t ∧ t.out = s.out ∧ t.answers = s.answers) ∧
    (c ≠ s.params.fSkip → c ≠ s.params.fRead →
      ∃ t, PerformEnds .input s (devPerform .input c s) [] t ∧ t.out = s.out ∧ t.answers = s.answers)

/-! ## OPR -/

/-- R261–R273: a group-1 word runs the micro-operations it asks for in the order CLA, CLL, CMA, CML, IAC, rotation,
whichever comes first in it; NOP changes neither AC nor LK. -/
def Obligations.GroupOneSequence : Prop :=
  ∀ (s : State) (d : BitVec 3), Fetched s → d ≠ 7#3 → ∀ (cll cma cml iac : Bool) (rot : Rot),
    let r := fun cla cll cma cml iac rot => groupOne cla cll cma cml iac rot (s.ac d) s.lk
    OprEnds d s (exec (.cla d cll cma cml iac rot) s) (r true cll cma cml iac rot) ∧
    OprEnds d s (exec (.cll d cma cml iac rot) s) (r false true cma cml iac rot) ∧
    OprEnds d s (exec (.cma d cml iac rot) s) (r false false true cml iac rot) ∧
    OprEnds d s (exec (.cml d iac rot) s) (r false false false true iac rot) ∧
    OprEnds d s (exec (.iac d rot) s) (r false false false false true rot) ∧
    OprEnds d s (exec (.rar d) s) (r false false false false false .rar) ∧
    OprEnds d s (exec (.ral d) s) (r false false false false false .ral) ∧
    OprEnds d s (exec (.rtr d) s) (r false false false false false .rtr) ∧
    OprEnds d s (exec (.rtl d) s) (r false false false false false .rtl) ∧
    OprEnds d s (exec (.bsw d) s) (r false false false false false .bsw) ∧
    OprEnds d s (exec (.bsw6 d) s) (r false false false false false .bsw6) ∧
    OprEnds d s (exec (.nop d) s) (s.ac d, s.lk)

/-- R267's corner case: 17 RARs restore AC and LK; and RAL undoes RAR. -/
def Obligations.SeventeenRarsRestore : Prop :=
  (∀ (v : Word) (l : Bool), Nat.iterate (fun p : Word × Bool => rar p.1 p.2) 17 (v, l) = (v, l)) ∧
  (∀ (v : Word) (l : Bool), ral (rar v l).1 (rar v l).2 = (v, l))

/-- R275, R276, R278–R280: the OR group skips when any selected test holds on the old AC and LK, then clears, loads and
halts as asked. -/
def Obligations.OrGroupSkips : Prop :=
  ∀ (s : State) (d : BitVec 3), Fetched s → d ≠ 7#3 → ∀ (sza snl cla osr hlt : Bool),
    SkipEnds d s (exec (.sma d sza snl cla osr hlt) s) (orTests true sza snl (s.ac d) s.lk) cla osr hlt ∧
    SkipEnds d s (exec (.sza d snl cla osr hlt) s) (orTests false true snl (s.ac d) s.lk) cla osr hlt ∧
    SkipEnds d s (exec (.snl d cla osr hlt) s) (orTests false false true (s.ac d) s.lk) cla osr hlt

/-- R275, R277, R281–R284: the AND group skips when every selected test holds, and always when none is selected. -/
def Obligations.AndGroupSkips : Prop :=
  ∀ (s : State) (d : BitVec 3), Fetched s → d ≠ 7#3 → ∀ (sna szl cla osr hlt : Bool),
    SkipEnds d s (exec (.spa d sna szl cla osr hlt) s) (andTests true sna szl (s.ac d) s.lk) cla osr hlt ∧
    SkipEnds d s (exec (.sna d szl cla osr hlt) s) (andTests false true szl (s.ac d) s.lk) cla osr hlt ∧
    SkipEnds d s (exec (.szl d cla osr hlt) s) (andTests false false true (s.ac d) s.lk) cla osr hlt ∧
    SkipEnds d s (exec (.skp d cla osr hlt) s) True cla osr hlt

/-- R275, R276, R285–R287: a group-2 word of the OR sense (S = 0) with no test never skips; it clears AC, loads SR and halts
as asked, HLT with PC past the word. (The AND sense with no test is SKP: `AndGroupSkips`.) That OSR reads SR at any time,
set by the host or not, is the model's own choice (log 3). -/
def Obligations.ClaOsrHltWithoutTest : Prop :=
  ∀ (s : State) (d : BitVec 3), Fetched s → d ≠ 7#3 → ∀ (osr hlt : Bool),
    SkipEnds d s (exec (.cla2 d osr hlt) s) False true osr hlt ∧
    SkipEnds d s (exec (.osr d hlt) s) False false true hlt ∧
    SkipEnds d s (exec (.hlt d) s) False false false true ∧
    SkipEnds d s (exec (.nop2 d) s) False false false false

/-- R291–R294: MOV, SWP, OR and XOR, the source the destination too or not; LK stays. -/
def Obligations.MovSwpOrXor : Prop :=
  ∀ (s : State) (d r : BitVec 3), Fetched s → d ≠ 7#3 → r ≠ 7#3 →
    OprEnds d s (exec (.mov d r) s) (s.ac r, s.lk) ∧
    OprEnds d s (exec (.or d r) s) (s.ac d ||| s.ac r, s.lk) ∧
    OprEnds d s (exec (.xor d r) s) (s.ac d ^^^ s.ac r, s.lk) ∧
    (∃ t, exec (.swp d r) s = .next t ∧ t.ac d = s.ac r ∧ t.ac r = s.ac d ∧
      t.psw = packPsw s.lk true false false false 0#4 7#4 d ∧
      Frame [.slot (acSlot d), .slot (acSlot r), .slot 7#4] s t)

/-- R290, R295–R299 with a 4-bit count: AC as arithmetic gives it, LK the last bit out; the count 0 changes neither. -/
def Obligations.ImmediateShifts : Prop :=
  ∀ (f : Shift) (s : State) (d : BitVec 3) (n : BitVec 4), Fetched s → d ≠ 7#3 →
    OprEnds d s (exec (f.byImm d n) s) (f.value (s.ac d) n.toNat, f.link (s.ac d) s.lk n.toNat)

/-- R290, R295–R299 with a register count: a count up to 15 is read before the destination is written; a larger one is
refused. -/
def Obligations.RegisterShifts : Prop :=
  ∀ (f : Shift) (s : State) (d r : BitVec 3), Fetched s → d ≠ 7#3 → r ≠ 7#3 →
    ((s.ac r).toNat ≤ 15 →
      OprEnds d s (exec (f.byReg d r) s)
        (f.value (s.ac d) (s.ac r).toNat, f.link (s.ac d) s.lk (s.ac r).toNat)) ∧
    (15 < (s.ac r).toNat → exec (f.byReg d r) s = .refused .shiftCountRange)

/-- R25, R190(a): no instruction but those of R25 writes LK. Its FETCH does not, in any state and at any operand, nor does
the CPU's step that fetches it, a machine check included; and no other cycle state changes LK but EXECUTE of TAD. BSW6,
the OPEN parameter, is counted among the writers. -/
def Obligations.LinkWritersOnly : Prop :=
  (∀ (i : Instr) (s t : State), i.WellFormed = true → mayWriteLink i = false → exec i s = .next t → t.lk = s.lk) ∧
  (∀ s t : State, s.cycle = 0#4 ∨ s.cycle = 1#4 →
    (∀ w s1, s.fetch = .ok (w, s1) → mayWriteLink (decode w) = false) → cpuStep s = .next t → t.lk = s.lk) ∧
  (∀ s t : State, s.cycle ≠ 0#4 → s.cycle ≠ 1#4 → ¬ (s.cycle = 3#4 ∧ s.tmp = 1#4) → cpuStep s = .next t → t.lk = s.lk)

/-! ## The whole machine -/

/-- R48, R370: the values the spec gives at power-up. -/
def Obligations.ResetState : Prop :=
  let s := State.reset
  s.cycle = 0#4 ∧ s.op = false ∧ s.io = false ∧ s.ex = false ∧ s.id = false ∧ s.tmp = 0#4 ∧ s.acc = 0#3 ∧
  s.mcheck = none ∧ s.mailbox.cmd = 0xFFFF#16 ∧ s.out = [] ∧ s.running = false ∧ s.cancel = false ∧ s.count = 0 ∧
  s.outAgent.running = false ∧ s.outAgent.pending = none ∧ s.inAgent.running = false ∧ s.inAgent.pending = none ∧
  (∀ o : BitVec 8, s.peek (.zp o) = none) ∧ (∀ a : Word, s.peek (.mem a) = none) ∧
  (∀ p : Fin 256, s.pages[p] = none ∧ s.attns[p] = none)

/-- The invariant holds at reset. -/
def Obligations.ResetMeetsInvariant : Prop := Inv State.reset

/-- Every step keeps the invariant: canonical memory, the engine's scratch state (R30, R74, R153, R183, R233), and one
outstanding command at most, served in IO-WAIT (R84, R223, R234). -/
def Obligations.StepKeepsInvariant : Prop := ∀ s t : State, Inv s → step s = .next t → Inv t

/-- R149, R153: with the invariant no step finds an undefined CYCLE or bad scratch, and no step outside FETCH is
refused but for an unwritten word or a write of the PSW. -/
def Obligations.InvariantRulesOutEngineRefusals : Prop :=
  ∀ (s : State) (r : Refusal), Inv s → step s = .refused r →
    r ≠ .undefinedCycle ∧ r ≠ .badScratch ∧
    (s.cycle ≠ 0#4 → s.cycle ≠ 1#4 → r = .readUnwritten ∨ r = .pswWrite)

/-- R74, R332: with the invariant and every page bound, as under the default PAGE_MAP, no step takes a machine check. -/
def Obligations.NoMachineCheckWhenAllPagesBound : Prop :=
  ∀ s t : State, Inv s → AllPagesBound s → step s = .next t → t.mcheck = s.mcheck

/-- R37, R45, R70: no step changes the bus tables or the switch register; nor the devices' units and the OPEN parameters
(R6, R42), which the model keeps in State where no step changes them (DESIGN CHOICE, log 12). -/
def Obligations.StepKeepsTablesAndParameters : Prop :=
  ∀ s t : State, step s = .next t →
    t.pages = s.pages ∧ t.attns = s.attns ∧ t.sr = s.sr ∧ t.params = s.params ∧
    t.outAgent.unit = s.outAgent.unit ∧ t.inAgent.unit = s.inAgent.unit

/-- R149, R152, R153: HALTED changes nothing; a CYCLE without a handler is refused; EXECUTE with TMP above 5 is refused. -/
def Obligations.HaltedAndUndefinedCycles : Prop :=
  ∀ s : State, s.running = false →
    (s.cycle = 15#4 → step s = .next s) ∧
    ((5 ≤ s.cycle.toNat ∧ s.cycle.toNat ≤ 8) ∨ (10 ≤ s.cycle.toNat ∧ s.cycle.toNat ≤ 14) →
      step s = .refused .undefinedCycle) ∧
    (s.cycle = 3#4 → 5 < s.tmp.toNat → step s = .refused .badScratch)

/-- R374, R375, by who moves in a run. The loop, with no cancel and CYCLE not 15: the step is the CPU's and the count goes
up by one, whatever the CPU did; a refused CPU step is refused. The loop otherwise: the run ends, uncounted. A device with
an enabled step: the run goes on, uncounted. That an idle device's turn is the loop's is the model's own choice
(log 10). -/
def Obligations.RunCountsCpuSteps : Prop :=
  ∀ s : State, s.running = true →
    let s1 := (s.drawTurn).2
    (LoopMoves s → s.cancel = false → s.cycle ≠ 15#4 →
      (∀ u, cpuStep s1 = .next u → step s = .next { u with count := s.count + 1 }) ∧
      (∀ r, cpuStep s1 = .refused r → step s = .refused r)) ∧
    (LoopMoves s → s.cancel = true ∨ s.cycle = 15#4 → ∀ t, step s = .next t →
      t.count = s.count ∧ t.running = false ∧ t.cycle = s.cycle ∧ t.mcheck = s.mcheck ∧ t.mem = s.mem ∧ t.zp = s.zp) ∧
    (∀ d, (s.drawTurn).1 = turnOf d → DeviceEnabled d s → ∀ t, step s = .next t →
      t.count = s.count ∧ t.running = true ∧ t.cycle = s.cycle ∧ t.mcheck = s.mcheck ∧ t.mem = s.mem ∧ t.zp = s.zp)

/-- R374: `run()` outside HALTED empties the mailbox, clears the cancel flag and the count and starts the agents with
nothing pending, the input agent when INPUT_PRESENT; in HALTED it returns 0 and starts nothing. -/
def Obligations.RunStartsAgents : Prop :=
  ∀ s : State, s.running = false →
    (s.cycle = 15#4 → hostCall .run s = .answered (.count 0) { s with count := 0 }) ∧
    (s.cycle ≠ 15#4 → ∃ t, hostCall .run s = .answered .done t ∧ t.mailbox.cmd = 0xFFFF#16 ∧ t.cancel = false ∧
      t.running = true ∧ t.count = 0 ∧
      t.outAgent = { s.outAgent with pending := none, running := true } ∧
      t.inAgent = { s.inAgent with pending := none, running := s.params.inputPresent } ∧
      Frame [] s { t with mailbox := s.mailbox, cancel := s.cancel, running := s.running, count := s.count,
                          outAgent := s.outAgent, inAgent := s.inAgent })

/-- R376, R379: cancel, once in a run, sets the flag and clears bit 2 of slot 7, and changes nothing else. Where the loop
finds a cancel, or HALTED, no CPU step follows. With nothing claimed the agents and the run just stop, and the mailbox
keeps what it holds; a command a running agent has claimed, output or input, is performed first. An output command so
claimed when the cancel comes puts out its byte, with the count and CYCLE as they were. That the run's end is one step is
the model's own choice (log 24), and so is an idle device's turn being the loop's (log 10). -/
def Obligations.CancelledRunEnds : Prop :=
  ∀ s : State, s.running = true →
    (s.cancel = true → hostCall .cancel s = .notPermitted) ∧
    (s.cancel = false → ∃ t, hostCall .cancel s = .answered .done t ∧ t.cancel = true ∧
      t.psw = packPsw s.lk s.op false s.ex s.id s.cycle s.tmp s.acc ∧ Frame [.slot 7#4] s { t with cancel := s.cancel }) ∧
    (s.cancel = true ∨ s.cycle = 15#4 → LoopMoves s →
      let s1 := (s.drawTurn).2
      ((∀ d, (s.agent d).pending = none) → step s = .next (runOver s1)) ∧
      (∀ d c, (s.agent d).running = true → (s.agent d).pending = some c → (∀ e, e ≠ d → (s.agent e).pending = none) →
        (s.acc ≠ 7#3 → ∃ v, devPerform d c s1 = .ok v) ∧
        (∀ v, devPerform d c s1 = .ok v → step s = .next (runOver v)) ∧
        (∀ r, devPerform d c s1 = .refuse r → step s = .refused r))) ∧
    (s.cancel = false → s.acc ≠ 7#3 → s.outAgent.running = true → s.outAgent.pending = some 4#16 →
      s.inAgent.pending = none →
      ∃ t, hostCall .cancel s = .answered .done t ∧ t.io = false ∧ t.cancel = true ∧
        ((t.drawTurn).1 = .cpu → ∃ u, step t = .next u ∧ u.running = false ∧ u.outAgent.running = false ∧
          u.outAgent.pending = none ∧ u.inAgent.running = false ∧ u.count = s.count ∧ u.cycle = s.cycle ∧
          u.mailbox = s.mailbox ∧ u.out = s.out ++ [(s.ac s.acc).setWidth 8]))

/-- R378: between runs only, zap sets CYCLE to FETCH and clears the record, and changes nothing else. -/
def Obligations.ZapClearsHalt : Prop :=
  ∀ s : State,
    (s.running = false →
      ∃ t, hostCall .zap s = .answered .done t ∧ t.mcheck = none ∧
        t.psw = packPsw s.lk s.op s.io s.ex s.id 0#4 s.tmp s.acc ∧ Frame [.slot 7#4] s { t with mcheck := s.mcheck }) ∧
    (s.running = true → hostCall .zap s = .notPermitted)

/-- R33, R64, R65, R373: between runs a host write of a bound address is read back, slot 7 exactly, and a deposit is
inspected; an unbound address answers the error and nothing changes. -/
def Obligations.HostBusRoundTrip : Prop :=
  ∀ (s : State) (a : Addr) (v : Word), s.running = false →
    (∀ l, s.locate a = some l → ∃ t, hostCall (.busWrite a v) s = .answered .done t ∧
      hostCall (.busRead a) t = .answered (.word v) t ∧ Frame [l] s t) ∧
    (s.locate a = none → hostCall (.busWrite a v) s = .answered (.error .unbound) s ∧
      hostCall (.busRead a) s = .answered (.error .unbound) s) ∧
    (∀ i, ∃ t, hostCall (.deposit i v) s = .answered .done t ∧ hostCall (.inspect i) t = .answered (.word v) t ∧
      Frame [.slot i] s t)

/-- R68, R69: an index of 256 or more fails and changes nothing; a smaller one binds its slot and no other, over any
earlier binding. -/
def Obligations.InstallBinds : Prop :=
  ∀ (s : State) (n : Nat), s.running = false →
    (256 ≤ n → (∀ u, hostCall (.install n u) s = .answered (.error .invalidPage) s) ∧
      (∀ u, hostCall (.installAttn n u) s = .answered (.error .invalidUnit) s)) ∧
    (n < 256 → (∀ u, ∃ t, hostCall (.install n u) s = .answered .done t ∧ t.pages[n]? = some (some u) ∧
        (∀ k : Nat, k ≠ n → t.pages[k]? = s.pages[k]?) ∧ { t with pages := s.pages } = s) ∧
      (∀ u, ∃ t, hostCall (.installAttn n u) s = .answered .done t ∧ t.attns[n]? = some (some u) ∧
        (∀ k : Nat, k ≠ n → t.attns[k]? = s.attns[k]?) ∧ { t with attns := s.attns } = s))
end

