-- ==== Sys2Proof/Laws/Decode.lean ====
section
/-! SUPPORT. The bits of each packed word (`30_encoding.md` R121), for the encoder and the decoder. -/

namespace Sys2Proof

/-- The bits of an MRI word (R103). -/
theorem getLsbD_encodeMri (op acc : BitVec 3) (i z : Bool) (off : BitVec 8) (j : Nat) :
    (encodeMri op acc i z off).getLsbD j =
      if j < 8 then off.getLsbD j else if j = 8 then z else if j = 9 then i
      else if j < 13 then acc.getLsbD (j - 10) else op.getLsbD (j - 13) := by
  show @BitVec.getLsbD (3 + 3 + 1 + 1 + 8) (op ++ acc ++ BitVec.ofBool i ++ BitVec.ofBool z ++ off) j = _
  simp only [BitVec.getLsbD_append, BitVec.getLsbD_ofBool]
  split_ifs <;> first | rfl | omega | (simp; omega)

/-- A bit index below 16 is one of sixteen. -/
theorem bit_cases {j : Nat} (h : j < 16) : j = 0 ∨ j = 1 ∨ j = 2 ∨ j = 3 ∨ j = 4 ∨ j = 5 ∨ j = 6 ∨ j = 7 ∨ j = 8 ∨
    j = 9 ∨ j = 10 ∨ j = 11 ∨ j = 12 ∨ j = 13 ∨ j = 14 ∨ j = 15 := by omega

/-- The bits of an OPR group-1 word (R108). -/
theorem getLsbD_encodeGroup1 (acc : BitVec 3) (cla cll cma cml : Bool) (rot : BitVec 3) (iac : Bool) {j : Nat}
    (h : j < 16) :
    (encodeGroup1 acc cla cll cma cml rot iac).getLsbD j =
      if j = 0 then iac else if j < 4 then rot.getLsbD (j - 1) else if j = 4 then cml else if j = 5 then cma
      else if j = 6 then cll else if j = 7 then cla else if j < 10 then false
      else if j < 13 then acc.getLsbD (j - 10) else true := by
  show @BitVec.getLsbD (3 + 3 + 2 + 1 + 1 + 1 + 1 + 3 + 1) (7#3 ++ acc ++ 0#2 ++ BitVec.ofBool cla ++ BitVec.ofBool cll
    ++ BitVec.ofBool cma ++ BitVec.ofBool cml ++ rot ++ BitVec.ofBool iac) j = _
  simp only [BitVec.getLsbD_append, BitVec.getLsbD_ofBool]
  rcases bit_cases h with h | h | h | h | h | h | h | h | h | h | h | h | h | h | h | h <;> subst h <;> simp

/-- The bits of an OPR group-2 word (R110). -/
theorem getLsbD_encodeGroup2 (acc : BitVec 3) (cla t6 t5 t4 s osr hlt : Bool) {j : Nat} (h : j < 16) :
    (encodeGroup2 acc cla t6 t5 t4 s osr hlt).getLsbD j =
      if j = 0 then false else if j = 1 then hlt else if j = 2 then osr else if j = 3 then s else if j = 4 then t4
      else if j = 5 then t5 else if j = 6 then t6 else if j = 7 then cla else if j = 8 then true else if j = 9 then false
      else if j < 13 then acc.getLsbD (j - 10) else true := by
  show @BitVec.getLsbD (3 + 3 + 2 + 1 + 1 + 1 + 1 + 1 + 1 + 1 + 1) (7#3 ++ acc ++ 1#2 ++ BitVec.ofBool cla
    ++ BitVec.ofBool t6 ++ BitVec.ofBool t5 ++ BitVec.ofBool t4 ++ BitVec.ofBool s ++ BitVec.ofBool osr
    ++ BitVec.ofBool hlt ++ 0#1) j = _
  simp only [BitVec.getLsbD_append, BitVec.getLsbD_ofBool]
  rcases bit_cases h with h | h | h | h | h | h | h | h | h | h | h | h | h | h | h | h <;> subst h <;> simp

/-- The bits of an OPR group-3R word (R111). -/
theorem getLsbD_encodeGroup3R (d : BitVec 3) (op3 : BitVec 4) (bit3 : Bool) (s : BitVec 3) (j : Nat) :
    (encodeGroup3R d op3 bit3 s).getLsbD j =
      if j < 3 then s.getLsbD j else if j = 3 then bit3 else if j < 8 then op3.getLsbD (j - 4) else if j = 8 then false
      else if j = 9 then true else if j < 13 then d.getLsbD (j - 10) else (7#3).getLsbD (j - 13) := by
  show @BitVec.getLsbD (3 + 3 + 2 + 4 + 1 + 3) (7#3 ++ d ++ 2#2 ++ op3 ++ BitVec.ofBool bit3 ++ s) j = _
  have h2 : ∀ k : Nat, (2#2).getLsbD k = decide (k = 1) := fun k => by
    match k with
    | 0 => rfl
    | 1 => rfl
    | k + 2 => simp
  simp only [BitVec.getLsbD_append, BitVec.getLsbD_ofBool, h2]
  split_ifs <;> first | rfl | omega | (simp; omega)

/-- The bits of an OPR group-3I word (R112). -/
theorem getLsbD_encodeGroup3I (d : BitVec 3) (op3 n : BitVec 4) (j : Nat) :
    (encodeGroup3I d op3 n).getLsbD j =
      if j < 4 then n.getLsbD j else if j < 8 then op3.getLsbD (j - 4) else if j < 10 then true
      else if j < 13 then d.getLsbD (j - 10) else (7#3).getLsbD (j - 13) := by
  show @BitVec.getLsbD (3 + 3 + 2 + 4 + 4) (7#3 ++ d ++ 3#2 ++ op3 ++ n) j = _
  have h3 : ∀ k : Nat, (3#2).getLsbD k = decide (k < 2) := fun k => by
    match k with
    | 0 => rfl
    | 1 => rfl
    | k + 2 => simp
  simp only [BitVec.getLsbD_append, h3]
  split_ifs <;> first | rfl | omega | (simp; omega)

/-- The bits of an IOT word (R106). -/
theorem getLsbD_encodeIot (acc : BitVec 3) (unit : BitVec 6) (fn : BitVec 3) (j : Nat) :
    (encode (.iot acc unit fn)).getLsbD j =
      if j < 3 then fn.getLsbD j else if j < 9 then unit.getLsbD (j - 3) else if j = 9 then false
      else if j < 13 then acc.getLsbD (j - 10) else (6#3).getLsbD (j - 13) := by
  show @BitVec.getLsbD (3 + 3 + 1 + 6 + 3) (6#3 ++ acc ++ 0#1 ++ unit ++ fn) j = _
  simp only [BitVec.getLsbD_append, BitVec.getLsbD_zero]
  split_ifs <;> first | rfl | omega

/-! The decoder's fields of each packed word. -/

@[simp] theorem op_encodeMri (op acc : BitVec 3) (i z : Bool) (off : BitVec 8) : Decode.op (encodeMri op acc i z off) = op := by
  refine BitVec.eq_of_getLsbD_eq fun j hj => ?_
  simp only [Decode.op, BitVec.getLsbD_extractLsb', hj, decide_true, Bool.true_and]
  have : j = 0 ∨ j = 1 ∨ j = 2 := by omega
  rcases this with rfl | rfl | rfl <;> (rw [getLsbD_encodeMri]; simp)

@[simp] theorem acc_encodeMri (op acc : BitVec 3) (i z : Bool) (off : BitVec 8) : Decode.acc (encodeMri op acc i z off) = acc := by
  refine BitVec.eq_of_getLsbD_eq fun j hj => ?_
  simp only [Decode.acc, BitVec.getLsbD_extractLsb', hj, decide_true, Bool.true_and]
  have : j = 0 ∨ j = 1 ∨ j = 2 := by omega
  rcases this with rfl | rfl | rfl <;> (rw [getLsbD_encodeMri]; simp)

@[simp] theorem off_encodeMri (op acc : BitVec 3) (i z : Bool) (off : BitVec 8) : Decode.off (encodeMri op acc i z off) = off := by
  refine BitVec.eq_of_getLsbD_eq fun j hj => ?_
  simp only [Decode.off, BitVec.getLsbD_extractLsb', hj, decide_true, Bool.true_and]
  have : j = 0 ∨ j = 1 ∨ j = 2 ∨ j = 3 ∨ j = 4 ∨ j = 5 ∨ j = 6 ∨ j = 7 := by omega
  rcases this with rfl | rfl | rfl | rfl | rfl | rfl | rfl | rfl <;> (rw [getLsbD_encodeMri]; simp)

@[simp] theorem ind_encodeMri (op acc : BitVec 3) (i z : Bool) (off : BitVec 8) : Decode.ind (encodeMri op acc i z off) = i := by
  rw [Decode.ind, getLsbD_encodeMri]; simp

@[simp] theorem zero_encodeMri (op acc : BitVec 3) (i z : Bool) (off : BitVec 8) : Decode.zero (encodeMri op acc i z off) = z := by
  rw [Decode.zero, getLsbD_encodeMri]; simp

@[simp] theorem op_encodeGroup1 (acc : BitVec 3) (cla cll cma cml : Bool) (rot : BitVec 3) (iac : Bool) : Decode.op (encodeGroup1 acc cla cll cma cml rot iac) = 7#3 := by
  refine BitVec.eq_of_getLsbD_eq fun j hj => ?_
  simp only [Decode.op, BitVec.getLsbD_extractLsb', hj, decide_true, Bool.true_and]
  have : j = 0 ∨ j = 1 ∨ j = 2 := by omega
  rcases this with rfl | rfl | rfl <;> (rw [getLsbD_encodeGroup1 _ _ _ _ _ _ _ (by decide)]; simp)

@[simp] theorem acc_encodeGroup1 (acc : BitVec 3) (cla cll cma cml : Bool) (rot : BitVec 3) (iac : Bool) : Decode.acc (encodeGroup1 acc cla cll cma cml rot iac) = acc := by
  refine BitVec.eq_of_getLsbD_eq fun j hj => ?_
  simp only [Decode.acc, BitVec.getLsbD_extractLsb', hj, decide_true, Bool.true_and]
  have : j = 0 ∨ j = 1 ∨ j = 2 := by omega
  rcases this with rfl | rfl | rfl <;> (rw [getLsbD_encodeGroup1 _ _ _ _ _ _ _ (by decide)]; simp)

@[simp] theorem grp_encodeGroup1 (acc : BitVec 3) (cla cll cma cml : Bool) (rot : BitVec 3) (iac : Bool) : Decode.grp (encodeGroup1 acc cla cll cma cml rot iac) = 0#2 := by
  refine BitVec.eq_of_getLsbD_eq fun j hj => ?_
  simp only [Decode.grp, BitVec.getLsbD_extractLsb', hj, decide_true, Bool.true_and]
  have : j = 0 ∨ j = 1 := by omega
  rcases this with rfl | rfl <;> (rw [getLsbD_encodeGroup1 _ _ _ _ _ _ _ (by decide)]; simp)

@[simp] theorem rotField_encodeGroup1 (acc : BitVec 3) (cla cll cma cml : Bool) (rot : BitVec 3) (iac : Bool) : Decode.rotField (encodeGroup1 acc cla cll cma cml rot iac) = rot := by
  refine BitVec.eq_of_getLsbD_eq fun j hj => ?_
  simp only [Decode.rotField, BitVec.getLsbD_extractLsb', hj, decide_true, Bool.true_and]
  have : j = 0 ∨ j = 1 ∨ j = 2 := by omega
  rcases this with rfl | rfl | rfl <;> (rw [getLsbD_encodeGroup1 _ _ _ _ _ _ _ (by decide)]; simp)

@[simp] theorem op_encodeGroup2 (acc : BitVec 3) (cla t6 t5 t4 s osr hlt : Bool) : Decode.op (encodeGroup2 acc cla t6 t5 t4 s osr hlt) = 7#3 := by
  refine BitVec.eq_of_getLsbD_eq fun j hj => ?_
  simp only [Decode.op, BitVec.getLsbD_extractLsb', hj, decide_true, Bool.true_and]
  have : j = 0 ∨ j = 1 ∨ j = 2 := by omega
  rcases this with rfl | rfl | rfl <;> (rw [getLsbD_encodeGroup2 _ _ _ _ _ _ _ _ (by decide)]; simp)

@[simp] theorem acc_encodeGroup2 (acc : BitVec 3) (cla t6 t5 t4 s osr hlt : Bool) : Decode.acc (encodeGroup2 acc cla t6 t5 t4 s osr hlt) = acc := by
  refine BitVec.eq_of_getLsbD_eq fun j hj => ?_
  simp only [Decode.acc, BitVec.getLsbD_extractLsb', hj, decide_true, Bool.true_and]
  have : j = 0 ∨ j = 1 ∨ j = 2 := by omega
  rcases this with rfl | rfl | rfl <;> (rw [getLsbD_encodeGroup2 _ _ _ _ _ _ _ _ (by decide)]; simp)

@[simp] theorem grp_encodeGroup2 (acc : BitVec 3) (cla t6 t5 t4 s osr hlt : Bool) : Decode.grp (encodeGroup2 acc cla t6 t5 t4 s osr hlt) = 1#2 := by
  refine BitVec.eq_of_getLsbD_eq fun j hj => ?_
  simp only [Decode.grp, BitVec.getLsbD_extractLsb', hj, decide_true, Bool.true_and]
  have : j = 0 ∨ j = 1 := by omega
  rcases this with rfl | rfl <;> (rw [getLsbD_encodeGroup2 _ _ _ _ _ _ _ _ (by decide)]; simp)

@[simp] theorem op_encodeGroup3R (d : BitVec 3) (op3 : BitVec 4) (bit3 : Bool) (s : BitVec 3) : Decode.op (encodeGroup3R d op3 bit3 s) = 7#3 := by
  refine BitVec.eq_of_getLsbD_eq fun j hj => ?_
  simp only [Decode.op, BitVec.getLsbD_extractLsb', hj, decide_true, Bool.true_and]
  have : j = 0 ∨ j = 1 ∨ j = 2 := by omega
  rcases this with rfl | rfl | rfl <;> (rw [getLsbD_encodeGroup3R]; simp)

@[simp] theorem acc_encodeGroup3R (d : BitVec 3) (op3 : BitVec 4) (bit3 : Bool) (s : BitVec 3) : Decode.acc (encodeGroup3R d op3 bit3 s) = d := by
  refine BitVec.eq_of_getLsbD_eq fun j hj => ?_
  simp only [Decode.acc, BitVec.getLsbD_extractLsb', hj, decide_true, Bool.true_and]
  have : j = 0 ∨ j = 1 ∨ j = 2 := by omega
  rcases this with rfl | rfl | rfl <;> (rw [getLsbD_encodeGroup3R]; simp)

@[simp] theorem grp_encodeGroup3R (d : BitVec 3) (op3 : BitVec 4) (bit3 : Bool) (s : BitVec 3) : Decode.grp (encodeGroup3R d op3 bit3 s) = 2#2 := by
  refine BitVec.eq_of_getLsbD_eq fun j hj => ?_
  simp only [Decode.grp, BitVec.getLsbD_extractLsb', hj, decide_true, Bool.true_and]
  have : j = 0 ∨ j = 1 := by omega
  rcases this with rfl | rfl <;> (rw [getLsbD_encodeGroup3R]; simp)

@[simp] theorem op3_encodeGroup3R (d : BitVec 3) (op3 : BitVec 4) (bit3 : Bool) (s : BitVec 3) : Decode.op3 (encodeGroup3R d op3 bit3 s) = op3 := by
  refine BitVec.eq_of_getLsbD_eq fun j hj => ?_
  simp only [Decode.op3, BitVec.getLsbD_extractLsb', hj, decide_true, Bool.true_and]
  have : j = 0 ∨ j = 1 ∨ j = 2 ∨ j = 3 := by omega
  rcases this with rfl | rfl | rfl | rfl <;> (rw [getLsbD_encodeGroup3R]; simp)

@[simp] theorem fn_encodeGroup3R (d : BitVec 3) (op3 : BitVec 4) (bit3 : Bool) (s : BitVec 3) : Decode.fn (encodeGroup3R d op3 bit3 s) = s := by
  refine BitVec.eq_of_getLsbD_eq fun j hj => ?_
  simp only [Decode.fn, BitVec.getLsbD_extractLsb', hj, decide_true, Bool.true_and]
  have : j = 0 ∨ j = 1 ∨ j = 2 := by omega
  rcases this with rfl | rfl | rfl <;> (rw [getLsbD_encodeGroup3R]; simp)

@[simp] theorem op_encodeGroup3I (d : BitVec 3) (op3 n : BitVec 4) : Decode.op (encodeGroup3I d op3 n) = 7#3 := by
  refine BitVec.eq_of_getLsbD_eq fun j hj => ?_
  simp only [Decode.op, BitVec.getLsbD_extractLsb', hj, decide_true, Bool.true_and]
  have : j = 0 ∨ j = 1 ∨ j = 2 := by omega
  rcases this with rfl | rfl | rfl <;> (rw [getLsbD_encodeGroup3I]; simp)

@[simp] theorem acc_encodeGroup3I (d : BitVec 3) (op3 n : BitVec 4) : Decode.acc (encodeGroup3I d op3 n) = d := by
  refine BitVec.eq_of_getLsbD_eq fun j hj => ?_
  simp only [Decode.acc, BitVec.getLsbD_extractLsb', hj, decide_true, Bool.true_and]
  have : j = 0 ∨ j = 1 ∨ j = 2 := by omega
  rcases this with rfl | rfl | rfl <;> (rw [getLsbD_encodeGroup3I]; simp)

@[simp] theorem grp_encodeGroup3I (d : BitVec 3) (op3 n : BitVec 4) : Decode.grp (encodeGroup3I d op3 n) = 3#2 := by
  refine BitVec.eq_of_getLsbD_eq fun j hj => ?_
  simp only [Decode.grp, BitVec.getLsbD_extractLsb', hj, decide_true, Bool.true_and]
  have : j = 0 ∨ j = 1 := by omega
  rcases this with rfl | rfl <;> (rw [getLsbD_encodeGroup3I]; simp)

@[simp] theorem op3_encodeGroup3I (d : BitVec 3) (op3 n : BitVec 4) : Decode.op3 (encodeGroup3I d op3 n) = op3 := by
  refine BitVec.eq_of_getLsbD_eq fun j hj => ?_
  simp only [Decode.op3, BitVec.getLsbD_extractLsb', hj, decide_true, Bool.true_and]
  have : j = 0 ∨ j = 1 ∨ j = 2 ∨ j = 3 := by omega
  rcases this with rfl | rfl | rfl | rfl <;> (rw [getLsbD_encodeGroup3I]; simp)

@[simp] theorem cnt_encodeGroup3I (d : BitVec 3) (op3 n : BitVec 4) : Decode.cnt (encodeGroup3I d op3 n) = n := by
  refine BitVec.eq_of_getLsbD_eq fun j hj => ?_
  simp only [Decode.cnt, BitVec.getLsbD_extractLsb', hj, decide_true, Bool.true_and]
  have : j = 0 ∨ j = 1 ∨ j = 2 ∨ j = 3 := by omega
  rcases this with rfl | rfl | rfl | rfl <;> (rw [getLsbD_encodeGroup3I]; simp)

end Sys2Proof
end

