-- ==== Sys2Proof/Laws/State.lean ====
section
/-! SUPPORT. Each field after each named update of State: true by definition, for simp. -/

namespace Sys2Proof.Machine

@[simp] theorem State.x_setX (s : State) (i j : BitVec 4) (v : Word) :
    (s.setX i v).x j = if i = j then v else s.x j := by
  simp [State.x, State.setX, Vector.getElem_set, BitVec.toNat_inj]

theorem State.x_setX_same (s : State) (i : BitVec 4) (v : Word) : (s.setX i v).x i = v := by simp

theorem State.x_setX_ne (s : State) (i j : BitVec 4) (v : Word) (h : i ≠ j) : (s.setX i v).x j = s.x j := by simp [h]

/-- Register files that read alike are equal. -/
theorem State.regs_ext {s t : State} (h : ∀ i, s.x i = t.x i) : s.regs = t.regs := by
  refine Vector.ext fun i hi => ?_
  have := h (BitVec.ofNat 4 i)
  simpa [State.x, Nat.mod_eq_of_lt hi] using this

theorem State.x_eq_of_regs {s t : State} (h : s.regs = t.regs) (i : BitVec 4) : s.x i = t.x i := by simp [State.x, h]

@[simp] theorem State.zp_setX (s : State) (i : BitVec 4) (v : Word) : (s.setX i v).zp = s.zp := rfl
@[simp] theorem State.mem_setX (s : State) (i : BitVec 4) (v : Word) : (s.setX i v).mem = s.mem := rfl
@[simp] theorem State.sr_setX (s : State) (i : BitVec 4) (v : Word) : (s.setX i v).sr = s.sr := rfl
@[simp] theorem State.ea_setX (s : State) (i : BitVec 4) (v : Word) : (s.setX i v).ea = s.ea := rfl
@[simp] theorem State.wb_setX (s : State) (i : BitVec 4) (v : Word) : (s.setX i v).wb = s.wb := rfl
@[simp] theorem State.mcheck_setX (s : State) (i : BitVec 4) (v : Word) : (s.setX i v).mcheck = s.mcheck := rfl
@[simp] theorem State.mailbox_setX (s : State) (i : BitVec 4) (v : Word) : (s.setX i v).mailbox = s.mailbox := rfl
@[simp] theorem State.outAgent_setX (s : State) (i : BitVec 4) (v : Word) : (s.setX i v).outAgent = s.outAgent := rfl
@[simp] theorem State.inAgent_setX (s : State) (i : BitVec 4) (v : Word) : (s.setX i v).inAgent = s.inAgent := rfl
@[simp] theorem State.out_setX (s : State) (i : BitVec 4) (v : Word) : (s.setX i v).out = s.out := rfl
@[simp] theorem State.running_setX (s : State) (i : BitVec 4) (v : Word) : (s.setX i v).running = s.running := rfl
@[simp] theorem State.cancel_setX (s : State) (i : BitVec 4) (v : Word) : (s.setX i v).cancel = s.cancel := rfl
@[simp] theorem State.count_setX (s : State) (i : BitVec 4) (v : Word) : (s.setX i v).count = s.count := rfl
@[simp] theorem State.pages_setX (s : State) (i : BitVec 4) (v : Word) : (s.setX i v).pages = s.pages := rfl
@[simp] theorem State.attns_setX (s : State) (i : BitVec 4) (v : Word) : (s.setX i v).attns = s.attns := rfl
@[simp] theorem State.params_setX (s : State) (i : BitVec 4) (v : Word) : (s.setX i v).params = s.params := rfl
@[simp] theorem State.draws_setX (s : State) (i : BitVec 4) (v : Word) : (s.setX i v).draws = s.draws := rfl
@[simp] theorem State.turns_setX (s : State) (i : BitVec 4) (v : Word) : (s.setX i v).turns = s.turns := rfl
@[simp] theorem State.answers_setX (s : State) (i : BitVec 4) (v : Word) : (s.setX i v).answers = s.answers := rfl

/-! A register after an update of another field. -/

@[simp] theorem State.x_with_zp (s : State) (v : Memory) (i : BitVec 4) :
    ({ s with zp := v } : State).x i = s.x i := rfl
@[simp] theorem State.x_with_mem (s : State) (v : Memory) (i : BitVec 4) :
    ({ s with mem := v } : State).x i = s.x i := rfl
@[simp] theorem State.x_with_sr (s : State) (v : Word) (i : BitVec 4) :
    ({ s with sr := v } : State).x i = s.x i := rfl
@[simp] theorem State.x_with_ea (s : State) (v : Addr) (i : BitVec 4) :
    ({ s with ea := v } : State).x i = s.x i := rfl
@[simp] theorem State.x_with_wb (s : State) (v : Word) (i : BitVec 4) :
    ({ s with wb := v } : State).x i = s.x i := rfl
@[simp] theorem State.x_with_mcheck (s : State) (v : Option MachineCheck) (i : BitVec 4) :
    ({ s with mcheck := v } : State).x i = s.x i := rfl
@[simp] theorem State.x_with_mailbox (s : State) (v : Mailbox) (i : BitVec 4) :
    ({ s with mailbox := v } : State).x i = s.x i := rfl
@[simp] theorem State.x_with_outAgent (s : State) (v : Agent) (i : BitVec 4) :
    ({ s with outAgent := v } : State).x i = s.x i := rfl
@[simp] theorem State.x_with_inAgent (s : State) (v : Agent) (i : BitVec 4) :
    ({ s with inAgent := v } : State).x i = s.x i := rfl
@[simp] theorem State.x_with_out (s : State) (v : List Byte) (i : BitVec 4) :
    ({ s with out := v } : State).x i = s.x i := rfl
@[simp] theorem State.x_with_running (s : State) (v : Bool) (i : BitVec 4) :
    ({ s with running := v } : State).x i = s.x i := rfl
@[simp] theorem State.x_with_cancel (s : State) (v : Bool) (i : BitVec 4) :
    ({ s with cancel := v } : State).x i = s.x i := rfl
@[simp] theorem State.x_with_count (s : State) (v : Nat) (i : BitVec 4) :
    ({ s with count := v } : State).x i = s.x i := rfl
@[simp] theorem State.x_with_pages (s : State) (v : Vector (Option PageUnit) 256) (i : BitVec 4) :
    ({ s with pages := v } : State).x i = s.x i := rfl
@[simp] theorem State.x_with_attns (s : State) (v : Vector (Option AttnUnit) 256) (i : BitVec 4) :
    ({ s with attns := v } : State).x i = s.x i := rfl
@[simp] theorem State.x_with_draws (s : State) (v : Nat) (i : BitVec 4) :
    ({ s with draws := v } : State).x i = s.x i := rfl
@[simp] theorem State.x_with_turns (s : State) (v : List Turn) (i : BitVec 4) :
    ({ s with turns := v } : State).x i = s.x i := rfl
@[simp] theorem State.x_with_answers (s : State) (v : List (Option Byte)) (i : BitVec 4) :
    ({ s with answers := v } : State).x i = s.x i := rfl

/-! The PSW and the PC under the register updates. -/

@[simp] theorem State.psw_setPsw (s : State) (v : Word) : (s.setPsw v).psw = v := by simp [State.psw, State.setPsw]
@[simp] theorem State.pc_setPc (s : State) (v : Word) : (s.setPc v).pc = v := by simp [State.pc, State.setPc]
@[simp] theorem State.pc_setPsw (s : State) (v : Word) : (s.setPsw v).pc = s.pc := by simp [State.pc, State.setPsw]
@[simp] theorem State.psw_setPc (s : State) (v : Word) : (s.setPc v).psw = s.psw := by simp [State.psw, State.setPc]

theorem acSlot_ne_pc : ∀ acc : BitVec 3, acSlot acc ≠ 15#4 := by decide

theorem acSlot_ne_psw : ∀ acc : BitVec 3, acc ≠ 7#3 → acSlot acc ≠ 7#4 := by decide

theorem acSlot_inj : ∀ a b : BitVec 3, acSlot a = acSlot b ↔ a = b := by decide

@[simp] theorem State.pc_setAc (s : State) (acc : BitVec 3) (v : Word) : (s.setAc acc v).pc = s.pc := by
  simp [State.pc, State.setAc, acSlot_ne_pc]

theorem State.psw_setAc (s : State) (acc : BitVec 3) (v : Word) (h : acc ≠ 7#3) : (s.setAc acc v).psw = s.psw := by
  simp [State.psw, State.setAc, acSlot_ne_psw acc h]

@[simp] theorem State.ac_setAc (s : State) (a b : BitVec 3) (v : Word) :
    (s.setAc a v).ac b = if a = b then v else s.ac b := by
  simp [State.ac, State.setAc, acSlot_inj]

@[simp] theorem State.ac_setPc (s : State) (v : Word) (a : BitVec 3) : (s.setPc v).ac a = s.ac a := by
  simp [State.ac, State.setPc, (acSlot_ne_pc a).symm]

theorem State.ac_setPsw (s : State) (v : Word) (a : BitVec 3) (h : a ≠ 7#3) : (s.setPsw v).ac a = s.ac a := by
  simp [State.ac, State.setPsw, (acSlot_ne_psw a h).symm]

end Sys2Proof.Machine
end

