-- ==== Sys2Proof/Laws/Flags.lean ====
section
/-! SUPPORT. The PSW's fields: reading after writing the same field and another one (`10_state.md` R24). -/

namespace Sys2Proof.Machine

theorem getLsbD_getField (w : Word) (lo n i : Nat) (h : lo + n ≤ 16) :
    (getField w lo n).getLsbD i = (decide (i < n) && w.getLsbD (lo + i)) := by
  simp only [getField, fieldMask, BitVec.getLsbD_setWidth, BitVec.getLsbD_ushiftRight, BitVec.getLsbD_and,
    BitVec.getLsbD_shiftLeft, BitVec.getLsbD_allOnes]
  by_cases hi : i < n
  · have h1 : lo + i < 16 := by omega
    have h2 : i < 16 := by omega
    simp [hi, h1, h2]
  · simp [hi]

theorem getLsbD_putField (w : Word) (lo n : Nat) (v : BitVec n) (i : Nat) (h : lo + n ≤ 16) :
    (putField w lo n v).getLsbD i = if lo ≤ i ∧ i < lo + n then v.getLsbD (i - lo) else w.getLsbD i := by
  simp only [putField, fieldMask, BitVec.getLsbD_or, BitVec.getLsbD_and, BitVec.getLsbD_not, BitVec.getLsbD_setWidth,
    BitVec.getLsbD_shiftLeft, BitVec.getLsbD_allOnes]
  by_cases hi : i < 16
  · by_cases hl : lo ≤ i
    · by_cases hh : i < lo + n
      · have h1 : i - lo < n := by omega
        have h2 : ¬ i < lo := by omega
        have h3 : i - lo < 16 := by omega
        simp [hi, hl, hh, h1, h2, h3]
      · have h1 : ¬ i - lo < n := by omega
        simp [hi, hl, hh, h1]
    · have h2 : i < lo := by omega
      simp [hi, hl, h2]
  · have hb : w.getLsbD i = false := BitVec.getLsbD_of_ge w i (by omega)
    have h1 : ¬ (lo ≤ i ∧ i < lo + n) := by omega
    simp [hi, hb, h1]

theorem getField_putField_same (w : Word) (lo n : Nat) (v : BitVec n) (h : lo + n ≤ 16) :
    getField (putField w lo n v) lo n = v := by
  refine BitVec.eq_of_getLsbD_eq fun i hi => ?_
  rw [getLsbD_getField _ _ _ _ h, getLsbD_putField _ _ _ _ _ h]
  have h1 : lo ≤ lo + i ∧ lo + i < lo + n := by omega
  have h2 : lo + i - lo = i := by omega
  simp [hi]

theorem getField_putField_other (w : Word) (lo n lo' n' : Nat) (v : BitVec n) (h : lo + n ≤ 16) (h' : lo' + n' ≤ 16)
    (d : lo' + n' ≤ lo ∨ lo + n ≤ lo') : getField (putField w lo n v) lo' n' = getField w lo' n' := by
  refine BitVec.eq_of_getLsbD_eq fun i hi => ?_
  rw [getLsbD_getField _ _ _ _ h', getLsbD_getField _ _ _ _ h', getLsbD_putField _ _ _ _ _ h]
  have h1 : ¬ (lo ≤ lo' + i ∧ lo' + i < lo + n) := by omega
  simp [h1]

theorem ofBool_beq_one (b : Bool) : (BitVec.ofBool b == 1#1) = b := by cases b <;> decide

theorem getFlag_putFlag_same (w : Word) (lo : Nat) (b : Bool) (h : lo + 1 ≤ 16) : getFlag (putFlag w lo b) lo = b := by
  rw [getFlag, putFlag, getField_putField_same _ _ _ _ h, ofBool_beq_one]

theorem getFlag_putFlag_other (w : Word) (lo lo' : Nat) (b : Bool) (h : lo + 1 ≤ 16) (h' : lo' + 1 ≤ 16)
    (d : lo' + 1 ≤ lo ∨ lo + 1 ≤ lo') : getFlag (putFlag w lo b) lo' = getFlag w lo' := by
  rw [getFlag, putFlag, getField_putField_other _ _ _ _ _ _ h h' d, getFlag]

theorem getFlag_putField_other (w : Word) (lo n lo' : Nat) (v : BitVec n) (h : lo + n ≤ 16) (h' : lo' + 1 ≤ 16)
    (d : lo' + 1 ≤ lo ∨ lo + n ≤ lo') : getFlag (putField w lo n v) lo' = getFlag w lo' := by
  rw [getFlag, getField_putField_other _ _ _ _ _ _ h h' d, getFlag]

theorem getField_putFlag_other (w : Word) (lo lo' n' : Nat) (b : Bool) (h : lo + 1 ≤ 16) (h' : lo' + n' ≤ 16)
    (d : lo' + n' ≤ lo ∨ lo + 1 ≤ lo') : getField (putFlag w lo b) lo' n' = getField w lo' n' := by
  rw [putFlag, getField_putField_other _ _ _ _ _ _ h h' d]

theorem getFlag_eq_getLsbD (w : Word) (lo : Nat) (h : lo + 1 ≤ 16) : getFlag w lo = w.getLsbD lo := by
  have e : ∀ b : BitVec 1, (b == 1#1) = b.getLsbD 0 := by decide
  rw [getFlag, e, getLsbD_getField _ _ _ _ h]; simp

/-! Every field after every setter. -/

@[simp] theorem State.lk_setLk (s : State) (v : Bool) : (s.setLk v).lk = v := by
  simp [State.lk, State.setLk, getFlag_putFlag_same]
@[simp] theorem State.lk_setOp (s : State) (v : Bool) : (s.setOp v).lk = s.lk := by
  simp [State.lk, State.setOp, getFlag_putFlag_other]
@[simp] theorem State.lk_setIo (s : State) (v : Bool) : (s.setIo v).lk = s.lk := by
  simp [State.lk, State.setIo, getFlag_putFlag_other]
@[simp] theorem State.lk_setEx (s : State) (v : Bool) : (s.setEx v).lk = s.lk := by
  simp [State.lk, State.setEx, getFlag_putFlag_other]
@[simp] theorem State.lk_setId (s : State) (v : Bool) : (s.setId v).lk = s.lk := by
  simp [State.lk, State.setId, getFlag_putFlag_other]
@[simp] theorem State.lk_setCycle (s : State) (v : BitVec 4) : (s.setCycle v).lk = s.lk := by
  simp [State.lk, State.setCycle, getFlag_putField_other]
@[simp] theorem State.lk_setTmp (s : State) (v : BitVec 4) : (s.setTmp v).lk = s.lk := by
  simp [State.lk, State.setTmp, getFlag_putField_other]
@[simp] theorem State.lk_setAcc (s : State) (v : BitVec 3) : (s.setAcc v).lk = s.lk := by
  simp [State.lk, State.setAcc, getFlag_putField_other]
@[simp] theorem State.op_setLk (s : State) (v : Bool) : (s.setLk v).op = s.op := by
  simp [State.op, State.setLk, getFlag_putFlag_other]
@[simp] theorem State.op_setOp (s : State) (v : Bool) : (s.setOp v).op = v := by
  simp [State.op, State.setOp, getFlag_putFlag_same]
@[simp] theorem State.op_setIo (s : State) (v : Bool) : (s.setIo v).op = s.op := by
  simp [State.op, State.setIo, getFlag_putFlag_other]
@[simp] theorem State.op_setEx (s : State) (v : Bool) : (s.setEx v).op = s.op := by
  simp [State.op, State.setEx, getFlag_putFlag_other]
@[simp] theorem State.op_setId (s : State) (v : Bool) : (s.setId v).op = s.op := by
  simp [State.op, State.setId, getFlag_putFlag_other]
@[simp] theorem State.op_setCycle (s : State) (v : BitVec 4) : (s.setCycle v).op = s.op := by
  simp [State.op, State.setCycle, getFlag_putField_other]
@[simp] theorem State.op_setTmp (s : State) (v : BitVec 4) : (s.setTmp v).op = s.op := by
  simp [State.op, State.setTmp, getFlag_putField_other]
@[simp] theorem State.op_setAcc (s : State) (v : BitVec 3) : (s.setAcc v).op = s.op := by
  simp [State.op, State.setAcc, getFlag_putField_other]
@[simp] theorem State.io_setLk (s : State) (v : Bool) : (s.setLk v).io = s.io := by
  simp [State.io, State.setLk, getFlag_putFlag_other]
@[simp] theorem State.io_setOp (s : State) (v : Bool) : (s.setOp v).io = s.io := by
  simp [State.io, State.setOp, getFlag_putFlag_other]
@[simp] theorem State.io_setIo (s : State) (v : Bool) : (s.setIo v).io = v := by
  simp [State.io, State.setIo, getFlag_putFlag_same]
@[simp] theorem State.io_setEx (s : State) (v : Bool) : (s.setEx v).io = s.io := by
  simp [State.io, State.setEx, getFlag_putFlag_other]
@[simp] theorem State.io_setId (s : State) (v : Bool) : (s.setId v).io = s.io := by
  simp [State.io, State.setId, getFlag_putFlag_other]
@[simp] theorem State.io_setCycle (s : State) (v : BitVec 4) : (s.setCycle v).io = s.io := by
  simp [State.io, State.setCycle, getFlag_putField_other]
@[simp] theorem State.io_setTmp (s : State) (v : BitVec 4) : (s.setTmp v).io = s.io := by
  simp [State.io, State.setTmp, getFlag_putField_other]
@[simp] theorem State.io_setAcc (s : State) (v : BitVec 3) : (s.setAcc v).io = s.io := by
  simp [State.io, State.setAcc, getFlag_putField_other]
@[simp] theorem State.ex_setLk (s : State) (v : Bool) : (s.setLk v).ex = s.ex := by
  simp [State.ex, State.setLk, getFlag_putFlag_other]
@[simp] theorem State.ex_setOp (s : State) (v : Bool) : (s.setOp v).ex = s.ex := by
  simp [State.ex, State.setOp, getFlag_putFlag_other]
@[simp] theorem State.ex_setIo (s : State) (v : Bool) : (s.setIo v).ex = s.ex := by
  simp [State.ex, State.setIo, getFlag_putFlag_other]
@[simp] theorem State.ex_setEx (s : State) (v : Bool) : (s.setEx v).ex = v := by
  simp [State.ex, State.setEx, getFlag_putFlag_same]
@[simp] theorem State.ex_setId (s : State) (v : Bool) : (s.setId v).ex = s.ex := by
  simp [State.ex, State.setId, getFlag_putFlag_other]
@[simp] theorem State.ex_setCycle (s : State) (v : BitVec 4) : (s.setCycle v).ex = s.ex := by
  simp [State.ex, State.setCycle, getFlag_putField_other]
@[simp] theorem State.ex_setTmp (s : State) (v : BitVec 4) : (s.setTmp v).ex = s.ex := by
  simp [State.ex, State.setTmp, getFlag_putField_other]
@[simp] theorem State.ex_setAcc (s : State) (v : BitVec 3) : (s.setAcc v).ex = s.ex := by
  simp [State.ex, State.setAcc, getFlag_putField_other]
@[simp] theorem State.id_setLk (s : State) (v : Bool) : (s.setLk v).id = s.id := by
  simp [State.id, State.setLk, getFlag_putFlag_other]
@[simp] theorem State.id_setOp (s : State) (v : Bool) : (s.setOp v).id = s.id := by
  simp [State.id, State.setOp, getFlag_putFlag_other]
@[simp] theorem State.id_setIo (s : State) (v : Bool) : (s.setIo v).id = s.id := by
  simp [State.id, State.setIo, getFlag_putFlag_other]
@[simp] theorem State.id_setEx (s : State) (v : Bool) : (s.setEx v).id = s.id := by
  simp [State.id, State.setEx, getFlag_putFlag_other]
@[simp] theorem State.id_setId (s : State) (v : Bool) : (s.setId v).id = v := by
  simp [State.id, State.setId, getFlag_putFlag_same]
@[simp] theorem State.id_setCycle (s : State) (v : BitVec 4) : (s.setCycle v).id = s.id := by
  simp [State.id, State.setCycle, getFlag_putField_other]
@[simp] theorem State.id_setTmp (s : State) (v : BitVec 4) : (s.setTmp v).id = s.id := by
  simp [State.id, State.setTmp, getFlag_putField_other]
@[simp] theorem State.id_setAcc (s : State) (v : BitVec 3) : (s.setAcc v).id = s.id := by
  simp [State.id, State.setAcc, getFlag_putField_other]
@[simp] theorem State.cycle_setLk (s : State) (v : Bool) : (s.setLk v).cycle = s.cycle := by
  simp [State.cycle, State.setLk, getField_putFlag_other]
@[simp] theorem State.cycle_setOp (s : State) (v : Bool) : (s.setOp v).cycle = s.cycle := by
  simp [State.cycle, State.setOp, getField_putFlag_other]
@[simp] theorem State.cycle_setIo (s : State) (v : Bool) : (s.setIo v).cycle = s.cycle := by
  simp [State.cycle, State.setIo, getField_putFlag_other]
@[simp] theorem State.cycle_setEx (s : State) (v : Bool) : (s.setEx v).cycle = s.cycle := by
  simp [State.cycle, State.setEx, getField_putFlag_other]
@[simp] theorem State.cycle_setId (s : State) (v : Bool) : (s.setId v).cycle = s.cycle := by
  simp [State.cycle, State.setId, getField_putFlag_other]
@[simp] theorem State.cycle_setCycle (s : State) (v : BitVec 4) : (s.setCycle v).cycle = v := by
  simp [State.cycle, State.setCycle, getField_putField_same]
@[simp] theorem State.cycle_setTmp (s : State) (v : BitVec 4) : (s.setTmp v).cycle = s.cycle := by
  simp [State.cycle, State.setTmp, getField_putField_other]
@[simp] theorem State.cycle_setAcc (s : State) (v : BitVec 3) : (s.setAcc v).cycle = s.cycle := by
  simp [State.cycle, State.setAcc, getField_putField_other]
@[simp] theorem State.tmp_setLk (s : State) (v : Bool) : (s.setLk v).tmp = s.tmp := by
  simp [State.tmp, State.setLk, getField_putFlag_other]
@[simp] theorem State.tmp_setOp (s : State) (v : Bool) : (s.setOp v).tmp = s.tmp := by
  simp [State.tmp, State.setOp, getField_putFlag_other]
@[simp] theorem State.tmp_setIo (s : State) (v : Bool) : (s.setIo v).tmp = s.tmp := by
  simp [State.tmp, State.setIo, getField_putFlag_other]
@[simp] theorem State.tmp_setEx (s : State) (v : Bool) : (s.setEx v).tmp = s.tmp := by
  simp [State.tmp, State.setEx, getField_putFlag_other]
@[simp] theorem State.tmp_setId (s : State) (v : Bool) : (s.setId v).tmp = s.tmp := by
  simp [State.tmp, State.setId, getField_putFlag_other]
@[simp] theorem State.tmp_setCycle (s : State) (v : BitVec 4) : (s.setCycle v).tmp = s.tmp := by
  simp [State.tmp, State.setCycle, getField_putField_other]
@[simp] theorem State.tmp_setTmp (s : State) (v : BitVec 4) : (s.setTmp v).tmp = v := by
  simp [State.tmp, State.setTmp, getField_putField_same]
@[simp] theorem State.tmp_setAcc (s : State) (v : BitVec 3) : (s.setAcc v).tmp = s.tmp := by
  simp [State.tmp, State.setAcc, getField_putField_other]
@[simp] theorem State.acc_setLk (s : State) (v : Bool) : (s.setLk v).acc = s.acc := by
  simp [State.acc, State.setLk, getField_putFlag_other]
@[simp] theorem State.acc_setOp (s : State) (v : Bool) : (s.setOp v).acc = s.acc := by
  simp [State.acc, State.setOp, getField_putFlag_other]
@[simp] theorem State.acc_setIo (s : State) (v : Bool) : (s.setIo v).acc = s.acc := by
  simp [State.acc, State.setIo, getField_putFlag_other]
@[simp] theorem State.acc_setEx (s : State) (v : Bool) : (s.setEx v).acc = s.acc := by
  simp [State.acc, State.setEx, getField_putFlag_other]
@[simp] theorem State.acc_setId (s : State) (v : Bool) : (s.setId v).acc = s.acc := by
  simp [State.acc, State.setId, getField_putFlag_other]
@[simp] theorem State.acc_setCycle (s : State) (v : BitVec 4) : (s.setCycle v).acc = s.acc := by
  simp [State.acc, State.setCycle, getField_putField_other]
@[simp] theorem State.acc_setTmp (s : State) (v : BitVec 4) : (s.setTmp v).acc = s.acc := by
  simp [State.acc, State.setTmp, getField_putField_other]
@[simp] theorem State.acc_setAcc (s : State) (v : BitVec 3) : (s.setAcc v).acc = v := by
  simp [State.acc, State.setAcc, getField_putField_same]

/-! The fields after a register update that is not of the PSW, and the registers after a field update. -/

@[simp] theorem State.lk_setPc (s : State) (v : Word) : (s.setPc v).lk = s.lk := by simp [State.lk]
theorem State.lk_setAc (s : State) (a : BitVec 3) (v : Word) (h : a ≠ 7#3) : (s.setAc a v).lk = s.lk := by
  simp [State.lk, State.psw_setAc s a v h]
@[simp] theorem State.pc_setLk (s : State) (v : Bool) : (s.setLk v).pc = s.pc := by simp [State.setLk]
theorem State.ac_setLk (s : State) (v : Bool) (a : BitVec 3) (h : a ≠ 7#3) : (s.setLk v).ac a = s.ac a := by
  simp [State.setLk, State.ac_setPsw s _ a h]
theorem State.x_setLk (s : State) (v : Bool) (i : BitVec 4) (h : i ≠ 7#4) : (s.setLk v).x i = s.x i := by
  simp [State.setLk, State.setPsw, h.symm]
@[simp] theorem State.op_setPc (s : State) (v : Word) : (s.setPc v).op = s.op := by simp [State.op]
theorem State.op_setAc (s : State) (a : BitVec 3) (v : Word) (h : a ≠ 7#3) : (s.setAc a v).op = s.op := by
  simp [State.op, State.psw_setAc s a v h]
@[simp] theorem State.pc_setOp (s : State) (v : Bool) : (s.setOp v).pc = s.pc := by simp [State.setOp]
theorem State.ac_setOp (s : State) (v : Bool) (a : BitVec 3) (h : a ≠ 7#3) : (s.setOp v).ac a = s.ac a := by
  simp [State.setOp, State.ac_setPsw s _ a h]
theorem State.x_setOp (s : State) (v : Bool) (i : BitVec 4) (h : i ≠ 7#4) : (s.setOp v).x i = s.x i := by
  simp [State.setOp, State.setPsw, h.symm]
@[simp] theorem State.io_setPc (s : State) (v : Word) : (s.setPc v).io = s.io := by simp [State.io]
theorem State.io_setAc (s : State) (a : BitVec 3) (v : Word) (h : a ≠ 7#3) : (s.setAc a v).io = s.io := by
  simp [State.io, State.psw_setAc s a v h]
@[simp] theorem State.pc_setIo (s : State) (v : Bool) : (s.setIo v).pc = s.pc := by simp [State.setIo]
theorem State.ac_setIo (s : State) (v : Bool) (a : BitVec 3) (h : a ≠ 7#3) : (s.setIo v).ac a = s.ac a := by
  simp [State.setIo, State.ac_setPsw s _ a h]
theorem State.x_setIo (s : State) (v : Bool) (i : BitVec 4) (h : i ≠ 7#4) : (s.setIo v).x i = s.x i := by
  simp [State.setIo, State.setPsw, h.symm]
@[simp] theorem State.ex_setPc (s : State) (v : Word) : (s.setPc v).ex = s.ex := by simp [State.ex]
theorem State.ex_setAc (s : State) (a : BitVec 3) (v : Word) (h : a ≠ 7#3) : (s.setAc a v).ex = s.ex := by
  simp [State.ex, State.psw_setAc s a v h]
@[simp] theorem State.pc_setEx (s : State) (v : Bool) : (s.setEx v).pc = s.pc := by simp [State.setEx]
theorem State.ac_setEx (s : State) (v : Bool) (a : BitVec 3) (h : a ≠ 7#3) : (s.setEx v).ac a = s.ac a := by
  simp [State.setEx, State.ac_setPsw s _ a h]
theorem State.x_setEx (s : State) (v : Bool) (i : BitVec 4) (h : i ≠ 7#4) : (s.setEx v).x i = s.x i := by
  simp [State.setEx, State.setPsw, h.symm]
@[simp] theorem State.id_setPc (s : State) (v : Word) : (s.setPc v).id = s.id := by simp [State.id]
theorem State.id_setAc (s : State) (a : BitVec 3) (v : Word) (h : a ≠ 7#3) : (s.setAc a v).id = s.id := by
  simp [State.id, State.psw_setAc s a v h]
@[simp] theorem State.pc_setId (s : State) (v : Bool) : (s.setId v).pc = s.pc := by simp [State.setId]
theorem State.ac_setId (s : State) (v : Bool) (a : BitVec 3) (h : a ≠ 7#3) : (s.setId v).ac a = s.ac a := by
  simp [State.setId, State.ac_setPsw s _ a h]
theorem State.x_setId (s : State) (v : Bool) (i : BitVec 4) (h : i ≠ 7#4) : (s.setId v).x i = s.x i := by
  simp [State.setId, State.setPsw, h.symm]
@[simp] theorem State.cycle_setPc (s : State) (v : Word) : (s.setPc v).cycle = s.cycle := by simp [State.cycle]
theorem State.cycle_setAc (s : State) (a : BitVec 3) (v : Word) (h : a ≠ 7#3) : (s.setAc a v).cycle = s.cycle := by
  simp [State.cycle, State.psw_setAc s a v h]
@[simp] theorem State.pc_setCycle (s : State) (v : BitVec 4) : (s.setCycle v).pc = s.pc := by simp [State.setCycle]
theorem State.ac_setCycle (s : State) (v : BitVec 4) (a : BitVec 3) (h : a ≠ 7#3) : (s.setCycle v).ac a = s.ac a := by
  simp [State.setCycle, State.ac_setPsw s _ a h]
theorem State.x_setCycle (s : State) (v : BitVec 4) (i : BitVec 4) (h : i ≠ 7#4) : (s.setCycle v).x i = s.x i := by
  simp [State.setCycle, State.setPsw, h.symm]
@[simp] theorem State.tmp_setPc (s : State) (v : Word) : (s.setPc v).tmp = s.tmp := by simp [State.tmp]
theorem State.tmp_setAc (s : State) (a : BitVec 3) (v : Word) (h : a ≠ 7#3) : (s.setAc a v).tmp = s.tmp := by
  simp [State.tmp, State.psw_setAc s a v h]
@[simp] theorem State.pc_setTmp (s : State) (v : BitVec 4) : (s.setTmp v).pc = s.pc := by simp [State.setTmp]
theorem State.ac_setTmp (s : State) (v : BitVec 4) (a : BitVec 3) (h : a ≠ 7#3) : (s.setTmp v).ac a = s.ac a := by
  simp [State.setTmp, State.ac_setPsw s _ a h]
theorem State.x_setTmp (s : State) (v : BitVec 4) (i : BitVec 4) (h : i ≠ 7#4) : (s.setTmp v).x i = s.x i := by
  simp [State.setTmp, State.setPsw, h.symm]
@[simp] theorem State.acc_setPc (s : State) (v : Word) : (s.setPc v).acc = s.acc := by simp [State.acc]
theorem State.acc_setAc (s : State) (a : BitVec 3) (v : Word) (h : a ≠ 7#3) : (s.setAc a v).acc = s.acc := by
  simp [State.acc, State.psw_setAc s a v h]
@[simp] theorem State.pc_setAcc (s : State) (v : BitVec 3) : (s.setAcc v).pc = s.pc := by simp [State.setAcc]
theorem State.ac_setAcc (s : State) (v : BitVec 3) (a : BitVec 3) (h : a ≠ 7#3) : (s.setAcc v).ac a = s.ac a := by
  simp [State.setAcc, State.ac_setPsw s _ a h]
theorem State.x_setAcc (s : State) (v : BitVec 3) (i : BitVec 4) (h : i ≠ 7#4) : (s.setAcc v).x i = s.x i := by
  simp [State.setAcc, State.setPsw, h.symm]

/-! The whole PSW from its fields. -/

theorem packPsw_fields (w : Word) :
    packPsw (getFlag w 0) (getFlag w 1) (getFlag w 2) (getFlag w 3) (getFlag w 4) (getField w 5 4) (getField w 9 4)
      (getField w 13 3) = w := by
  refine BitVec.eq_of_getLsbD_eq fun i hi => ?_
  simp only [packPsw, BitVec.getLsbD_append, getFlag_eq_getLsbD _ _ (by decide : (0:Nat) + 1 ≤ 16),
    getFlag_eq_getLsbD _ _ (by decide : (1:Nat) + 1 ≤ 16), getFlag_eq_getLsbD _ _ (by decide : (2:Nat) + 1 ≤ 16),
    getFlag_eq_getLsbD _ _ (by decide : (3:Nat) + 1 ≤ 16), getFlag_eq_getLsbD _ _ (by decide : (4:Nat) + 1 ≤ 16),
    getLsbD_getField _ _ _ _ (by decide : (5:Nat) + 4 ≤ 16), getLsbD_getField _ _ _ _ (by decide : (9:Nat) + 4 ≤ 16),
    getLsbD_getField _ _ _ _ (by decide : (13:Nat) + 3 ≤ 16), BitVec.getLsbD_ofBool]
  have : i = 0 ∨ i = 1 ∨ i = 2 ∨ i = 3 ∨ i = 4 ∨ i = 5 ∨ i = 6 ∨ i = 7 ∨ i = 8 ∨ i = 9 ∨ i = 10 ∨ i = 11 ∨ i = 12 ∨
    i = 13 ∨ i = 14 ∨ i = 15 := by omega
  rcases this with h | h | h | h | h | h | h | h | h | h | h | h | h | h | h | h <;> subst h <;> simp

theorem State.psw_eq_pack (s : State) : s.psw = packPsw s.lk s.op s.io s.ex s.id s.cycle s.tmp s.acc :=
  (packPsw_fields s.psw).symm

end Sys2Proof.Machine
end

