-- ==== Sys2Proof/Laws/Memory.lean ====
section
/-! SUPPORT. Read after write, and that a write keeps the canonical form (`10_state.md` R47). -/

namespace Sys2Proof.Machine

theorem Memory.read_write (m : Memory) (a b : Nat) (v : Word) :
    Memory.read (Memory.write m a v) b = if a = b then some v else Memory.read m b := by
  induction m with
  | nil => simp [Memory.write, Memory.read]
  | cons c m ih =>
    obtain ⟨k, u⟩ := c
    simp only [Memory.write]
    by_cases h1 : a < k
    · simp [h1, Memory.read]
    · by_cases h2 : a = k
      · subst h2; by_cases h3 : a = b <;> simp [Memory.read, h3]
      · simp only [h1, h2, if_false, Memory.read, ih]
        by_cases h3 : k = b
        · have : ¬ a = b := by omega
          simp [h3, this]
        · simp [h3]

theorem Memory.wfFrom_mono {hi lo lo' : Nat} {m : Memory} (h : Memory.wfFrom hi lo m = true) (hl : lo' ≤ lo) :
    Memory.wfFrom hi lo' m = true := by
  cases m with
  | nil => rfl
  | cons c m =>
    simp only [Memory.wfFrom, Bool.and_eq_true, decide_eq_true_eq] at h ⊢
    exact ⟨⟨by omega, h.1.2⟩, h.2⟩

theorem Memory.wfFrom_write {hi lo : Nat} {m : Memory} (h : Memory.wfFrom hi lo m = true) (a : Nat) (v : Word)
    (hl : lo ≤ a) (hh : a < hi) : Memory.wfFrom hi lo (Memory.write m a v) = true := by
  induction m generalizing lo with
  | nil => simp [Memory.write, Memory.wfFrom, hl, hh]
  | cons c m ih =>
    obtain ⟨k, u⟩ := c
    simp only [Memory.wfFrom, Bool.and_eq_true, decide_eq_true_eq] at h
    simp only [Memory.write]
    by_cases h1 : a < k
    · have : a + 1 ≤ k := h1
      simp [h1, Memory.wfFrom, hl, hh, h.1.2, h.2, this]
    · by_cases h2 : a = k
      · subst h2; simp [Memory.wfFrom, hl, hh, h.2]
      · simp only [h1, h2, if_false, Memory.wfFrom, Bool.and_eq_true, decide_eq_true_eq]
        exact ⟨h.1, ih h.2 (by omega)⟩

/-- A write inside the bounds keeps the canonical form. -/
theorem Memory.wf_write {lo hi : Nat} {m : Memory} (h : Memory.wf lo hi m = true) (a : Nat) (v : Word) (hl : lo ≤ a)
    (hh : a < hi) : Memory.wf lo hi (Memory.write m a v) = true := Memory.wfFrom_write h a v hl hh

/-- A word read from a canonical array lies inside its bounds. -/
theorem Memory.read_some_bounds {lo hi : Nat} {m : Memory} (h : Memory.wf lo hi m = true) {a : Nat} {v : Word}
    (r : Memory.read m a = some v) : lo ≤ a ∧ a < hi := by
  unfold Memory.wf at h
  induction m generalizing lo with
  | nil => simp [Memory.read] at r
  | cons c m ih =>
    obtain ⟨k, u⟩ := c
    simp only [Memory.wfFrom, Bool.and_eq_true, decide_eq_true_eq] at h
    simp only [Memory.read] at r
    by_cases h1 : k = a
    · subst h1; exact h.1
    · simp only [h1, if_false] at r
      have := ih h.2 r
      omega

end Sys2Proof.Machine
end

