-- ==== Sys2Proof/Laws/Ops.lean ====
section
/-! SUPPORT. One lemma for each shared operation, saying what it can do. -/

namespace Sys2Proof.Machine

/-! Places: reading after keeping a word at the same place and at another (R71, R72). -/

theorem State.peek_poke (s : State) (l l' : Loc) (v : Word) :
    (s.poke l v).peek l' = if l = l' then some v else s.peek l' := by
  cases l <;> cases l' <;> simp [State.poke, State.peek, Memory.read_write, BitVec.toNat_inj]
  case slot.slot i j => split <;> rfl

@[simp] theorem State.peek_slot (s : State) (i : BitVec 4) : s.peek (.slot i) = some (s.x i) := rfl

theorem State.peek_setX (s : State) (i : BitVec 4) (v : Word) (l : Loc) (h : l ≠ .slot i) :
    (s.setX i v).peek l = s.peek l := by
  have := s.peek_poke (.slot i) l v
  simpa [State.poke, h.symm] using this

/-- Where a bus access lands in the CPU unit, it lands in a slot or in ZP[16..255] (R20). -/
theorem zpLoc_bounds (o : BitVec 8) : ∀ p, zpLoc o = .zp p → 16 ≤ p.toNat := by
  intro p h
  unfold zpLoc at h
  split at h
  · cases h
  · cases h; omega

theorem State.locate_bounds {s : State} {a : Addr} {p : BitVec 8} (h : s.locate a = some (.zp p)) : 16 ≤ p.toNat := by
  unfold State.locate at h
  split at h
  · cases h
  · exact zpLoc_bounds _ p (by simpa using h)
  · cases h

/-! The three endings. -/

@[simp] theorem Res.bind_ok {α β : Type} (a : α) (f : α → Res β) : (Res.ok a).bind f = f a := rfl
@[simp] theorem Res.bind_check {α β : Type} (k : CheckKind) (a : Addr) (f : α → Res β) :
    (Res.check k a : Res α).bind f = .check k a := rfl
@[simp] theorem Res.bind_refuse {α β : Type} (r : Refusal) (f : α → Res β) :
    (Res.refuse r : Res α).bind f = .refuse r := rfl
@[simp] theorem Res.outcome_ok (s t : State) : (Res.ok t).outcome s = .next t := rfl
@[simp] theorem Res.outcome_check (s : State) (k : CheckKind) (a : Addr) :
    (Res.check k a).outcome s = .next (takeMachineCheck k a s) := rfl
@[simp] theorem Res.outcome_refuse (s : State) (r : Refusal) : (Res.refuse r).outcome s = .refused r := rfl

theorem Res.bind_eq_ok {α β : Type} {r : Res α} {f : α → Res β} {b : β} :
    r.bind f = .ok b ↔ ∃ a, r = .ok a ∧ f a = .ok b := by
  cases r <;> simp [Res.bind]

/-- The next states of a step: what it did, or its machine check (R330). -/
theorem Res.outcome_eq_next {s t : State} {r : Res State} :
    r.outcome s = .next t ↔ r = .ok t ∨ ∃ k a, r = .check k a ∧ t = takeMachineCheck k a s := by
  cases r <;> simp [Res.outcome, eq_comm]

/-! Reads. -/

theorem State.readSlot_ne (s : State) {i : BitVec 4} (h : i ≠ 7#4) : s.readSlot i = (s.x i, s) := by
  simp [State.readSlot, h]

theorem State.readSlot_psw (s : State) :
    s.readSlot 7#4 = (Config.freeScratch s.draws ++ BitVec.ofBool s.lk, { s with draws := s.draws + 1 }) := by
  simp [State.readSlot, State.drawScratch]

/-- A slot read changes at most the draw counter. -/
theorem State.readSlot_state (s : State) (i : BitVec 4) : ∃ n, (s.readSlot i).2 = { s with draws := n } := by
  by_cases h : i = 7#4
  · exact ⟨s.draws + 1, by simp [State.readSlot, h, State.drawScratch]⟩
  · exact ⟨s.draws, by simp [State.readSlot, h]⟩

theorem State.readLoc_ok {s s1 : State} {l : Loc} {v : Word} (h : s.readLoc l = .ok (v, s1)) :
    (∃ n, s1 = { s with draws := n }) ∧ (l ≠ .slot 7#4 → s.peek l = some v ∧ s1 = s) := by
  cases l with
  | slot i =>
    simp only [State.readLoc, Res.ok.injEq] at h
    obtain ⟨n, hn⟩ := s.readSlot_state i
    rw [h] at hn
    refine ⟨⟨n, hn⟩, fun h7 => ?_⟩
    have : i ≠ 7#4 := fun e => h7 (by rw [e])
    rw [State.readSlot_ne s this] at h
    cases h; exact ⟨rfl, rfl⟩
  | zp o | mem a =>
    simp only [State.readLoc] at h
    split at h
    · rename_i w hw; cases h; exact ⟨⟨s.draws, rfl⟩, fun _ => ⟨hw, rfl⟩⟩
    · cases h

theorem State.readLoc_no_check {s : State} {l : Loc} {k : CheckKind} {a : Addr} : s.readLoc l ≠ .check k a := by
  cases l <;> simp only [State.readLoc, ne_eq] <;> try split
  all_goals simp

theorem State.busRead_state {s s1 : State} {k : CheckKind} {a : Addr} {v : Word} (h : s.busRead k a = .ok (v, s1)) :
    ∃ n, s1 = { s with draws := n } := by
  unfold State.busRead at h
  split at h
  · cases h
  · exact (State.readLoc_ok h).1

/-- An engine read changes at most the draw counter. -/
theorem State.localRead_state {s s1 : State} {a : Addr} {v : Word} (h : s.localRead a = .ok (v, s1)) :
    ∃ n, s1 = { s with draws := n } := by
  unfold State.localRead at h
  split at h
  · obtain ⟨n, hn⟩ := s.readSlot_state (a.setWidth 4)
    simp only [Res.ok.injEq] at h
    rw [h] at hn
    exact ⟨n, hn⟩
  · exact State.busRead_state h

/-- What an engine read answers in-file (R146). -/
theorem State.localRead_inFile (s : State) {a : Addr} (h : inFile a = true) :
    s.localRead a = .ok (s.readSlot (a.setWidth 4)) := by simp [State.localRead, h]

/-- An engine write puts the word at one place, which is not the PSW (R33(b), R146). -/
theorem State.localWrite_ok {s t : State} {a : Addr} {v : Word} (h : s.localWrite a v = .ok t) :
    ∃ l, l ≠ .slot 7#4 ∧ (∀ p, l = .zp p → 16 ≤ p.toNat) ∧ t = s.poke l v := by
  unfold State.localWrite at h
  split at h
  · cases h
  · rename_i h7
    split at h
    · rename_i hin
      cases h
      refine ⟨.slot (a.setWidth 4), ?_, by simp, rfl⟩
      intro e
      apply h7
      have e' : a.setWidth 4 = 7#4 := by simpa using e
      have := congrArg BitVec.toNat e'
      simp [inFile] at hin
      apply BitVec.eq_of_toNat_eq
      simp at this ⊢; omega
    · unfold State.busWrite at h
      split at h
      · cases h
      · rename_i l hl
        split at h
        · cases h
        · rename_i hne
          cases h
          refine ⟨l, hne, fun p hp => ?_, rfl⟩
          subst hp; exact State.locate_bounds hl

/-- Keeping a word anywhere but slot 7 leaves the PSW alone. -/
theorem State.psw_poke (s : State) {l : Loc} (v : Word) (h : l ≠ .slot 7#4) : (s.poke l v).psw = s.psw := by
  cases l with
  | slot i => have : i ≠ 7#4 := fun e => h (by rw [e])
              simp [State.poke, State.psw, this]
  | zp o => rfl
  | mem a => rfl

/-- An engine write leaves the PSW alone (R33(b)). -/
theorem State.psw_localWrite {s t : State} {a : Addr} {v : Word} (h : s.localWrite a v = .ok t) : t.psw = s.psw := by
  obtain ⟨l, hl, _, rfl⟩ := State.localWrite_ok h
  exact s.psw_poke v hl

end Sys2Proof.Machine
end

