-- ==== Sys2Proof/Laws/Frame.lean ====
section
/-! SUPPORT. The PSW as a whole from its fields, frames, and how a FETCH ends (`40_cycle_engine.md` R142, R147). -/

namespace Sys2Proof.Machine

/-! A packed PSW and its fields (R23). -/

theorem getLsbD_packPsw (lk op io ex id : Bool) (cycle tmp : BitVec 4) (acc : BitVec 3) {j : Nat}
    (h : j < 16) : (packPsw lk op io ex id cycle tmp acc).getLsbD j =
      if j = 0 then lk else if j = 1 then op else if j = 2 then io else if j = 3 then ex else if j = 4 then id
      else if j < 9 then cycle.getLsbD (j - 5) else if j < 13 then tmp.getLsbD (j - 9) else acc.getLsbD (j - 13) := by
  show @BitVec.getLsbD (3 + 4 + 4 + 1 + 1 + 1 + 1 + 1) (acc ++ tmp ++ cycle ++ BitVec.ofBool id ++ BitVec.ofBool ex
    ++ BitVec.ofBool io ++ BitVec.ofBool op ++ BitVec.ofBool lk) j = _
  simp only [BitVec.getLsbD_append, BitVec.getLsbD_ofBool]
  have : j = 0 ∨ j = 1 ∨ j = 2 ∨ j = 3 ∨ j = 4 ∨ j = 5 ∨ j = 6 ∨ j = 7 ∨ j = 8 ∨ j = 9 ∨ j = 10 ∨ j = 11 ∨ j = 12 ∨
    j = 13 ∨ j = 14 ∨ j = 15 := by omega
  rcases this with h | h | h | h | h | h | h | h | h | h | h | h | h | h | h | h <;> subst h <;> simp

/-- The fields of a state whose PSW is packed. -/
theorem State.fields_of_psw {s : State} {lk op io ex id : Bool} {cycle tmp : BitVec 4} {acc : BitVec 3}
    (h : s.psw = packPsw lk op io ex id cycle tmp acc) :
    s.lk = lk ∧ s.op = op ∧ s.io = io ∧ s.ex = ex ∧ s.id = id ∧ s.cycle = cycle ∧ s.tmp = tmp ∧ s.acc = acc := by
  unfold State.lk State.op State.io State.ex State.id State.cycle State.tmp State.acc
  rw [h]
  simp only [getFlag_eq_getLsbD _ 0 (by decide), getFlag_eq_getLsbD _ 1 (by decide), getFlag_eq_getLsbD _ 2 (by decide),
    getFlag_eq_getLsbD _ 3 (by decide), getFlag_eq_getLsbD _ 4 (by decide), getLsbD_packPsw _ _ _ _ _ _ _ _ (by decide : (0 : Nat) < 16),
    getLsbD_packPsw _ _ _ _ _ _ _ _ (by decide : (1 : Nat) < 16), getLsbD_packPsw _ _ _ _ _ _ _ _ (by decide : (2 : Nat) < 16),
    getLsbD_packPsw _ _ _ _ _ _ _ _ (by decide : (3 : Nat) < 16), getLsbD_packPsw _ _ _ _ _ _ _ _ (by decide : (4 : Nat) < 16)]
  refine ⟨by simp, by simp, by simp, by simp, by simp, ?_, ?_, ?_⟩
  · refine BitVec.eq_of_getLsbD_eq fun i hi => ?_
    rw [getLsbD_getField _ _ _ _ (by decide), getLsbD_packPsw _ _ _ _ _ _ _ _ (by omega)]
    simp [hi, show ¬ 5 + i = 1 by omega, show ¬ 5 + i = 2 by omega,
      show ¬ 5 + i = 3 by omega, show ¬ 5 + i = 4 by omega, show 5 + i < 9 by omega]
  · refine BitVec.eq_of_getLsbD_eq fun i hi => ?_
    rw [getLsbD_getField _ _ _ _ (by decide), getLsbD_packPsw _ _ _ _ _ _ _ _ (by omega)]
    simp [hi, show ¬ 9 + i = 1 by omega, show ¬ 9 + i = 2 by omega,
      show ¬ 9 + i = 3 by omega, show ¬ 9 + i = 4 by omega, show ¬ 9 + i < 9 by omega, show 9 + i < 13 by omega]
  · refine BitVec.eq_of_getLsbD_eq fun i hi => ?_
    rw [getLsbD_getField _ _ _ _ (by decide), getLsbD_packPsw _ _ _ _ _ _ _ _ (by omega)]
    simp [hi, show ¬ 13 + i = 1 by omega, show ¬ 13 + i = 2 by omega,
      show ¬ 13 + i = 3 by omega, show ¬ 13 + i = 4 by omega, show ¬ 13 + i < 9 by omega, show ¬ 13 + i < 13 by omega]

/-- The PSW from its fields. -/
theorem State.psw_of_fields {s : State} {lk op io ex id : Bool} {cycle tmp : BitVec 4} {acc : BitVec 3}
    (h1 : s.lk = lk) (h2 : s.op = op) (h3 : s.io = io) (h4 : s.ex = ex) (h5 : s.id = id) (h6 : s.cycle = cycle)
    (h7 : s.tmp = tmp) (h8 : s.acc = acc) : s.psw = packPsw lk op io ex id cycle tmp acc := by
  rw [s.psw_eq_pack, h1, h2, h3, h4, h5, h6, h7, h8]

/-! Frames. -/

/-- A frame from the slots, the two arrays and the other fields. -/
theorem Frame.of_slots {touched : List Loc} {s t : State} (h : ∀ i, Loc.slot i ∉ touched → t.x i = s.x i)
    (hz : t.zp = s.zp) (hm : t.mem = s.mem)
    (hr : { t with regs := s.regs, zp := s.zp, mem := s.mem, draws := s.draws } = s) : Frame touched s t := by
  refine ⟨fun l hl => ?_, hr⟩
  cases l with
  | slot i => simp [State.peek, h i hl]
  | zp o => simp [State.peek, hz]
  | mem a => simp [State.peek, hm]

theorem Frame.refl (touched : List Loc) (s : State) : Frame touched s s := ⟨fun _ _ => rfl, rfl⟩

theorem Frame.trans {a b : List Loc} {s t u : State} (h : Frame a s t) (g : Frame b t u) : Frame (a ++ b) s u := by
  refine ⟨fun l hl => ?_, ?_⟩
  · rw [List.mem_append, not_or] at hl
    rw [g.1 l hl.2, h.1 l hl.1]
  · have h2 := h.2
    rw [← g.2] at h2
    simpa using h2

theorem Frame.mono {a b : List Loc} {s t : State} (h : Frame a s t) (hs : ∀ l, l ∈ a → l ∈ b) : Frame b s t :=
  ⟨fun l hl => h.1 l fun e => hl (hs l e), h.2⟩

theorem Frame.poke (s : State) (l : Loc) (v : Word) : Frame [l] s (s.poke l v) := by
  refine ⟨fun l' h => ?_, ?_⟩
  · rw [State.peek_poke]; simp at h; simp [Ne.symm h]
  · cases l <;> rfl

theorem Frame.draws (s : State) (n : Nat) : Frame [] s { s with draws := n } :=
  ⟨fun l _ => by cases l <;> rfl, rfl⟩

/-! The end of FETCH. -/

theorem endFetch_ok (s t : State) : endFetch s (.ok t) = .next t.selectCycle := rfl
theorem endFetch_refuse (s : State) (r : Refusal) : endFetch s (.refuse r) = .refused r := rfl

/-- Choosing the next cycle state changes CYCLE alone (R142). -/
theorem State.selectCycle_eq (s : State) :
    s.selectCycle = s.setCycle (if s.cycle = 15#4 then 15#4 else s.nextAfterFetch) := by
  unfold State.selectCycle cycleHalted
  split
  · rename_i h
    have e : s.psw = putField s.psw 5 4 15#4 := by
      refine BitVec.eq_of_getLsbD_eq fun i hi => ?_
      rw [getLsbD_putField _ _ _ _ _ (by decide)]
      split
      · rename_i hb
        rw [← h, State.cycle, getLsbD_getField _ _ _ _ (by decide)]
        simp [show i - 5 < 4 by omega, show 5 + (i - 5) = i by omega]
      · rfl
    have hr : s.regs = (s.setCycle 15#4).regs := by
      refine State.regs_ext fun i => ?_
      by_cases hi : i = 7#4
      · subst hi; simp only [State.setCycle, State.setPsw, State.x_setX, if_true]; exact e
      · rw [State.x_setCycle _ _ _ hi]
    exact congrArg (fun r => ({ s with regs := r } : State)) hr
  · rfl

end Sys2Proof.Machine
end

