-- ==== Sys2Proof/Laws/Fetch.lean ====
section
/-! SUPPORT. One lemma for each operation FETCH is built of: the latch, the slot read, the pointer, the end
(`40_cycle_engine.md` R142-R147). -/

namespace Sys2Proof.Machine

/-! The PSW does not see the latches and the mailbox. -/

@[simp] theorem State.psw_with_ea (s : State) (v : Addr) : ({ s with ea := v } : State).psw = s.psw := rfl
@[simp] theorem State.pc_with_ea (s : State) (v : Addr) : ({ s with ea := v } : State).pc = s.pc := rfl
@[simp] theorem State.psw_with_wb (s : State) (v : Word) : ({ s with wb := v } : State).psw = s.psw := rfl
@[simp] theorem State.pc_with_wb (s : State) (v : Word) : ({ s with wb := v } : State).pc = s.pc := rfl
@[simp] theorem State.psw_with_mcheck (s : State) (v : Option MachineCheck) : ({ s with mcheck := v } : State).psw = s.psw := rfl
@[simp] theorem State.pc_with_mcheck (s : State) (v : Option MachineCheck) : ({ s with mcheck := v } : State).pc = s.pc := rfl
@[simp] theorem State.psw_with_mailbox (s : State) (v : Mailbox) : ({ s with mailbox := v } : State).psw = s.psw := rfl
@[simp] theorem State.pc_with_mailbox (s : State) (v : Mailbox) : ({ s with mailbox := v } : State).pc = s.pc := rfl
@[simp] theorem State.psw_with_draws (s : State) (v : Nat) : ({ s with draws := v } : State).psw = s.psw := rfl
@[simp] theorem State.pc_with_draws (s : State) (v : Nat) : ({ s with draws := v } : State).pc = s.pc := rfl
@[simp] theorem State.lk_with_ea (s : State) (v : Addr) : ({ s with ea := v } : State).lk = s.lk := rfl
@[simp] theorem State.op_with_ea (s : State) (v : Addr) : ({ s with ea := v } : State).op = s.op := rfl
@[simp] theorem State.io_with_ea (s : State) (v : Addr) : ({ s with ea := v } : State).io = s.io := rfl
@[simp] theorem State.ex_with_ea (s : State) (v : Addr) : ({ s with ea := v } : State).ex = s.ex := rfl
@[simp] theorem State.id_with_ea (s : State) (v : Addr) : ({ s with ea := v } : State).id = s.id := rfl
@[simp] theorem State.cycle_with_ea (s : State) (v : Addr) : ({ s with ea := v } : State).cycle = s.cycle := rfl
@[simp] theorem State.tmp_with_ea (s : State) (v : Addr) : ({ s with ea := v } : State).tmp = s.tmp := rfl
@[simp] theorem State.acc_with_ea (s : State) (v : Addr) : ({ s with ea := v } : State).acc = s.acc := rfl
@[simp] theorem State.lk_with_wb (s : State) (v : Word) : ({ s with wb := v } : State).lk = s.lk := rfl
@[simp] theorem State.op_with_wb (s : State) (v : Word) : ({ s with wb := v } : State).op = s.op := rfl
@[simp] theorem State.io_with_wb (s : State) (v : Word) : ({ s with wb := v } : State).io = s.io := rfl
@[simp] theorem State.ex_with_wb (s : State) (v : Word) : ({ s with wb := v } : State).ex = s.ex := rfl
@[simp] theorem State.id_with_wb (s : State) (v : Word) : ({ s with wb := v } : State).id = s.id := rfl
@[simp] theorem State.cycle_with_wb (s : State) (v : Word) : ({ s with wb := v } : State).cycle = s.cycle := rfl
@[simp] theorem State.tmp_with_wb (s : State) (v : Word) : ({ s with wb := v } : State).tmp = s.tmp := rfl
@[simp] theorem State.acc_with_wb (s : State) (v : Word) : ({ s with wb := v } : State).acc = s.acc := rfl
@[simp] theorem State.lk_with_mcheck (s : State) (v : Option MachineCheck) : ({ s with mcheck := v } : State).lk = s.lk := rfl
@[simp] theorem State.op_with_mcheck (s : State) (v : Option MachineCheck) : ({ s with mcheck := v } : State).op = s.op := rfl
@[simp] theorem State.io_with_mcheck (s : State) (v : Option MachineCheck) : ({ s with mcheck := v } : State).io = s.io := rfl
@[simp] theorem State.ex_with_mcheck (s : State) (v : Option MachineCheck) : ({ s with mcheck := v } : State).ex = s.ex := rfl
@[simp] theorem State.id_with_mcheck (s : State) (v : Option MachineCheck) : ({ s with mcheck := v } : State).id = s.id := rfl
@[simp] theorem State.cycle_with_mcheck (s : State) (v : Option MachineCheck) : ({ s with mcheck := v } : State).cycle = s.cycle := rfl
@[simp] theorem State.tmp_with_mcheck (s : State) (v : Option MachineCheck) : ({ s with mcheck := v } : State).tmp = s.tmp := rfl
@[simp] theorem State.acc_with_mcheck (s : State) (v : Option MachineCheck) : ({ s with mcheck := v } : State).acc = s.acc := rfl
@[simp] theorem State.lk_with_mailbox (s : State) (v : Mailbox) : ({ s with mailbox := v } : State).lk = s.lk := rfl
@[simp] theorem State.op_with_mailbox (s : State) (v : Mailbox) : ({ s with mailbox := v } : State).op = s.op := rfl
@[simp] theorem State.io_with_mailbox (s : State) (v : Mailbox) : ({ s with mailbox := v } : State).io = s.io := rfl
@[simp] theorem State.ex_with_mailbox (s : State) (v : Mailbox) : ({ s with mailbox := v } : State).ex = s.ex := rfl
@[simp] theorem State.id_with_mailbox (s : State) (v : Mailbox) : ({ s with mailbox := v } : State).id = s.id := rfl
@[simp] theorem State.cycle_with_mailbox (s : State) (v : Mailbox) : ({ s with mailbox := v } : State).cycle = s.cycle := rfl
@[simp] theorem State.tmp_with_mailbox (s : State) (v : Mailbox) : ({ s with mailbox := v } : State).tmp = s.tmp := rfl
@[simp] theorem State.acc_with_mailbox (s : State) (v : Mailbox) : ({ s with mailbox := v } : State).acc = s.acc := rfl
@[simp] theorem State.lk_with_draws (s : State) (v : Nat) : ({ s with draws := v } : State).lk = s.lk := rfl
@[simp] theorem State.op_with_draws (s : State) (v : Nat) : ({ s with draws := v } : State).op = s.op := rfl
@[simp] theorem State.io_with_draws (s : State) (v : Nat) : ({ s with draws := v } : State).io = s.io := rfl
@[simp] theorem State.ex_with_draws (s : State) (v : Nat) : ({ s with draws := v } : State).ex = s.ex := rfl
@[simp] theorem State.id_with_draws (s : State) (v : Nat) : ({ s with draws := v } : State).id = s.id := rfl
@[simp] theorem State.cycle_with_draws (s : State) (v : Nat) : ({ s with draws := v } : State).cycle = s.cycle := rfl
@[simp] theorem State.tmp_with_draws (s : State) (v : Nat) : ({ s with draws := v } : State).tmp = s.tmp := rfl
@[simp] theorem State.acc_with_draws (s : State) (v : Nat) : ({ s with draws := v } : State).acc = s.acc := rfl

theorem State.psw_setX (s : State) (i : BitVec 4) (v : Word) (h : i ≠ 7#4) : (s.setX i v).psw = s.psw := by
  simp [State.psw, h]

theorem Frame.setX (s : State) (i : BitVec 4) (v : Word) : Frame [.slot i] s (s.setX i v) := Frame.poke s (.slot i) v

/-- A frame, and one more register written that it lists. -/
theorem Frame.then_setX {s u : State} {touched : List Loc} (h : Frame touched s u) (i : BitVec 4) (v : Word)
    (hi : .slot i ∈ touched) : Frame touched s (u.setX i v) :=
  (h.trans (Frame.setX u i v)).mono fun l hl => by
    rcases List.mem_append.1 hl with h | h
    · exact h
    · rw [List.mem_singleton] at h; exact h ▸ hi

/-! The latch (R142). -/

theorem State.latch_frame (s : State) (op acc : BitVec 3) : Frame [.slot 7#4] s (s.latch op acc) :=
  ((Frame.setX s 7#4 _).then_setX 7#4 _ (by simp))

theorem State.x_latch (s : State) (op acc : BitVec 3) (i : BitVec 4) (h : i ≠ 7#4) : (s.latch op acc).x i = s.x i := by
  simp [State.latch, State.x_setTmp, State.x_setAcc, h]

@[simp] theorem State.pc_latch (s : State) (op acc : BitVec 3) : (s.latch op acc).pc = s.pc := by simp [State.latch]

@[simp] theorem State.lk_latch (s : State) (op acc : BitVec 3) : (s.latch op acc).lk = s.lk := by simp [State.latch]

theorem State.ac_latch (s : State) (op acc d : BitVec 3) (h : d ≠ 7#3) : (s.latch op acc).ac d = s.ac d :=
  s.x_latch op acc _ (acSlot_ne_psw d h)

theorem Fetched.psw_latch {s : State} (h : Fetched s) (op acc : BitVec 3) :
    (s.latch op acc).psw = packPsw s.lk false false false false 0#4 (op.setWidth 4) acc := by
  obtain ⟨-, h2, h3, h4, h5, h6, -, -⟩ := State.fields_of_psw h
  apply State.psw_of_fields <;> simp [State.latch, *]

/-! The slot read (R33(a), R146). -/

theorem State.readSlot_frame (s : State) (i : BitVec 4) : Frame [] s (s.readSlot i).2 := by
  obtain ⟨n, hn⟩ := s.readSlot_state i; rw [hn]; exact Frame.draws _ _

@[simp] theorem State.psw_readSlot (s : State) (i : BitVec 4) : (s.readSlot i).2.psw = s.psw := by
  obtain ⟨n, hn⟩ := s.readSlot_state i; rw [hn]; rfl

@[simp] theorem State.x_readSlot (s : State) (i j : BitVec 4) : (s.readSlot i).2.x j = s.x j := by
  obtain ⟨n, hn⟩ := s.readSlot_state i; rw [hn]; rfl

/-- A slot read sees the slots, LK and the draw counter. -/
theorem State.readSlot_congr {s t : State} (i : BitVec 4) (hx : i ≠ 7#4 → t.x i = s.x i) (hl : t.lk = s.lk)
    (hd : t.draws = s.draws) : (t.readSlot i).1 = (s.readSlot i).1 := by
  by_cases h : i = 7#4
  · subst h; simp [State.readSlot_psw, hl, hd]
  · simp [State.readSlot_ne _ h, hx h]

/-! In-file addresses (R144). -/

theorem inFile_of_le {a : Addr} (h : a.toNat ≤ 15) : inFile a = true := by simp [inFile, h]

theorem inFile_of_lt {a : Addr} (h : 15 < a.toNat) : inFile a = false := by simp [inFile]; omega

theorem slot_ne_psw {a : Addr} (h : a.toNat ≤ 15) (h7 : a.toNat ≠ 7) : a.setWidth 4 ≠ 7#4 := by
  intro e; have := congrArg BitVec.toNat e; simp at this; omega

theorem addr_ne_psw {a : Addr} (h : a.toNat ≠ 7) : a ≠ 7#32 := by rintro rfl; simp at h

/-! The pointer (R145). -/

theorem isIndex_ne_psw {i : BitVec 4} (h : isIndex i = true) : i ≠ 7#4 := by rintro rfl; simp [isIndex] at h

@[simp] theorem State.psw_resolvePointer (s : State) (a : Addr) : (s.resolvePointer a).2.psw = s.psw := by
  unfold State.resolvePointer
  simp only
  split
  · rename_i h; rw [State.psw_setX _ _ _ (isIndex_ne_psw h), State.psw_readSlot]
  · exact State.psw_readSlot _ _

/-! Sums (R182). -/

theorem addCarry_fst (a b : Word) : (addCarry a b).1 = a + b := by
  simp only [addCarry]; apply BitVec.eq_of_toNat_eq; simp

theorem addCarry_snd (a b : Word) : (addCarry a b).2 = decide (65536 ≤ a.toNat + b.toNat) := by
  simp only [addCarry]; have := a.isLt; have := b.isLt; simp; omega

/-! FETCH of a memory-reference instruction. -/

theorem fetchMri_direct (op acc : BitVec 3) (z : Bool) (off : BitVec 8) (s : State)
    (h : (address s.pc z off).toNat ≤ 15) :
    fetchMri op acc false z off s = endFetch s (effect op acc (address s.pc z off) (s.latch op acc)) := by
  simp [fetchMri, mriFetch, inFile, h]

/-- A FETCH that leaves the scratch fields but TMP and ACC 0 goes back to FETCH: nothing else changes. -/
theorem endFetch_done {s u : State} {r : Res State} {lk : Bool} {tmp : BitVec 4} {acc : BitVec 3} {touched : List Loc}
    {Q : State → Prop} (hr : r = .ok u) (hu : u.psw = packPsw lk false false false false 0#4 tmp acc)
    (hf : Frame touched s u) (h7 : .slot 7#4 ∈ touched)
    (hq : ∀ t, (∀ i, i ≠ 7#4 → t.x i = u.x i) → t.psw = packPsw lk false false false false 0#4 tmp acc →
      Frame touched s t → Q t) : ∃ t, endFetch s r = .next t ∧ Q t := by
  subst hr
  obtain ⟨h1, h2, h3, h4, h5, h6, h7', h8⟩ := State.fields_of_psw hu
  refine ⟨_, rfl, hq _ ?_ ?_ ?_⟩ <;> rw [State.selectCycle_eq]
  · exact fun i hi => State.x_setCycle _ _ _ hi
  · apply State.psw_of_fields <;> simp [*, State.nextAfterFetch, cycleFetch]
  · exact hf.then_setX 7#4 _ h7

end Sys2Proof.Machine
end

