-- ==== Sys2Proof/Laws/Effects.lean ====
section
/-! SUPPORT. What the effect of a memory-reference instruction can do (`41_memory_reference.md` R180-R190), and where its
bus accesses fail (`60_exceptions.md` R332). -/

namespace Sys2Proof.Machine

/-- `t` differs from `s` only in what a CPU step may write: the register file, the arrays, the latches, the record, the
mailbox and the model's draw counter. -/
def CpuKeeps (s t : State) : Prop :=
  { t with regs := s.regs, zp := s.zp, mem := s.mem, ea := s.ea, wb := s.wb, mcheck := s.mcheck,
           mailbox := s.mailbox, draws := s.draws } = s

theorem CpuKeeps.refl (s : State) : CpuKeeps s s := rfl

theorem CpuKeeps.trans {s t u : State} (h : CpuKeeps s t) (g : CpuKeeps t u) : CpuKeeps s u := by
  cases s; cases t; cases u; simp_all [CpuKeeps]

theorem CpuKeeps.poke (s : State) (l : Loc) (v : Word) : CpuKeeps s (s.poke l v) := by cases l <;> rfl

/-- `t` differs from `s` only in the register file and the draw counter. -/
def SlotsOnly (s t : State) : Prop := { t with regs := s.regs, draws := s.draws } = s

theorem SlotsOnly.refl (s : State) : SlotsOnly s s := rfl

theorem SlotsOnly.trans {s t u : State} (h : SlotsOnly s t) (g : SlotsOnly t u) : SlotsOnly s u := by
  cases s; cases t; cases u; simp_all [SlotsOnly]

theorem SlotsOnly.setX (s : State) (i : BitVec 4) (v : Word) : SlotsOnly s (s.setX i v) := rfl

theorem SlotsOnly.readSlot (s : State) (i : BitVec 4) : SlotsOnly s (s.readSlot i).2 := by
  obtain ⟨n, hn⟩ := s.readSlot_state i; rw [hn]; rfl

/-- Keeping a word where the bus can reach keeps the canonical form. -/
theorem CanonicalMemory.poke {s : State} {l : Loc} {v : Word} (h : CanonicalMemory s)
    (hl : ∀ p, l = .zp p → 16 ≤ p.toNat) : CanonicalMemory (s.poke l v) := by
  cases l with
  | slot i => exact h
  | zp p => exact ⟨Memory.wf_write h.1 _ _ (hl p rfl) (by omega), h.2⟩
  | mem a => exact ⟨h.1, Memory.wf_write h.2 _ _ (by omega) (by omega)⟩

/-- An engine write keeps the canonical form. -/
theorem CanonicalMemory.localWrite {s t : State} {a : Addr} {v : Word} (h : CanonicalMemory s)
    (hw : s.localWrite a v = .ok t) : CanonicalMemory t := by
  obtain ⟨l, -, hl, rfl⟩ := State.localWrite_ok hw
  exact h.poke hl

/-- The two arrays of the machine after reset are canonical. -/
theorem CanonicalMemory.reset : CanonicalMemory State.reset := ⟨rfl, rfl⟩

/-- On an in-file address an effect writes slots only, and of the PSW at most LK, which only TAD may write (R25, R190). -/
theorem effect_inFile {op acc : BitVec 3} {a : Addr} {s t : State} (ha : a.toNat ≤ 15)
    (h : effect op acc a s = .ok t) :
    SlotsOnly s t ∧ ∃ lk, t.psw = packPsw lk s.op s.io s.ex s.id s.cycle s.tmp s.acc ∧ (op ≠ 1#3 → lk = s.lk) := by
  have lw : ∀ v u, s.localWrite a v = .ok u → SlotsOnly s u ∧ u.psw = s.psw := by
    intro v u hu
    refine ⟨?_, State.psw_localWrite hu⟩
    unfold State.localWrite at hu
    split at hu
    · cases hu
    · simp [inFile_of_le ha] at hu; subst hu; exact SlotsOnly.setX _ _ _
  unfold effect at h
  split at h
  · unfold effectAnd at h
    split at h
    · cases h
    · rename_i hacc
      simp only [State.localRead_inFile _ (inFile_of_le ha), Res.bind_ok, Res.ok.injEq] at h
      subst h
      refine ⟨(SlotsOnly.readSlot _ _).trans (SlotsOnly.setX _ _ _), s.lk, ?_, fun _ => rfl⟩
      rw [State.psw_setAc _ _ _ hacc, State.psw_readSlot]; exact s.psw_eq_pack
  split at h
  · rename_i h1
    unfold effectTad at h
    split at h
    · cases h
    · rename_i hacc
      simp only [State.localRead_inFile _ (inFile_of_le ha), Res.bind_ok, Res.ok.injEq] at h
      subst h
      obtain ⟨n, hn⟩ := s.readSlot_state (a.setWidth 4)
      rw [hn]
      exact ⟨rfl, _, by apply State.psw_of_fields <;> simp [State.op_setAc, State.io_setAc, State.ex_setAc,
        State.id_setAc, State.cycle_setAc, State.tmp_setAc, State.acc_setAc, hacc]; rfl, fun hh => absurd h1 hh⟩
  split at h
  · split at h
    · simp only [effectIsz, State.localRead_inFile _ (inFile_of_le ha), Res.bind_ok, inFile_of_le ha, if_true] at h
      rw [Res.bind_eq_ok] at h
      obtain ⟨u, hu, hh⟩ := h
      obtain ⟨n, hn⟩ := s.readSlot_state (a.setWidth 4)
      rw [hn] at hu
      have hpsw := State.psw_localWrite hu
      unfold State.localWrite at hu
      split at hu
      · cases hu
      · simp [inFile_of_le ha] at hu
        simp at hh; subst hh
        refine ⟨?_, s.lk, ?_, fun _ => rfl⟩
        · subst hu; split <;> rfl
        · rw [apply_ite State.psw, State.skip, State.psw_setPc, ite_self]
          rw [hpsw]; exact s.psw_eq_pack
    · unfold effectSta at h
      obtain ⟨h1, h2⟩ := lw _ _ h
      exact ⟨h1, s.lk, h2.trans s.psw_eq_pack, fun _ => rfl⟩
  split at h
  · unfold effectDca at h
    split at h
    · cases h
    · rename_i hacc
      rw [Res.bind_eq_ok] at h
      obtain ⟨u, hu, hh⟩ := h
      obtain ⟨h1, h2⟩ := lw _ _ hu
      simp at hh; subst hh
      exact ⟨h1.trans (SlotsOnly.setX _ _ _), s.lk, (State.psw_setAc _ _ _ hacc).trans (h2.trans s.psw_eq_pack), fun _ => rfl⟩
  split at h
  · unfold effectJms at h
    split at h
    · cases h
    · rw [Res.bind_eq_ok] at h
      obtain ⟨u, hu, hh⟩ := h
      obtain ⟨h1, h2⟩ := lw _ _ hu
      simp at hh; subst hh
      exact ⟨h1.trans (SlotsOnly.setX _ _ _), s.lk, (State.psw_setPc _ _).trans (h2.trans s.psw_eq_pack), fun _ => rfl⟩
  · split at h
    · simp [effectJmp] at h; subst h
      exact ⟨SlotsOnly.setX _ _ _, s.lk, (State.psw_setPc _ _).trans s.psw_eq_pack, fun _ => rfl⟩
    · cases h

/-- An effective address is a word address (R74, R104). -/
theorem address_lt (pc : Word) (z : Bool) (off : BitVec 8) : (address pc z off).toNat < 65536 := by
  unfold address
  split
  · have := off.isLt; simp; omega
  · have := ((BitVec.extractLsb' 8 8 pc) ++ off).isLt
    rw [BitVec.toNat_setWidth]; omega

/-- An engine read fails only where the bus reaches nothing (R64, R332). -/
theorem State.localRead_check {s : State} {a b : Addr} {k : CheckKind}
    (h : s.localRead a = .check k b) : b = a ∧ s.locate a = none ∧ inFile a = false := by
  unfold State.localRead at h
  split at h
  · cases h
  · rename_i hi
    unfold State.busRead at h
    split at h
    · rename_i hl; simp at h; exact ⟨h.2.symm, hl, by simpa using hi⟩
    · exact absurd h State.readLoc_no_check
/-- An engine write fails only where the bus reaches nothing (R65, R332). -/
theorem State.localWrite_check {s : State} {a b : Addr} {v : Word} {k : CheckKind}
    (h : s.localWrite a v = .check k b) : b = a ∧ s.locate a = none := by
  unfold State.localWrite at h
  split at h
  · cases h
  split at h
  · cases h
  · unfold State.busWrite at h
    split at h
    · rename_i hl; simp at h; exact ⟨h.2.symm, hl⟩
    · split at h <;> cases h

/-- What an effect can do on any address: it keeps the canonical form, the mailbox, the record and EA; of the PSW it may
write LK (TAD only) and ID (an out-of-file ISZ only, R183). -/
theorem effect_ok {op acc : BitVec 3} {s u : State} {a : Addr} (h : effect op acc a s = .ok u) :
   CpuKeeps s u ∧ (CanonicalMemory s → CanonicalMemory u) ∧ u.mailbox = s.mailbox ∧ u.mcheck = s.mcheck ∧ u.ea = s.ea ∧
   ∃ lk id, u.psw = packPsw lk s.op s.io s.ex id s.cycle s.tmp s.acc ∧ (id = s.id ∨ inFile a = false) ∧ (op ≠ 1#3 → lk = s.lk) := by
  have lw : ∀ (s u : State) v, s.localWrite a v = .ok u → CpuKeeps s u ∧ (CanonicalMemory s → CanonicalMemory u) ∧ u.mailbox = s.mailbox ∧ u.mcheck = s.mcheck ∧ u.ea = s.ea ∧ u.psw = s.psw := by
    intro s u v hh
    have hp := State.psw_localWrite hh
    obtain ⟨l, h1, h2, rfl⟩ := State.localWrite_ok hh
    exact ⟨CpuKeeps.poke _ _ _, fun hc => hc.poke h2, by cases l <;> rfl, by cases l <;> rfl, by cases l <;> rfl, hp⟩
  unfold effect at h
  split at h
  · unfold effectAnd at h
    split at h
    · cases h
    rename_i hacc
    rw [Res.bind_eq_ok] at h
    obtain ⟨⟨v, s1⟩, h1, h2⟩ := h
    obtain ⟨n, rfl⟩ := State.localRead_state h1
    simp at h2; subst h2
    exact ⟨rfl, fun h => h, rfl, rfl, rfl, s.lk, s.id, (State.psw_setAc _ _ _ hacc).trans s.psw_eq_pack, Or.inl rfl, fun _ => rfl⟩
  split at h
  · rename_i ho
    unfold effectTad at h
    split at h
    · cases h
    rename_i hacc
    rw [Res.bind_eq_ok] at h
    obtain ⟨⟨v, s1⟩, h1, h2⟩ := h
    obtain ⟨n, rfl⟩ := State.localRead_state h1
    simp at h2; subst h2
    refine ⟨rfl, fun h => h, rfl, rfl, rfl, carryLk s.lk (addCarry (s.ac acc) v).2, s.id, ?_, Or.inl rfl, fun hh => absurd ho hh⟩
    · apply State.psw_of_fields <;> simp [State.op_setAc, State.io_setAc, State.ex_setAc, State.id_setAc, State.cycle_setAc, State.tmp_setAc, State.acc_setAc, hacc]
      rfl
  split at h
  · split at h
    · unfold effectIsz at h
      rw [Res.bind_eq_ok] at h
      obtain ⟨⟨v, s1⟩, h1, h2⟩ := h
      obtain ⟨n, rfl⟩ := State.localRead_state h1
      simp only at h2
      rw [Res.bind_eq_ok] at h2
      obtain ⟨s2, h2, h3⟩ := h2
      simp at h3
      have sk : ∀ c : Prop, ∀ _ : Decidable c, CpuKeeps s2 (if c then s2.skip else s2) ∧ (CanonicalMemory s2 → CanonicalMemory (if c then s2.skip else s2)) ∧ (if c then s2.skip else s2).mailbox = s2.mailbox ∧ (if c then s2.skip else s2).mcheck = s2.mcheck ∧ (if c then s2.skip else s2).ea = s2.ea ∧ (if c then s2.skip else s2).psw = s2.psw := by
        intro c _
        split
        · exact ⟨rfl, fun h => h, rfl, rfl, rfl, by simp [State.skip]⟩
        · exact ⟨rfl, fun h => h, rfl, rfl, rfl, rfl⟩
      obtain ⟨k1, k2, k3, k4, k5, k6⟩ := sk (v + 1#16 = 0#16) inferInstance
      rw [h3] at k1 k2 k3 k4 k5 k6
      split at h2
      · obtain ⟨j1, j2, j3, j4, j5, j6⟩ := lw _ _ _ h2
        refine ⟨CpuKeeps.trans (CpuKeeps.trans (t := { s with draws := n }) rfl j1) k1, fun hc => k2 (j2 hc), k3.trans j3, k4.trans j4, k5.trans j5, s.lk, s.id, (k6.trans j6).trans s.psw_eq_pack, Or.inl rfl, fun _ => rfl⟩
      · rename_i hin
        simp at h2; subst h2
        refine ⟨CpuKeeps.trans (t := { ({ s with draws := n } : State).setId true with wb := v + 1#16 }) rfl k1, fun hc => k2 hc, k3, k4, k5, s.lk, true, k6.trans ?_, Or.inr (by simpa using hin), fun _ => rfl⟩
        rw [State.psw_with_wb]
        apply State.psw_of_fields <;> simp
    · unfold effectSta at h
      obtain ⟨j1, j2, j3, j4, j5, j6⟩ := lw _ _ _ h
      exact ⟨j1, j2, j3, j4, j5, s.lk, s.id, j6.trans s.psw_eq_pack, Or.inl rfl, fun _ => rfl⟩
  split at h
  · unfold effectDca at h
    split at h
    · cases h
    rename_i hacc
    rw [Res.bind_eq_ok] at h
    obtain ⟨s2, h2, h3⟩ := h
    simp at h3; subst h3
    obtain ⟨j1, j2, j3, j4, j5, j6⟩ := lw _ _ _ h2
    exact ⟨j1.trans rfl, j2, j3, j4, j5, s.lk, s.id, (State.psw_setAc _ _ _ hacc).trans (j6.trans s.psw_eq_pack), Or.inl rfl, fun _ => rfl⟩
  split at h
  · unfold effectJms at h
    split at h
    · cases h
    rename_i hacc
    rw [Res.bind_eq_ok] at h
    obtain ⟨s2, h2, h3⟩ := h
    simp at h3; subst h3
    obtain ⟨j1, j2, j3, j4, j5, j6⟩ := lw _ _ _ h2
    exact ⟨j1.trans rfl, j2, j3, j4, j5, s.lk, s.id, (State.psw_setPc _ _).trans (j6.trans s.psw_eq_pack), Or.inl rfl, fun _ => rfl⟩
  · split at h
    · simp [effectJmp] at h; subst h
      exact ⟨rfl, fun h => h, rfl, rfl, rfl, s.lk, s.id, (State.psw_setPc _ _).trans s.psw_eq_pack, Or.inl rfl, fun _ => rfl⟩
    · cases h

/-- An effect takes a machine check only at its own address, where the bus reaches nothing (R332). -/
theorem effect_check {op acc : BitVec 3} {a b : Addr} {s : State} {k : CheckKind} (h : effect op acc a s = .check k b) : b = a ∧ s.locate a = none := by
  have hb : ∀ {α} {r : Res α} {f : α → Res State}, r.bind f = .check k b → (r = .check k b ∨ ∃ x, r = .ok x ∧ f x = .check k b) := by
    intro α r f h; cases r <;> simp_all
  have hr : s.localRead a = .check k b → b = a ∧ s.locate a = none := fun h => ⟨(State.localRead_check h).1, (State.localRead_check h).2.1⟩
  unfold effect effectAnd effectTad effectIsz effectSta effectDca effectJms effectJmp effectJmpl at h
  split_ifs at h
  · rcases hb h with h | ⟨x, _, h⟩
    · exact hr h
    · cases h
  · rcases hb h with h | ⟨x, _, h⟩
    · exact hr h
    · cases h
  · rcases hb h with h | ⟨⟨v, s1⟩, hx, h⟩
    · exact hr h
    · obtain ⟨n, rfl⟩ := State.localRead_state hx
      simp only at h
      rcases hb h with h | ⟨x, _, h⟩
      · exact State.localWrite_check (s := { s with draws := n }) h
      · cases h
  · rcases hb h with h | ⟨⟨v, s1⟩, hx, h⟩
    · exact hr h
    · cases h
  · exact State.localWrite_check h
  · rcases hb h with h | ⟨x, _, h⟩
    · exact State.localWrite_check h
    · cases h
  · rcases hb h with h | ⟨x, _, h⟩
    · exact State.localWrite_check h
    · cases h

/-- In-file there is no bus access, so no machine check. -/
theorem effect_inFile_no_check {op acc : BitVec 3} {a b : Addr} {s : State} {k : CheckKind} (ha : a.toNat ≤ 15) :
    effect op acc a s ≠ .check k b := by
  have hl : ∀ (s : State) v k b, s.localWrite a v ≠ .check k b := by
    intro s v k b; unfold State.localWrite; rw [inFile_of_le ha]; split <;> simp
  have hb : ∀ {α} (r : Res State) (f : State → Res α), (∀ k b, r ≠ .check k b) → (∀ u k b, f u ≠ .check k b) → ∀ k b, r.bind f ≠ .check k b := by
    intro α r f h1 h2 k b; cases r <;> simp_all
  unfold effect effectAnd effectTad effectIsz effectSta effectDca effectJms effectJmp effectJmpl
  simp only [State.localRead_inFile _ (inFile_of_le ha), Res.bind_ok, inFile_of_le ha, if_true]
  split_ifs <;> first | (simp; done) | exact hl _ _ _ _ | (apply hb; exact hl _ _; intros; simp)

end Sys2Proof.Machine
end

