-- ==== Sys2Proof/Laws/Devices.lean ====
section
/-! SUPPORT. What a device's actions, the end of a run and one turn of its loop can do (`42_iot_attention.md` R226-R230,
`70_reset_and_hazards.md` R374-R379). -/

namespace Sys2Proof.Machine

/-- A device's action writes the register file but for the PSW, OUT, and what the console has answered. -/
structure ActionKeeps (s t : State) : Prop where
  rest : { t with regs := s.regs, draws := s.draws, answers := s.answers, out := s.out } = s
  psw : t.psw = s.psw

theorem ActionKeeps.drawAnswer (s : State) : ActionKeeps s s.drawAnswer.2 := by
  unfold State.drawAnswer; split <;> exact ⟨rfl, rfl⟩

theorem action_keeps {d : Dev} {c : Word} {acc : BitVec 3} {s t : State}
    (h : action d c acc s = .ok t) : ActionKeeps s t := by
  unfold action at h
  split at h
  · split at h
    · unfold actionOutput at h
      split at h
      · cases h
      · simp at h; subst h; exact ⟨rfl, rfl⟩
    · simp at h; subst h; exact ⟨rfl, rfl⟩
  · have := ActionKeeps.drawAnswer s
    split at h
    · simp only [actionSkip, Res.ok.injEq] at h; subst h
      split
      · exact ⟨this.rest, by rw [State.skip, State.psw_setPc]; exact this.psw⟩
      · exact this
    · split at h
      · unfold actionRead at h
        split at h
        · cases h
        · rename_i hacc
          simp at h; subst h
          exact ⟨this.rest, by rw [State.psw_setAc _ _ _ hacc]; exact this.psw⟩
      · simp at h; subst h; exact ⟨rfl, rfl⟩

theorem action_no_check {d : Dev} {c : Word} {acc : BitVec 3} {s : State} {k : CheckKind} {a : Addr} :
    action d c acc s ≠ .check k a := by
  unfold action actionOutput actionSkip actionRead
  split <;> split_ifs <;> simp

/-- The perform step (R226): the action, IO cleared, and this device with nothing pending. -/
theorem devPerform_ok {d : Dev} {c : Word} {s t : State} (h : devPerform d c s = .ok t) :
    { t with regs := s.regs, draws := s.draws, answers := s.answers, out := s.out, outAgent := s.outAgent,
             inAgent := s.inAgent } = s ∧
    t.psw = packPsw s.lk s.op false s.ex s.id s.cycle s.tmp s.acc ∧ t.agent d = { s.agent d with pending := none } ∧
    (∀ d', d' ≠ d → t.agent d' = s.agent d') := by
  unfold devPerform at h
  rw [Res.bind_eq_ok] at h
  obtain ⟨u, h1, h2⟩ := h
  obtain ⟨r, p⟩ := action_keeps h1
  simp at h2; subst h2
  obtain ⟨g1, g2, g3, g4, g5, g6, g7, g8⟩ := State.fields_of_psw (p.trans s.psw_eq_pack)
  refine ⟨?_, ?_, ?_, ?_⟩
  · have : { u.setIo false with regs := u.regs } = u := rfl
    cases d <;> (cases s; cases u; simp_all [State.setAgent, State.setIo, State.setPsw, State.setX])
  · have : ∀ (v : State) d a, (v.setAgent d a).psw = v.psw := by intro v d a; cases d <;> rfl
    rw [this]; apply State.psw_of_fields <;> simp [*]
  · cases d <;> (cases s; cases u; simp_all [State.setAgent, State.agent, State.setIo, State.setPsw, State.setX])
  · intro d' hd; cases d <;> cases d' <;> first
    | exact absurd rfl hd
    | (cases s; cases u; simp_all [State.setAgent, State.agent, State.setIo, State.setPsw, State.setX])

theorem devPerform_no_check {d : Dev} {c : Word} {s : State} {k : CheckKind} {a : Addr} :
    devPerform d c s ≠ .check k a := by
  unfold devPerform
  cases h : action d c s.acc s with
  | ok u => simp
  | check k a => exact absurd h action_no_check
  | refuse r => simp

theorem devFinish_no_check {d : Dev} {s : State} {k : CheckKind} {a : Addr} : devFinish d s ≠ .check k a := by
  unfold devFinish; split
  · exact devPerform_no_check
  · simp

/-- What a device or the end of a run may change: slots, OUT, the agents' pending commands and running flags, the
console's answers, and of the PSW IO, which it may only clear. -/
def DeviceKeeps (s t : State) : Prop :=
  { t with regs := s.regs, draws := s.draws, answers := s.answers, out := s.out, outAgent := s.outAgent,
           inAgent := s.inAgent, running := s.running } = s ∧
  t.outAgent.unit = s.outAgent.unit ∧ t.inAgent.unit = s.inAgent.unit ∧
  (∃ io, t.psw = packPsw s.lk s.op io s.ex s.id s.cycle s.tmp s.acc ∧ (io = true → s.io = true))

theorem DeviceKeeps.refl (s : State) : DeviceKeeps s s := ⟨rfl, rfl, rfl, s.io, s.psw_eq_pack, fun h => h⟩
theorem DeviceKeeps.trans {s t u : State} (h : DeviceKeeps s t) (g : DeviceKeeps t u) : DeviceKeeps s u := by
  obtain ⟨h1, h2, h3, io, h4, h5⟩ := h
  obtain ⟨g1, g2, g3, io', g4, g5⟩ := g
  obtain ⟨f1, f2, f3, f4, f5, f6, f7, f8⟩ := State.fields_of_psw h4
  refine ⟨?_, g2.trans h2, g3.trans h3, io', ?_, ?_⟩
  · cases s; cases t; cases u; simp_all
  · rw [g4, f1, f2, f4, f5, f6, f7, f8]
  · rw [f3] at g5; exact fun h => h5 (g5 h)

theorem devPerform_keeps {d : Dev} {c : Word} {s t : State} (h : devPerform d c s = .ok t) : DeviceKeeps s t := by
  obtain ⟨h1, h2, h3, h4⟩ := devPerform_ok h
  refine ⟨?_, ?_, ?_, false, h2, by simp⟩
  · cases s; cases t; simp_all
  · cases d
    · have := congrArg Agent.unit h3; exact this
    · have := congrArg Agent.unit (h4 .output (by decide)); exact this
  · cases d
    · have := congrArg Agent.unit (h4 .input (by decide)); exact this
    · have := congrArg Agent.unit h3; exact this

theorem devFinish_keeps {d : Dev} {s t : State} (h : devFinish d s = .ok t) : DeviceKeeps s t := by
  unfold devFinish at h
  split at h
  · exact devPerform_keeps h
  · simp at h; subst h; exact DeviceKeeps.refl _

theorem stopAgent_keeps {d : Dev} {s t : State} (h : stopAgent d s = .ok t) : DeviceKeeps s t := by
  unfold stopAgent at h
  split at h
  · rw [Res.bind_eq_ok] at h
    obtain ⟨u, h1, h2⟩ := h
    simp at h2; subst h2
    refine (devFinish_keeps h1).trans ?_
    cases d <;> exact ⟨rfl, rfl, rfl, u.io, u.psw_eq_pack, fun h => h⟩
  · simp at h; subst h; exact DeviceKeeps.refl _

/-- An agent with nothing claimed just stops (R379). -/
theorem stopAgent_idle {d : Dev} {s : State} (h : (s.agent d).pending = none) :
    stopAgent d s = .ok (s.setAgent d { s.agent d with running := false }) := by
  unfold stopAgent
  split
  · simp [devFinish, h]
  · have : { s.agent d with running := false } = s.agent d := by cases h : s.agent d; simp_all
    rw [this]; cases d <;> rfl

/-- A running agent with a claimed command performs it and stops (R379). -/
theorem stopAgent_claimed {d : Dev} {s t : State} {c : Word} (hr : (s.agent d).running = true)
    (hp : (s.agent d).pending = some c) (h : devPerform d c s = .ok t) :
    stopAgent d s = .ok (t.setAgent d { t.agent d with running := false }) := by
  simp [stopAgent, devFinish, hr, hp, h]

theorem endOfRun_keeps {s t : State} (h : endOfRun s = .ok t) : DeviceKeeps s t ∧ t.running = false := by
  unfold endOfRun at h
  rw [Res.bind_eq_ok] at h
  obtain ⟨u, h1, h2⟩ := h
  rw [Res.bind_eq_ok] at h2
  obtain ⟨v, h2, h3⟩ := h2
  simp at h3; subst h3
  exact ⟨((stopAgent_keeps h1).trans (stopAgent_keeps h2)).trans ⟨rfl, rfl, rfl, v.io, v.psw_eq_pack, fun h => h⟩, rfl⟩

theorem Res.bind_ne_check {α β : Type} {r : Res α} {f : α → Res β} (h1 : ∀ k b, r ≠ .check k b)
    (h2 : ∀ u k b, f u ≠ .check k b) : ∀ k b, r.bind f ≠ .check k b := by
  intro k b; cases r <;> simp_all

theorem stopAgent_no_check {d : Dev} {s : State} {k : CheckKind} {a : Addr} : stopAgent d s ≠ .check k a := by
  unfold stopAgent
  split
  · exact Res.bind_ne_check (fun _ _ => devFinish_no_check) (by simp) _ _
  · simp

theorem endOfRun_no_check {s : State} {k : CheckKind} {a : Addr} : endOfRun s ≠ .check k a :=
  Res.bind_ne_check (fun _ _ => stopAgent_no_check) (fun _ => Res.bind_ne_check (fun _ _ => stopAgent_no_check) (by simp)) _ _

/-- A next state without a machine check is what the step did. -/
theorem Res.outcome_next_ok {s t : State} {r : Res State} (h : r.outcome s = .next t) (hn : ∀ k a, r ≠ .check k a) :
    r = .ok t := by
  rw [Res.outcome_eq_next] at h
  rcases h with h | ⟨k, a, h, _⟩
  · exact h
  · exact absurd h (hn k a)

theorem DeviceKeeps.canon {s t : State} (h : DeviceKeeps s t) : CanonicalMemory s → CanonicalMemory t := by
  intro hc
  have e1 : t.zp = s.zp := by have := congrArg State.zp h.1; exact this
  have e2 : t.mem = s.mem := by have := congrArg State.mem h.1; exact this
  unfold CanonicalMemory; rw [e1, e2]; exact hc

theorem DeviceKeeps.engine {s t : State} (h : DeviceKeeps s t) : EngineLegal s → EngineLegal t := by
  intro he
  have e1 : t.ea = s.ea := by have := congrArg State.ea h.1; exact this
  obtain ⟨-, -, -, io, h4, h5⟩ := h
  obtain ⟨f1, f2, f3, f4, f5, f6, f7, f8⟩ := State.fields_of_psw h4
  unfold EngineLegal LegalCycle; rw [f3, f5, f6, f7, f8, e1]
  obtain ⟨q1, q2, q3, q5, q6, q7⟩ := he
  exact ⟨q1, q2, q3, q5, q6, fun h => q7 (h5 h)⟩

theorem State.drawTurn_rest (s : State) : { s.drawTurn.2 with turns := s.turns, draws := s.draws } = s := by
  unfold State.drawTurn; split <;> rfl

/-- A step of a run is a turn of the loop, a perform step or a claim step (R374). -/
theorem runStep_cases {s t : State} (hs : runStep s = .next t) :
    loopStep s.drawTurn.2 = .next t ∨ (∃ d, devFinish d s.drawTurn.2 = .ok t ∧ s.drawTurn.2.canPerform d = true) ∨
    (∃ d, t = devClaim d s.drawTurn.2 ∧ s.drawTurn.2.canClaim d = true) := by
  have dm : ∀ d s1, devMove d s1 = .next t → loopStep s1 = .next t ∨ (devFinish d s1 = .ok t ∧ s1.canPerform d = true) ∨
      (t = devClaim d s1 ∧ s1.canClaim d = true) := by
    intro d s1 h
    unfold devMove at h
    split at h
    · rename_i hc; exact Or.inr (Or.inl ⟨Res.outcome_next_ok h (fun _ _ => devFinish_no_check), hc⟩)
    split at h
    · rename_i hc; simp at h; exact Or.inr (Or.inr ⟨h.symm, hc⟩)
    · exact Or.inl h
  unfold runStep at hs
  split at hs
  · rename_i s1 hd; rw [hd]; exact Or.inl hs
  · rename_i s1 hd; rw [hd]
    rcases dm _ _ hs with h | h | h
    · exact Or.inl h
    · exact Or.inr (Or.inl ⟨_, h⟩)
    · exact Or.inr (Or.inr ⟨_, h⟩)
  · rename_i s1 hd; rw [hd]
    rcases dm _ _ hs with h | h | h
    · exact Or.inl h
    · exact Or.inr (Or.inl ⟨_, h⟩)
    · exact Or.inr (Or.inr ⟨_, h⟩)

/-- A turn of the loop ends the run or is one CPU step, counted (R374, R375). -/
theorem loopStep_cases {s t : State} (h : loopStep s = .next t) :
    ((s.cancel = true ∨ s.cycle = 15#4) ∧ endOfRun s = .ok t) ∨
    (s.cancel = false ∧ s.cycle ≠ 15#4 ∧ ∃ u, cpuStep s = .next u ∧ t = { u with count := u.count + 1 }) := by
  unfold loopStep at h
  split at h
  · rename_i hc; exact Or.inl ⟨hc, Res.outcome_next_ok h (fun _ _ => endOfRun_no_check)⟩
  · rename_i hc
    rw [not_or] at hc
    refine Or.inr ⟨by simpa using hc.1, hc.2, ?_⟩
    split at h
    · rename_i u hu; simp at h; exact ⟨u, hu, h.symm⟩
    · cases h
    · cases h

end Sys2Proof.Machine
end

