-- ==== Sys2Proof/Laws/Exec.lean ====
section
/-! SUPPORT. What an instruction's FETCH can leave (`40_cycle_engine.md` R142, R144, R147), for every constructor at once. -/

namespace Sys2Proof.Machine

/-- A FETCH without a machine check ends by choosing the next cycle state. -/
theorem endFetch_next {s t : State} {r : Res State} (h : endFetch s r = .next t) (hnc : ∀ k a, r ≠ .check k a) :
    ∃ u, r = .ok u ∧ t = u.selectCycle := by
  unfold endFetch at h
  cases r with
  | ok u => simp at h; exact ⟨u, rfl, h.symm⟩
  | check k a => exact absurd rfl (hnc k a)
  | refuse r => simp at h

/-- The FETCH of an MRI completes, or leaves for INDIRECT-RESOLVE or EXECUTE with its address in EA. -/
theorem fetchMri_cases {op acc : BitVec 3} {i z : Bool} {off : BitVec 8} {s t : State}
    (hs : Fetched s) (h : fetchMri op acc i z off s = .next t) :
    CpuKeeps s t ∧ t.zp = s.zp ∧ t.mem = s.mem ∧ t.wb = s.wb ∧ t.mcheck = s.mcheck ∧ t.mailbox = s.mailbox ∧
    ((t.cycle = 0#4 ∧ t.io = false) ∨
     ((t.cycle = 2#4 ∨ t.cycle = 3#4) ∧ t.io = false ∧ t.ea.toNat < 65536 ∧ t.id = decide (t.cycle = 2#4) ∧
        t.tmp = op.setWidth 4 ∧ t.acc = acc)) := by
  unfold fetchMri at h
  obtain ⟨f1, f2, f3, f4, f5, f6, f7, f8⟩ := State.fields_of_psw (hs.psw_latch op acc)
  have hnc : ∀ k a, mriFetch op acc i z off (s.latch op acc) ≠ .check k a := by
    intro k a
    unfold mriFetch
    simp only
    split
    · rename_i hc; simp [inFile] at hc; exact effect_inFile_no_check (by simpa using hc.2)
    · split_ifs <;> simp
  obtain ⟨u, hu, rfl⟩ := endFetch_next h hnc
  unfold mriFetch at hu
  simp only [State.pc_latch] at hu
  have ha := address_lt s.pc z off
  rw [State.selectCycle_eq]
  split at hu
  · rename_i hc; simp [inFile] at hc
    obtain ⟨hr, lk, hp, -⟩ := effect_inFile hc.2 hu
    rw [f2, f3, f4, f5, f6, f7, f8] at hp
    obtain ⟨g1, g2, g3, g4, g5, g6, g7, g8⟩ := State.fields_of_psw hp
    have hr' : { u with regs := s.regs, draws := s.draws } = s := by
      have e : { s.latch op acc with regs := s.regs } = s := rfl
      rw [SlotsOnly] at hr
      rw [← hr] at e; exact e
    have hc' : CpuKeeps s u := by cases s; cases u; simp_all [CpuKeeps]
    refine ⟨hc', ?_, ?_, ?_, ?_, ?_, Or.inl ⟨?_, ?_⟩⟩
    · have e := congrArg State.zp hr'; exact e
    · have e := congrArg State.mem hr'; exact e
    · have e := congrArg State.wb hr'; exact e
    · have e := congrArg State.mcheck hr'; exact e
    · have e := congrArg State.mailbox hr'; exact e
    · simp [g6, State.nextAfterFetch, g5, g4, g3, cycleFetch]
    · simp [g3]
  · rename_i hni
    split at hu
    · rename_i hc
      simp at hu; subst hu
      have hp := ((s.latch op acc).setEx true).psw_resolvePointer (address s.pc z off)
      rw [show ((s.latch op acc).setEx true).psw = packPsw s.lk false false true false 0#4 (op.setWidth 4) acc by
        apply State.psw_of_fields <;> simp [*]] at hp
      obtain ⟨g1, g2, g3, g4, g5, g6, g7, g8⟩ := State.fields_of_psw hp
      have hrs : ∃ r n, (((s.latch op acc).setEx true).resolvePointer (address s.pc z off)).2 =
          { s with regs := r, draws := n } := by
        unfold State.resolvePointer
        obtain ⟨n, hn⟩ := ((s.latch op acc).setEx true).readSlot_state ((address s.pc z off).setWidth 4)
        simp only [hn]
        split <;> exact ⟨_, _, rfl⟩
      obtain ⟨r, n, hrs⟩ := hrs
      have hbnd : (((s.latch op acc).setEx true).resolvePointer (address s.pc z off)).1.toNat < 65536 := by
        unfold State.resolvePointer
        simp only [BitVec.toNat_setWidth]
        have := (((s.latch op acc).setEx true).readSlot ((address s.pc z off).setWidth 4)).1.isLt
        omega
      clear h hnc hni
      generalize ((s.latch op acc).setEx true).resolvePointer (address s.pc z off) = p at *
      obtain ⟨p1, p2⟩ := p
      simp only at *
      refine ⟨?_, ?_, ?_, ?_, ?_, ?_, Or.inr ⟨?_, ?_, ?_, ?_, ?_, ?_⟩⟩
      · rw [hrs]; rfl
      · rw [hrs]; rfl
      · rw [hrs]; rfl
      · rw [hrs]; rfl
      · rw [hrs]; rfl
      · rw [hrs]; rfl
      · right; clear hrs; simp [State.nextAfterFetch, *, cycleExecute]
      · clear hrs; simp [*]
      · exact hbnd
      · clear hrs; rw [State.id_setCycle, State.cycle_setCycle]; simp [State.nextAfterFetch, *, cycleExecute]
      · exact (State.tmp_setCycle _ _).trans g7
      · exact (State.acc_setCycle _ _).trans g8
    · split at hu
      · simp at hu; subst hu
        refine ⟨rfl, rfl, rfl, rfl, rfl, rfl, Or.inr ⟨?_, ?_, ?_, ?_, ?_, ?_⟩⟩
        · left; simp [State.nextAfterFetch, *, cycleIndirect]
        · simp [*]
        · exact ha
        · simp [State.nextAfterFetch, *, cycleIndirect]
        · simp [*]
        · simp [*]
      · simp at hu; subst hu
        refine ⟨rfl, rfl, rfl, rfl, rfl, rfl, Or.inr ⟨?_, ?_, ?_, ?_, ?_, ?_⟩⟩
        · right; simp [State.nextAfterFetch, *, cycleExecute]
        · simp [*]
        · exact ha
        · simp [State.nextAfterFetch, *, cycleExecute]
        · simp [*]
        · simp [*]

/-! LK through the engine (R25). -/

@[simp] theorem State.lk_selectCycle (s : State) : s.selectCycle.lk = s.lk := by unfold State.selectCycle; split <;> simp

@[simp] theorem takeMachineCheck_lk (k : CheckKind) (a : Addr) (s : State) : (takeMachineCheck k a s).lk = s.lk :=
  State.lk_setCycle s cycleHalted

@[simp] theorem State.lk_resolvePointer (s : State) (a : Addr) : (s.resolvePointer a).2.lk = s.lk := by
  simp [State.lk, State.psw_resolvePointer]

/-- A step that does not change LK where it goes through does not change it where it takes a machine check. -/
theorem Res.outcome_lk {s t : State} {r : Res State} (h : r.outcome s = .next t) (hr : ∀ u, r = .ok u → u.lk = s.lk) :
    t.lk = s.lk := by
  rcases Res.outcome_eq_next.1 h with h | ⟨k, a, -, rfl⟩
  · exact hr _ h
  · exact takeMachineCheck_lk k a s

/-- The same of FETCH. -/
theorem endFetch_lk {s t : State} {r : Res State} (h : endFetch s r = .next t) (hr : ∀ u, r = .ok u → u.lk = s.lk) :
    t.lk = s.lk := by
  refine Res.outcome_lk h fun v hv => ?_
  obtain ⟨u, hu, hv⟩ := Res.bind_eq_ok.1 hv
  cases hv
  simpa using hr u hu

/-- No effect but TAD's changes LK. -/
theorem effect_lk {op acc : BitVec 3} {a : Addr} {s t : State} (ho : op ≠ 1#3) (h : effect op acc a s = .ok t) :
    t.lk = s.lk := by
  obtain ⟨-, -, -, -, -, lk, id, hp, -, hl⟩ := effect_ok h
  rw [← hl ho]; exact (State.fields_of_psw hp).1

/-- The state in which the operations of an OPR run: latched, OP set (R142, R260). -/
abbrev State.oprStart (s : State) (acc : BitVec 3) : State := (s.latch 7#3 acc).setOp true

/-- What the operations of an OPR may do to `s0`: write slots, and of the PSW LK, and CYCLE by HLT. -/
structure OprKeeps (s0 u : State) (lk : Bool) : Prop where
  rest : SlotsOnly s0 u
  psw : ∃ cyc, (cyc = 0#4 ∨ cyc = 15#4) ∧ u.psw = packPsw lk s0.op s0.io s0.ex s0.id cyc s0.tmp s0.acc

namespace OprKeeps

variable {s0 u : State} {lk lk' : Bool} {d : BitVec 3}

protected theorem refl (h : s0.cycle = 0#4) : OprKeeps s0 s0 s0.lk :=
  ⟨SlotsOnly.refl _, 0#4, Or.inl rfl, by rw [← h]; exact s0.psw_eq_pack⟩

theorem setAc (hd : d ≠ 7#3) (h : OprKeeps s0 u lk) (v : Word) : OprKeeps s0 (u.setAc d v) lk :=
  ⟨h.rest.trans (SlotsOnly.setX _ _ _), by rw [State.psw_setAc _ _ _ hd]; exact h.psw⟩

theorem setPc (h : OprKeeps s0 u lk) (v : Word) : OprKeeps s0 (u.setPc v) lk :=
  ⟨h.rest.trans (SlotsOnly.setX _ _ _), by rw [State.psw_setPc]; exact h.psw⟩

theorem setLk (h : OprKeeps s0 u lk) (b : Bool) : OprKeeps s0 (u.setLk b) b := by
  obtain ⟨c, hc, hp⟩ := h.psw
  obtain ⟨g1, g2, g3, g4, g5, g6, g7, g8⟩ := State.fields_of_psw hp
  exact ⟨h.rest.trans (SlotsOnly.setX _ _ _), c, hc, by apply State.psw_of_fields <;> simp [*]⟩

theorem hlt (h : OprKeeps s0 u lk) : OprKeeps s0 (opHlt u) lk := by
  obtain ⟨c, hc, hp⟩ := h.psw
  obtain ⟨g1, g2, g3, g4, g5, g6, g7, g8⟩ := State.fields_of_psw hp
  exact ⟨h.rest.trans (SlotsOnly.setX _ _ _), 15#4, Or.inr rfl, by
    unfold opHlt; apply State.psw_of_fields <;> simp [*, cycleHalted]⟩

theorem doIf {f : State → State} (b : Bool) (h : OprKeeps s0 u lk) (g : OprKeeps s0 (f u) lk') :
    OprKeeps s0 (u.doIf b f) (if b then lk' else lk) := by
  cases b <;> simpa [State.doIf]

end OprKeeps

theorem Fetched.oprStart_cycle {s : State} (hs : Fetched s) (acc : BitVec 3) : (s.oprStart acc).cycle = 0#4 := by
  obtain ⟨-, -, -, -, -, h, -, -⟩ := State.fields_of_psw (hs.psw_latch 7#3 acc)
  simp [h]

/-- Group 1 writes AC and LK (R261). -/
theorem group1_keeps {s0 : State} {d : BitVec 3} (hd : d ≠ 7#3) (h : s0.cycle = 0#4) (cla cll cma cml iac : Bool)
    (rot : Rot) : ∃ lk, OprKeeps s0 (group1 d cla cll cma cml iac rot s0) lk := by
  have h0 := OprKeeps.refl h
  have h1 := h0.doIf cla (f := opCla d) (h0.setAc hd 0#16)
  have h2 := h1.doIf cll (f := opCll) (h1.setLk false)
  have h3 := h2.doIf cma (f := opCma d) (h2.setAc hd _)
  have h4 := h3.doIf cml (f := opCml) (h3.setLk _)
  have h5 := h4.doIf iac (f := opIac d) ((h4.setAc hd _).setLk _)
  exact ⟨_, (h5.setAc hd _).setLk _⟩

/-- Group 2 writes AC and PC, and CYCLE by HLT (R275). -/
theorem group2_keeps {s0 : State} {d : BitVec 3} (hd : d ≠ 7#3) (h : s0.cycle = 0#4) (skips : Word → Bool → Bool)
    (cla osr hlt : Bool) : ∃ lk, OprKeeps s0 (group2 d skips cla osr hlt s0) lk := by
  have h0 := OprKeeps.refl h
  have h1 := h0.doIf (skips (s0.ac d) s0.lk) (f := State.skip) (h0.setPc _)
  have h2 := h1.doIf cla (f := opCla d) (h1.setAc hd 0#16)
  have h3 := h2.doIf osr (f := opOsr d) (h2.setAc hd _)
  exact ⟨_, h3.doIf hlt (f := opHlt) h3.hlt⟩

/-- What an instruction run by FETCH in `s` can leave: the arrays, WB and the record as they were; and FETCH done or
HALTED, or an MRI pending, or a command posted and IO-WAIT. -/
structure ExecLeaves (s t : State) : Prop where
  rest : CpuKeeps s t
  zp : t.zp = s.zp
  mem : t.mem = s.mem
  wb : t.wb = s.wb
  mcheck : t.mcheck = s.mcheck
  next :
    (t.mailbox = s.mailbox ∧ (t.cycle = 0#4 ∨ t.cycle = 15#4) ∧ t.io = false) ∨
    (t.mailbox = s.mailbox ∧ (t.cycle = 2#4 ∨ t.cycle = 3#4) ∧ t.io = false ∧ t.ea.toNat < 65536 ∧
      t.id = decide (t.cycle = 2#4) ∧ LegalForm t.tmp t.acc) ∨
    (t.cycle = 4#4 ∧ t.io = true ∧ t.acc ≠ 7#3 ∧ t.mailbox.cmd ≠ Config.mailboxEmpty)

theorem ExecLeaves.of_mri {op acc : BitVec 3} {i z : Bool} {off : BitVec 8} {s t : State} (hs : Fetched s)
    (hl : LegalForm (op.setWidth 4) acc) (h : fetchMri op acc i z off s = .next t) : ExecLeaves s t := by
  obtain ⟨h1, h2, h3, h4, h5, h6, h7⟩ := fetchMri_cases hs h
  refine ⟨h1, h2, h3, h4, h5, ?_⟩
  rcases h7 with ⟨a, b⟩ | ⟨a, b, c, d, e, f⟩
  · exact Or.inl ⟨h6, Or.inl a, b⟩
  · exact Or.inr (Or.inl ⟨h6, a, b, c, d, by rw [e, f]; exact hl⟩)

theorem ExecLeaves.of_opr {s t u : State} {acc : BitVec 3} (hs : Fetched s)
    (hk : ∃ lk, OprKeeps (s.oprStart acc) u lk) (h : endFetch s (.ok u) = .next t) : ExecLeaves s t := by
  obtain ⟨-, f2, f3, f4, f5, -, -, -⟩ := State.fields_of_psw (hs.psw_latch 7#3 acc)
  obtain ⟨lk, hr, c, hc, hp⟩ := hk
  obtain ⟨-, -, g3, g4, g5, g6, -, -⟩ := State.fields_of_psw hp
  cases h
  rw [State.selectCycle_eq]
  have hr' : { u with regs := s.regs, draws := s.draws } = s := by
    have e : { s.oprStart acc with regs := s.regs } = s := rfl
    rw [SlotsOnly] at hr
    rw [← hr] at e; exact e
  have hu : CpuKeeps s u := by cases s; cases u; simp_all [CpuKeeps]
  refine ⟨hu, ?_, ?_, ?_, ?_, Or.inl ⟨?_, ?_, ?_⟩⟩
  · have e := congrArg State.zp hr'; exact e
  · have e := congrArg State.mem hr'; exact e
  · have e := congrArg State.wb hr'; exact e
  · have e := congrArg State.mcheck hr'; exact e
  · have e := congrArg State.mailbox hr'; exact e
  · rcases hc with rfl | rfl <;> simp [g6, State.nextAfterFetch, g5, g4, g3, f3, f4, f5, cycleFetch]
  · simp [g3, f3]

/-- `Attn` posts the command where the unit's slot is bound (R66, R222). -/
theorem State.attn_some {s t : State} {unit : Nat} {cmd : Word} (h : s.attn unit cmd = some t) :
    t = { s with mailbox := { unit := BitVec.ofNat 8 unit, cmd := cmd } } := by
  unfold State.attn at h
  split at h
  · cases h
  · exact (Option.some.inj h).symm

theorem ExecLeaves.of_iot {acc : BitVec 3} {unit : BitVec 6} {fn : BitVec 3} {s t : State} (hacc : acc ≠ 7#3)
    (hs : Fetched s) (h : execIot acc unit fn s = .next t) : ExecLeaves s t := by
  obtain ⟨-, f2, f3, f4, f5, f6, -, f8⟩ := State.fields_of_psw (hs.psw_latch 6#3 acc)
  have hfn : fn.setWidth 16 ≠ Config.mailboxEmpty := by
    intro e; have := congrArg BitVec.toNat e; have := fn.isLt; simp [Config.mailboxEmpty] at *; omega
  unfold execIot iotIssue at h
  simp only at h
  split at h
  · rename_i s1 h1
    have := State.attn_some h1; subst this; clear h1
    cases h
    rw [State.selectCycle_eq]
    refine ⟨rfl, rfl, rfl, rfl, rfl, Or.inr (Or.inr ⟨?_, ?_, ?_, hfn⟩)⟩
    · simp [State.nextAfterFetch, *, cycleIoWait]
    · simp
    · simp [*]
  · cases h
    rw [State.selectCycle_eq]
    refine ⟨rfl, rfl, rfl, rfl, rfl, Or.inl ⟨rfl, ?_, ?_⟩⟩
    · simp [State.nextAfterFetch, *, cycleFetch]
    · simp

theorem isReg_ne {r : BitVec 3} (h : isReg r = true) : r ≠ 7#3 := by simpa [isReg] using h

/-- Every instruction, on the state FETCH calls it in. -/
theorem exec_leaves {i : Instr} {s t : State} (hw : i.WellFormed = true) (hs : Fetched s) (h : exec i s = .next t) :
    ExecLeaves s t := by
  have shiftReg : ∀ {f d r}, d ≠ 7#3 → fetchShiftReg f d r s = .next t → ExecLeaves s t := by
    intro f d r hd hh
    unfold fetchShiftReg fetchOpr at hh
    simp only at hh
    split at hh
    · cases hh
    · exact .of_opr (acc := d) hs ⟨_, ((OprKeeps.refl (hs.oprStart_cycle d)).setAc hd _).setLk _⟩ hh
  have shiftImm : ∀ {f d n}, d ≠ 7#3 → fetchShiftImm f d n s = .next t → ExecLeaves s t := fun {f d n} hd hh =>
    .of_opr (acc := d) hs ⟨_, ((OprKeeps.refl (hs.oprStart_cycle d)).setAc hd _).setLk _⟩ hh
  have g1 : ∀ {d cla cll cma cml iac rot}, d ≠ 7#3 → fetchGroup1 d cla cll cma cml iac rot s = .next t →
      ExecLeaves s t := fun hd hh => .of_opr hs (group1_keeps hd (hs.oprStart_cycle _) _ _ _ _ _ _) hh
  have g2 : ∀ {d sk cla osr hlt}, d ≠ 7#3 → fetchGroup2 d sk cla osr hlt s = .next t → ExecLeaves s t :=
    fun hd hh => .of_opr hs (group2_keeps hd (hs.oprStart_cycle _) _ _ _ _) hh
  have acc1 : ∀ {d : BitVec 3} {v : Word}, d ≠ 7#3 → endFetch s (.ok ((s.oprStart d).setAc d v)) = .next t →
      ExecLeaves s t := fun {d v} hd hh => .of_opr (acc := d) hs ⟨_, (OprKeeps.refl (hs.oprStart_cycle d)).setAc hd _⟩ hh
  cases i <;> simp only [exec] at h
  case and | tad | sta | dca =>
    have := isReg_ne hw
    exact .of_mri hs (by unfold LegalForm; simp [this]) h
  case isz | jms | jmp => exact .of_mri hs (by decide) h
  case iot => exact .of_iot (isReg_ne hw) hs h
  case jmpWithLoad | reservedRot7 | reservedBit0 | jmsReg | acc7 | iotBit9 | g3rSource7 | g3rBit3 | g3rOp3 | g3iOp3 =>
    cases h
  case cla | cll | cma | cml | iac | rar | ral | rtr | rtl | bsw | bsw6 | nop => exact g1 (isReg_ne hw) h
  case sma | sza | snl | spa | sna | szl | skp | cla2 | osr | hlt | nop2 => exact g2 (isReg_ne hw) h
  case shl | shr | sar | rol | ror =>
    simp only [Instr.WellFormed, Bool.and_eq_true] at hw
    exact shiftReg (isReg_ne hw.1) h
  case shli | shri | sari | roli | rori => exact shiftImm (isReg_ne hw) h
  case mov | or | xor =>
    simp only [Instr.WellFormed, Bool.and_eq_true] at hw
    exact acc1 (isReg_ne hw.1) h
  case swp d r =>
    simp only [Instr.WellFormed, Bool.and_eq_true] at hw
    exact .of_opr (acc := d) hs
      ⟨_, ((OprKeeps.refl (hs.oprStart_cycle d)).setAc (isReg_ne hw.1) _).setAc (isReg_ne hw.2) _⟩ h

end Sys2Proof.Machine
end

