-- ==== Sys2Proof/Laws/PerInstr.lean ====
section
/-! SUPPORT. One family of statements for all instructions: the opcode and ACC fields of every instruction's word
(`30_encoding.md` R101, R102). -/

namespace Sys2Proof.Laws.EncodeFields

/-- The opcode of an instruction (R101, R114). -/
def opcode : Instr → BitVec 3
  | .and _ _ _ _ => 0#3
  | .tad _ _ _ _ => 1#3
  | .sta _ _ _ _ => 2#3
  | .isz _ _ _ => 2#3
  | .dca _ _ _ _ => 3#3
  | .jms _ _ _ => 4#3
  | .jmp _ _ _ => 5#3
  | .jmpWithLoad _ _ _ _ => 5#3
  | .iot _ _ _ => 6#3
  | .cla _ _ _ _ _ _ => 7#3
  | .cll _ _ _ _ _ => 7#3
  | .cma _ _ _ _ => 7#3
  | .cml _ _ _ => 7#3
  | .iac _ _ => 7#3
  | .rar _ => 7#3
  | .ral _ => 7#3
  | .rtr _ => 7#3
  | .rtl _ => 7#3
  | .bsw _ => 7#3
  | .bsw6 _ => 7#3
  | .nop _ => 7#3
  | .reservedRot7 _ _ _ => 7#3
  | .sma _ _ _ _ _ _ => 7#3
  | .sza _ _ _ _ _ => 7#3
  | .snl _ _ _ _ => 7#3
  | .spa _ _ _ _ _ _ => 7#3
  | .sna _ _ _ _ _ => 7#3
  | .szl _ _ _ _ => 7#3
  | .skp _ _ _ _ => 7#3
  | .cla2 _ _ _ => 7#3
  | .osr _ _ => 7#3
  | .hlt _ => 7#3
  | .nop2 _ => 7#3
  | .reservedBit0 _ _ => 7#3
  | .mov _ _ => 7#3
  | .swp _ _ => 7#3
  | .or _ _ => 7#3
  | .xor _ _ => 7#3
  | .shl _ _ => 7#3
  | .shr _ _ => 7#3
  | .sar _ _ => 7#3
  | .rol _ _ => 7#3
  | .ror _ _ => 7#3
  | .shli _ _ => 7#3
  | .shri _ _ => 7#3
  | .sari _ _ => 7#3
  | .roli _ _ => 7#3
  | .rori _ _ => 7#3
  | .jmsReg _ _ _ _ => 4#3
  | .acc7 op _ => op
  | .iotBit9 _ _ => 6#3
  | .g3rSource7 _ _ => 7#3
  | .g3rBit3 _ _ _ => 7#3
  | .g3rOp3 _ _ _ => 7#3
  | .g3iOp3 _ _ _ => 7#3

/-- The ACC field of an instruction; 7 where it names no register (R102, R116). -/
def accField : Instr → BitVec 3
  | .and acc _ _ _ => acc
  | .tad acc _ _ _ => acc
  | .sta acc _ _ _ => acc
  | .isz _ _ _ => 7#3
  | .dca acc _ _ _ => acc
  | .jms _ _ _ => 7#3
  | .jmp _ _ _ => 7#3
  | .jmpWithLoad acc _ _ _ => acc
  | .iot acc _ _ => acc
  | .cla acc _ _ _ _ _ => acc
  | .cll acc _ _ _ _ => acc
  | .cma acc _ _ _ => acc
  | .cml acc _ _ => acc
  | .iac acc _ => acc
  | .rar acc => acc
  | .ral acc => acc
  | .rtr acc => acc
  | .rtl acc => acc
  | .bsw acc => acc
  | .bsw6 acc => acc
  | .nop acc => acc
  | .reservedRot7 acc _ _ => acc
  | .sma acc _ _ _ _ _ => acc
  | .sza acc _ _ _ _ => acc
  | .snl acc _ _ _ => acc
  | .spa acc _ _ _ _ _ => acc
  | .sna acc _ _ _ _ => acc
  | .szl acc _ _ _ => acc
  | .skp acc _ _ _ => acc
  | .cla2 acc _ _ => acc
  | .osr acc _ => acc
  | .hlt acc => acc
  | .nop2 acc => acc
  | .reservedBit0 acc _ => acc
  | .mov d _ => d
  | .swp d _ => d
  | .or d _ => d
  | .xor d _ => d
  | .shl d _ => d
  | .shr d _ => d
  | .sar d _ => d
  | .rol d _ => d
  | .ror d _ => d
  | .shli d _ => d
  | .shri d _ => d
  | .sari d _ => d
  | .roli d _ => d
  | .rori d _ => d
  | .jmsReg acc _ _ _ => acc
  | .acc7 _ _ => 7#3
  | .iotBit9 acc _ => acc
  | .g3rSource7 d _ => d
  | .g3rBit3 d _ _ => d
  | .g3rOp3 d _ _ => d
  | .g3iOp3 d _ _ => d

/-- The word of `i` carries its opcode in bits 15:13 and its ACC field in bits 12:10. -/
def Statement (i : Instr) : Prop := Decode.op (encode i) = opcode i ∧ Decode.acc (encode i) = accField i

theorem op_acc_of_bits {w : Word} {op acc : BitVec 3} (ho : ∀ j < 3, w.getLsbD (13 + j) = op.getLsbD j)
    (ha : ∀ j < 3, w.getLsbD (10 + j) = acc.getLsbD j) : Decode.op w = op ∧ Decode.acc w = acc := by
  constructor <;> refine BitVec.eq_of_getLsbD_eq fun j hj => ?_
  · simp only [Decode.op, BitVec.getLsbD_extractLsb', hj, decide_true, Bool.true_and, ho j hj]
  · simp only [Decode.acc, BitVec.getLsbD_extractLsb', hj, decide_true, Bool.true_and, ha j hj]

/-- Three low bit indices. -/
theorem three {j : Nat} (h : j < 3) : j = 0 ∨ j = 1 ∨ j = 2 := by omega

theorem and (acc : BitVec 3) (i : Bool) (z : Bool) (off : BitVec 8) : Statement (.and acc i z off) := by simp [Statement, encode, opcode, accField]

theorem tad (acc : BitVec 3) (i : Bool) (z : Bool) (off : BitVec 8) : Statement (.tad acc i z off) := by simp [Statement, encode, opcode, accField]

theorem sta (acc : BitVec 3) (i : Bool) (z : Bool) (off : BitVec 8) : Statement (.sta acc i z off) := by simp [Statement, encode, opcode, accField]

theorem isz (i : Bool) (z : Bool) (off : BitVec 8) : Statement (.isz i z off) := by simp [Statement, encode, opcode, accField]

theorem dca (acc : BitVec 3) (i : Bool) (z : Bool) (off : BitVec 8) : Statement (.dca acc i z off) := by simp [Statement, encode, opcode, accField]

theorem jms (i : Bool) (z : Bool) (off : BitVec 8) : Statement (.jms i z off) := by simp [Statement, encode, opcode, accField]

theorem jmp (i : Bool) (z : Bool) (off : BitVec 8) : Statement (.jmp i z off) := by simp [Statement, encode, opcode, accField]

theorem jmpWithLoad (acc : BitVec 3) (i : Bool) (z : Bool) (off : BitVec 8) : Statement (.jmpWithLoad acc i z off) := by simp [Statement, encode, opcode, accField]

theorem iot (acc : BitVec 3) (unit : BitVec 6) (fn : BitVec 3) : Statement (.iot acc unit fn) := by
  refine op_acc_of_bits (fun j hj => ?_) (fun j hj => ?_)
  · show @BitVec.getLsbD (3 + 3 + 1 + 6 + 3) (6#3 ++ acc ++ 0#1 ++ unit ++ fn) _ = _
    simp only [BitVec.getLsbD_append]
    rcases three hj with rfl | rfl | rfl <;> simp [opcode]
  · show @BitVec.getLsbD (3 + 3 + 1 + 6 + 3) (6#3 ++ acc ++ 0#1 ++ unit ++ fn) _ = _
    simp only [BitVec.getLsbD_append]
    rcases three hj with rfl | rfl | rfl <;> simp [accField]

theorem cla (acc : BitVec 3) (cll : Bool) (cma : Bool) (cml : Bool) (iac : Bool) (rot : Rot) : Statement (.cla acc cll cma cml iac rot) := by simp [Statement, encode, opcode, accField]

theorem cll (acc : BitVec 3) (cma : Bool) (cml : Bool) (iac : Bool) (rot : Rot) : Statement (.cll acc cma cml iac rot) := by simp [Statement, encode, opcode, accField]

theorem cma (acc : BitVec 3) (cml : Bool) (iac : Bool) (rot : Rot) : Statement (.cma acc cml iac rot) := by simp [Statement, encode, opcode, accField]

theorem cml (acc : BitVec 3) (iac : Bool) (rot : Rot) : Statement (.cml acc iac rot) := by simp [Statement, encode, opcode, accField]

theorem iac (acc : BitVec 3) (rot : Rot) : Statement (.iac acc rot) := by simp [Statement, encode, opcode, accField]

theorem rar (acc : BitVec 3) : Statement (.rar acc) := by simp [Statement, encode, opcode, accField]

theorem ral (acc : BitVec 3) : Statement (.ral acc) := by simp [Statement, encode, opcode, accField]

theorem rtr (acc : BitVec 3) : Statement (.rtr acc) := by simp [Statement, encode, opcode, accField]

theorem rtl (acc : BitVec 3) : Statement (.rtl acc) := by simp [Statement, encode, opcode, accField]

theorem bsw (acc : BitVec 3) : Statement (.bsw acc) := by simp [Statement, encode, opcode, accField]

theorem bsw6 (acc : BitVec 3) : Statement (.bsw6 acc) := by simp [Statement, encode, opcode, accField]

theorem nop (acc : BitVec 3) : Statement (.nop acc) := by simp [Statement, encode, opcode, accField]

theorem reservedRot7 (acc : BitVec 3) (hi : BitVec 4) (lo : Bool) : Statement (.reservedRot7 acc hi lo) := by
  refine op_acc_of_bits (fun j hj => ?_) (fun j hj => ?_)
  · show @BitVec.getLsbD (3 + 3 + 2 + 4 + 3 + 1) (7#3 ++ acc ++ 0#2 ++ hi ++ 7#3 ++ BitVec.ofBool lo) _ = _
    simp only [BitVec.getLsbD_append]
    rcases three hj with rfl | rfl | rfl <;> simp [opcode]
  · show @BitVec.getLsbD (3 + 3 + 2 + 4 + 3 + 1) (7#3 ++ acc ++ 0#2 ++ hi ++ 7#3 ++ BitVec.ofBool lo) _ = _
    simp only [BitVec.getLsbD_append]
    rcases three hj with rfl | rfl | rfl <;> simp [accField]

theorem sma (acc : BitVec 3) (sza : Bool) (snl : Bool) (cla : Bool) (osr : Bool) (hlt : Bool) : Statement (.sma acc sza snl cla osr hlt) := by simp [Statement, encode, opcode, accField]

theorem sza (acc : BitVec 3) (snl : Bool) (cla : Bool) (osr : Bool) (hlt : Bool) : Statement (.sza acc snl cla osr hlt) := by simp [Statement, encode, opcode, accField]

theorem snl (acc : BitVec 3) (cla : Bool) (osr : Bool) (hlt : Bool) : Statement (.snl acc cla osr hlt) := by simp [Statement, encode, opcode, accField]

theorem spa (acc : BitVec 3) (sna : Bool) (szl : Bool) (cla : Bool) (osr : Bool) (hlt : Bool) : Statement (.spa acc sna szl cla osr hlt) := by simp [Statement, encode, opcode, accField]

theorem sna (acc : BitVec 3) (szl : Bool) (cla : Bool) (osr : Bool) (hlt : Bool) : Statement (.sna acc szl cla osr hlt) := by simp [Statement, encode, opcode, accField]

theorem szl (acc : BitVec 3) (cla : Bool) (osr : Bool) (hlt : Bool) : Statement (.szl acc cla osr hlt) := by simp [Statement, encode, opcode, accField]

theorem skp (acc : BitVec 3) (cla : Bool) (osr : Bool) (hlt : Bool) : Statement (.skp acc cla osr hlt) := by simp [Statement, encode, opcode, accField]

theorem cla2 (acc : BitVec 3) (osr : Bool) (hlt : Bool) : Statement (.cla2 acc osr hlt) := by simp [Statement, encode, opcode, accField]

theorem osr (acc : BitVec 3) (hlt : Bool) : Statement (.osr acc hlt) := by simp [Statement, encode, opcode, accField]

theorem hlt (acc : BitVec 3) : Statement (.hlt acc) := by simp [Statement, encode, opcode, accField]

theorem nop2 (acc : BitVec 3) : Statement (.nop2 acc) := by simp [Statement, encode, opcode, accField]

theorem reservedBit0 (acc : BitVec 3) (hi : BitVec 7) : Statement (.reservedBit0 acc hi) := by
  refine op_acc_of_bits (fun j hj => ?_) (fun j hj => ?_)
  · show @BitVec.getLsbD (3 + 3 + 2 + 7 + 1) (7#3 ++ acc ++ 1#2 ++ hi ++ 1#1) _ = _
    simp only [BitVec.getLsbD_append]
    rcases three hj with rfl | rfl | rfl <;> simp [opcode]
  · show @BitVec.getLsbD (3 + 3 + 2 + 7 + 1) (7#3 ++ acc ++ 1#2 ++ hi ++ 1#1) _ = _
    simp only [BitVec.getLsbD_append]
    rcases three hj with rfl | rfl | rfl <;> simp [accField]

theorem mov (d : BitVec 3) (s : BitVec 3) : Statement (.mov d s) := by simp [Statement, encode, opcode, accField]

theorem swp (d : BitVec 3) (s : BitVec 3) : Statement (.swp d s) := by simp [Statement, encode, opcode, accField]

theorem or (d : BitVec 3) (s : BitVec 3) : Statement (.or d s) := by simp [Statement, encode, opcode, accField]

theorem xor (d : BitVec 3) (s : BitVec 3) : Statement (.xor d s) := by simp [Statement, encode, opcode, accField]

theorem shl (d : BitVec 3) (s : BitVec 3) : Statement (.shl d s) := by simp [Statement, encode, opcode, accField]

theorem shr (d : BitVec 3) (s : BitVec 3) : Statement (.shr d s) := by simp [Statement, encode, opcode, accField]

theorem sar (d : BitVec 3) (s : BitVec 3) : Statement (.sar d s) := by simp [Statement, encode, opcode, accField]

theorem rol (d : BitVec 3) (s : BitVec 3) : Statement (.rol d s) := by simp [Statement, encode, opcode, accField]

theorem ror (d : BitVec 3) (s : BitVec 3) : Statement (.ror d s) := by simp [Statement, encode, opcode, accField]

theorem shli (d : BitVec 3) (n : BitVec 4) : Statement (.shli d n) := by simp [Statement, encode, opcode, accField]

theorem shri (d : BitVec 3) (n : BitVec 4) : Statement (.shri d n) := by simp [Statement, encode, opcode, accField]

theorem sari (d : BitVec 3) (n : BitVec 4) : Statement (.sari d n) := by simp [Statement, encode, opcode, accField]

theorem roli (d : BitVec 3) (n : BitVec 4) : Statement (.roli d n) := by simp [Statement, encode, opcode, accField]

theorem rori (d : BitVec 3) (n : BitVec 4) : Statement (.rori d n) := by simp [Statement, encode, opcode, accField]

theorem jmsReg (acc : BitVec 3) (i : Bool) (z : Bool) (off : BitVec 8) : Statement (.jmsReg acc i z off) := by simp [Statement, encode, opcode, accField]

theorem acc7 (op : BitVec 3) (low : BitVec 10) : Statement (.acc7 op low) := by
  refine op_acc_of_bits (fun j hj => ?_) (fun j hj => ?_)
  · show @BitVec.getLsbD (3 + 3 + 10) (op ++ 7#3 ++ low) _ = _
    simp only [BitVec.getLsbD_append]
    rcases three hj with rfl | rfl | rfl <;> simp [opcode]
  · show @BitVec.getLsbD (3 + 3 + 10) (op ++ 7#3 ++ low) _ = _
    simp only [BitVec.getLsbD_append]
    rcases three hj with rfl | rfl | rfl <;> simp [accField]

theorem iotBit9 (acc : BitVec 3) (low : BitVec 9) : Statement (.iotBit9 acc low) := by
  refine op_acc_of_bits (fun j hj => ?_) (fun j hj => ?_)
  · show @BitVec.getLsbD (3 + 3 + 1 + 9) (6#3 ++ acc ++ 1#1 ++ low) _ = _
    simp only [BitVec.getLsbD_append]
    rcases three hj with rfl | rfl | rfl <;> simp [opcode]
  · show @BitVec.getLsbD (3 + 3 + 1 + 9) (6#3 ++ acc ++ 1#1 ++ low) _ = _
    simp only [BitVec.getLsbD_append]
    rcases three hj with rfl | rfl | rfl <;> simp [accField]

theorem g3rSource7 (d : BitVec 3) (op3 : BitVec 4) : Statement (.g3rSource7 d op3) := by simp [Statement, encode, opcode, accField]

theorem g3rBit3 (d : BitVec 3) (op3 : BitVec 4) (low : BitVec 3) : Statement (.g3rBit3 d op3 low) := by simp [Statement, encode, opcode, accField]

theorem g3rOp3 (d : BitVec 3) (op3 : BitVec 4) (s : BitVec 3) : Statement (.g3rOp3 d op3 s) := by simp [Statement, encode, opcode, accField]

theorem g3iOp3 (d : BitVec 3) (op3 : BitVec 4) (n : BitVec 4) : Statement (.g3iOp3 d op3 n) := by simp [Statement, encode, opcode, accField]

end Sys2Proof.Laws.EncodeFields
end

