-- ==== Sys2Proof/Tests/Slice0.lean ====
section
/-! SUPPORT. The model's own tests: the ill-formed terms, a word of the spec for every constructor, one-step vectors of
`95_test_vectors.md`, and a state that meets the hypotheses of each statement. -/

open Sys2Proof Sys2Proof.Machine Sys2Proof.Reference

namespace Sys2Proof.Tests

/-! ## Helpers -/

/-- The machine set up with the default PAGE_MAP and the word `w` at 0x0100, where PC points (`95_test_vectors.md`,
conventions). -/
def start (w : Word) : State := ((setup State.reset).poke (.mem 0x0100#16) w).setPc 0x0100#16

/-- The machine set up, in the middle of a CPU step of the given CYCLE, TMP, ACC and EA. -/
def engine (cycle tmp : BitVec 4) (acc : BitVec 3) (ea : Addr) : State :=
  { (((setup State.reset).setPc 0x0101#16).setPsw (packPsw false false false true false cycle tmp acc)) with ea := ea }

/-- A run in IO-WAIT for accumulator 0, the next turn `t`, the output agent with `o` and the input agent with `i`
claimed, the mailbox with `c` for `unit`. -/
def waiting (t : Turn) (o i : Option Word) (unit : BitVec 8) (c : Word) : State :=
  let s := (start 0xC024#16).setPsw (packPsw false false true false false 4#4 6#4 0#3)
  { s with
    running := true
    turns := [t]
    outAgent := { s.outAgent with running := true, pending := o }
    inAgent := { s.inAgent with running := true, pending := i }
    mailbox := { unit := unit, cmd := c } }

/-- The step answers a next state for which `p` holds. -/
def goes (a : Answer) (p : State → Bool) : Bool :=
  match a with
  | .next t => p t
  | .fault _ => false
  | .refused _ => false

/-- The step is refused for `r`. -/
def stops (a : Answer) (r : Refusal) : Bool :=
  match a with
  | .refused q => q == r
  | .next _ => false
  | .fault _ => false

/-- A device's step ends in a state for which `p` holds. -/
def acts (a : Res State) (p : State → Bool) : Bool :=
  match a with
  | .ok t => p t
  | .check _ _ => false
  | .refuse _ => false

/-- One step of the word `w` at 0x0100 with AC0 = `v` and LK = `l` gives AC0 = `v'` and LK = `l'`. -/
def acc0 (w v : Word) (l : Bool) (v' : Word) (l' : Bool) : Bool :=
  goes (step (((start w).setX 0#4 v).setLk l)) fun t => t.x 0#4 == v' && t.lk == l' && t.cycle == 0#4

/-- The same for PC and AC0 after a group-2 word. -/
def skips (w v : Word) (l : Bool) (pc v' : Word) : Bool :=
  goes (step (((start w).setX 0#4 v).setLk l)) fun t => t.pc == pc && t.x 0#4 == v' && t.lk == l

/-- The same for AC1 and AC2 after a group-3R word. -/
def regs12 (w v1 v2 : Word) (l : Bool) (r1 r2 : Word) (l' : Bool) : Bool :=
  goes (step ((((start w).setX 1#4 v1).setX 2#4 v2).setLk l)) fun t => t.x 1#4 == r1 && t.x 2#4 == r2 && t.lk == l'

/-! ## Ill-formed terms, one for each check (R115, R116) -/

theorem test_wf_acc : Instr.WellFormed (.and 7#3 false false 0#8) = false ∧ Instr.WellFormed (.tad 7#3 false false 0#8) = false ∧
    Instr.WellFormed (.sta 7#3 false false 0#8) = false ∧ Instr.WellFormed (.dca 7#3 false false 0#8) = false ∧
    Instr.WellFormed (.jmpWithLoad 7#3 false false 0#8) = false ∧ Instr.WellFormed (.jmsReg 7#3 false false 0#8) = false ∧
    Instr.WellFormed (.iot 7#3 4#6 4#3) = false := by decide

theorem test_wf_group1 : Instr.WellFormed (.cla 7#3 true false false false .none) = false ∧
    Instr.WellFormed (.cll 7#3 false false false .none) = false ∧ Instr.WellFormed (.cma 7#3 false false .none) = false ∧
    Instr.WellFormed (.cml 7#3 false .none) = false ∧ Instr.WellFormed (.iac 7#3 .none) = false ∧
    Instr.WellFormed (.rar 7#3) = false ∧ Instr.WellFormed (.nop 7#3) = false := by decide

theorem test_wf_group2 : Instr.WellFormed (.sma 7#3 false false false false false) = false ∧
    Instr.WellFormed (.spa 7#3 false false false false false) = false ∧ Instr.WellFormed (.skp 7#3 false false false) = false ∧
    Instr.WellFormed (.cla2 7#3 false false) = false ∧ Instr.WellFormed (.hlt 7#3) = false := by decide

theorem test_wf_group3 : Instr.WellFormed (.mov 7#3 0#3) = false ∧ Instr.WellFormed (.mov 0#3 7#3) = false ∧
    Instr.WellFormed (.shli 7#3 0#4) = false ∧ Instr.WellFormed (.g3rSource7 7#3 0#4) = false ∧
    Instr.WellFormed (.g3rSource7 0#3 9#4) = false ∧ Instr.WellFormed (.g3rOp3 0#3 8#4 0#3) = false ∧
    Instr.WellFormed (.g3iOp3 0#3 4#4 0#4) = false := by decide

/-- `acc7` stands only for the opcodes R116 forbids it to, and not for a word that is reserved. -/
theorem test_wf_acc7 : Instr.WellFormed (.acc7 2#3 0#10) = false ∧ Instr.WellFormed (.acc7 6#3 0x200#10) = false ∧
    Instr.WellFormed (.acc7 7#3 0x00E#10) = false ∧ Instr.WellFormed (.acc7 7#3 0x101#10) = false ∧
    Instr.WellFormed (.acc7 7#3 0x208#10) = false ∧ Instr.WellFormed (.acc7 7#3 0x300#10) = false ∧
    Instr.WellFormed (.acc7 7#3 0#10) = true := by decide

/-! ## Decoding: a word of the spec for every constructor (R103, R106–R113, R120, R121; vectors 2.1 and 2.3–2.7) -/

theorem test_decode_mri :
    decode 0x0101#16 = .and 0#3 false true 0x01#8 ∧ decode 0x2708#16 = .tad 1#3 true true 0x08#8 ∧
    decode 0x4810#16 = .sta 2#3 false false 0x10#8 ∧ decode 0x5C10#16 = .isz false false 0x10#8 ∧
    decode 0x6012#16 = .dca 0#3 false false 0x12#8 ∧ decode 0x9C10#16 = .jms false false 0x10#8 ∧
    decode 0xBE10#16 = .jmp true false 0x10#8 ∧ decode 0xBD05#16 = .jmp false true 0x05#8 := by decide

theorem test_decode_iot : decode 0xC024#16 = .iot 0#3 4#6 4#3 ∧ decode 0xC81E#16 = .iot 2#3 3#6 6#3 ∧
    decode 0xC048#16 = .iot 0#3 9#6 0#3 := by decide

theorem test_decode_group1 :
    decode 0xE0F0#16 = .cla 0#3 true true true false .none ∧ decode 0xE045#16 = .cll 0#3 false false true .ral ∧
    decode 0xE021#16 = .cma 0#3 false true .none ∧ decode 0xE010#16 = .cml 0#3 false .none ∧
    decode 0xE001#16 = .iac 0#3 .none ∧ decode 0xE002#16 = .rar 0#3 ∧ decode 0xE004#16 = .ral 0#3 ∧
    decode 0xE006#16 = .rtr 0#3 ∧ decode 0xE008#16 = .rtl 0#3 ∧ decode 0xE00A#16 = .bsw 0#3 ∧
    decode 0xE00C#16 = .bsw6 0#3 ∧ decode 0xE000#16 = .nop 0#3 ∧ decode 0xE4C0#16 = .cla 1#3 true false false false .none := by
  decide

theorem test_decode_group2 :
    decode 0xE170#16 = .sma 0#3 true true false false false ∧ decode 0xE1A0#16 = .sza 0#3 false true false false ∧
    decode 0xE110#16 = .snl 0#3 false false false ∧ decode 0xE178#16 = .spa 0#3 true true false false false ∧
    decode 0xE128#16 = .sna 0#3 false false false false ∧ decode 0xE118#16 = .szl 0#3 false false false ∧
    decode 0xE108#16 = .skp 0#3 false false false ∧ decode 0xE184#16 = .cla2 0#3 true false ∧
    decode 0xE104#16 = .osr 0#3 false ∧ decode 0xE502#16 = .hlt 1#3 ∧ decode 0xE100#16 = .nop2 0#3 ∧
    decode 0xE122#16 = .sza 0#3 false false false true := by decide

theorem test_decode_group3 :
    decode 0xE602#16 = .mov 1#3 2#3 ∧ decode 0xE612#16 = .swp 1#3 2#3 ∧ decode 0xE622#16 = .or 1#3 2#3 ∧
    decode 0xE632#16 = .xor 1#3 2#3 ∧ decode 0xE642#16 = .shl 1#3 2#3 ∧ decode 0xE652#16 = .shr 1#3 2#3 ∧
    decode 0xE662#16 = .sar 1#3 2#3 ∧ decode 0xE672#16 = .rol 1#3 2#3 ∧ decode 0xE682#16 = .ror 1#3 2#3 ∧
    decode 0xE34F#16 = .shli 0#3 15#4 ∧ decode 0xE351#16 = .shri 0#3 1#4 ∧ decode 0xE362#16 = .sari 0#3 2#4 ∧
    decode 0xE374#16 = .roli 0#3 4#4 ∧ decode 0xE381#16 = .rori 0#3 1#4 := by decide

theorem test_decode_refused :
    decode 0xA000#16 = .jmpWithLoad 0#3 false false 0#8 ∧ decode 0xE00E#16 = .reservedRot7 0#3 0#4 false ∧
    decode 0xE101#16 = .reservedBit0 0#3 0#7 ∧ decode 0x8000#16 = .jmsReg 0#3 false false 0#8 ∧
    decode 0x1C00#16 = .acc7 0#3 0#10 ∧ decode 0xDC24#16 = .acc7 6#3 0x024#10 ∧ decode 0xFC00#16 = .acc7 7#3 0#10 ∧
    decode 0xC200#16 = .iotBit9 0#3 0#9 ∧ decode 0xDE00#16 = .iotBit9 7#3 0#9 ∧
    decode 0xE607#16 = .g3rSource7 1#3 0#4 ∧ decode 0xE608#16 = .g3rBit3 1#3 0#4 0#3 ∧
    decode 0xE690#16 = .g3rOp3 1#3 9#4 0#3 ∧ decode 0xE300#16 = .g3iOp3 0#3 0#4 0#4 := by decide

/-- Encoding gives the words of the spec back (R121, vectors 2.1). -/
theorem test_encode : encode (.tad 1#3 true true 0x08#8) = 0x2708#16 ∧ encode (.jmp true false 0x10#8) = 0xBE10#16 ∧
    encode (.iot 0#3 4#6 4#3) = 0xC024#16 ∧ encode (.cll 0#3 false false true .ral) = 0xE045#16 ∧
    encode (.sza 0#3 false true false false) = 0xE1A0#16 ∧ encode (.shl 1#3 2#3) = 0xE642#16 ∧
    encode (.shli 0#3 1#4) = 0xE341#16 := by decide

/-- The table's numbering is the word's, and a placed word is what the first step runs. -/
theorem test_table_word : decodeTableWord 16 0xC024 = some (.iot 0#3 4#6 4#3) := by decide
theorem test_placed_word : goes (step (State.reset.withFetchWord 16 0xE001)) fun t => t.x 0#4 == 1#16 := by decide

/-! ## One step (vectors 2.3–2.8) -/

theorem test_and_m1 : goes (step (((start 0x0101#16).setX 0#4 0xF0F0#16).setX 1#4 0x3C3C#16))
    (fun t => t.x 0#4 == 0x3030#16 && t.pc == 0x0101#16 && t.cycle == 0#4) = true := by decide
theorem test_and_m2 : goes (step (((engine 3#4 0#4 0#3 0x0110#32).setX 0#4 0xFFFF#16).poke (.mem 0x0110#16) 0x00FF#16))
    (fun t => t.x 0#4 == 0x00FF#16 && t.cycle == 0#4 && !t.ex) = true := by decide
theorem test_tad_m4_m5 : acc0 0x2100#16 0x8001#16 true 0x0002#16 false = true ∧
    acc0 0x210F#16 0#16 false 0x0101#16 false = true := by decide
theorem test_tad_m22 : goes (step ((start 0x2309#16).setX 9#4 0xFFFF#16))
    (fun t => t.x 9#4 == 0#16 && t.ea == 0xFFFF#32 && t.cycle == 3#4) = true := by decide
theorem test_isz_m8 : goes (step ((start 0x5D03#16).setX 3#4 0xFFFF#16))
    (fun t => t.x 3#4 == 0#16 && t.pc == 0x0102#16) = true := by decide
theorem test_isz_m9 : goes (step (start 0x5D0F#16)) (fun t => t.pc == 0x0102#16) = true := by decide
theorem test_sta_m12 : goes (step (((engine 3#4 2#4 2#3 0x0110#32).setX 2#4 0x1234#16)))
    (fun t => t.peek (.mem 0x0110#16) == some 0x1234#16 && t.x 2#4 == 0x1234#16) = true := by decide
theorem test_sta_m13 : goes (step ((start 0x410F#16).setX 0#4 0x0400#16)) (fun t => t.pc == 0x0400#16) = true := by decide
theorem test_dca_m15 : goes (step ((start 0x6100#16).setX 0#4 0x5555#16)) (fun t => t.x 0#4 == 0#16) = true := by decide
theorem test_dca_m16 : stops (step (start 0x6107#16)) .pswWrite = true := by decide
theorem test_jms_m17 : goes (step (engine 3#4 4#4 7#3 0x0110#32))
    (fun t => t.peek (.mem 0x0110#16) == some 0x0101#16 && t.pc == 0x0111#16) = true := by decide
theorem test_jms_m18 : goes (step (start 0x9D0F#16)) (fun t => t.pc == 0x0010#16) = true := by decide
theorem test_jmp_m20 : goes (step (start 0xBD05#16)) (fun t => t.pc == 0x0005#16) = true := by decide
theorem test_jmp_m27 : goes (step ((engine 2#4 5#4 7#3 0x0120#32).poke (.mem 0x0120#16) 0x0234#16))
    (fun t => t.ea == 0x0234#32 && t.cycle == 3#4) = true := by decide
theorem test_iot_v7 : goes (step ((start 0xC024#16).setX 0#4 0x0041#16))
    (fun t => t.io && t.cycle == 4#4 && t.mailbox == { unit := 4#8, cmd := 4#16 }) = true := by decide
theorem test_iot_i1 : goes (step (start 0xC048#16))
    (fun t => !t.io && t.cycle == 0#4 && t.mailbox.cmd == 0xFFFF#16) = true := by decide

theorem test_cla : acc0 0xE080#16 0x1234#16 true 0#16 true = true ∧ acc0 0xE0F0#16 0x1234#16 false 0xFFFF#16 true = true := by
  decide
theorem test_cll : acc0 0xE040#16 0x1234#16 true 0x1234#16 false = true ∧ acc0 0xE045#16 0x7FFF#16 true 0#16 true = true := by
  decide
theorem test_cma : acc0 0xE020#16 0x00FF#16 false 0xFF00#16 false = true ∧ acc0 0xE021#16 0#16 false 0#16 true = true := by
  decide
theorem test_cml : acc0 0xE010#16 0#16 false 0#16 true = true := by decide
theorem test_iac : acc0 0xE001#16 0xFFFF#16 false 0#16 true = true ∧ acc0 0xE001#16 0x7FFF#16 false 0x8000#16 false = true := by
  decide
theorem test_rotations : acc0 0xE002#16 0#16 true 0x8000#16 false = true ∧ acc0 0xE004#16 0x8001#16 false 2#16 true = true ∧
    acc0 0xE006#16 3#16 false 0x8000#16 true = true ∧ acc0 0xE008#16 0xC000#16 false 1#16 true = true ∧
    acc0 0xE00A#16 0x1234#16 true 0x3412#16 true = true := by decide
theorem test_bsw6 (v : Word) (l : Bool) : rotate .bsw6 v l = Config.bsw6 v l := rfl
theorem test_nop : acc0 0xE000#16 0x1234#16 true 0x1234#16 true = true := by decide

theorem test_sma : skips 0xE140#16 0x8000#16 false 0x0102#16 0x8000#16 = true ∧
    skips 0xE170#16 1#16 true 0x0102#16 1#16 = true := by decide
theorem test_sza : skips 0xE1A0#16 0#16 false 0x0102#16 0#16 = true ∧ skips 0xE1A0#16 5#16 false 0x0101#16 0#16 = true := by
  decide
theorem test_snl : skips 0xE110#16 0x1234#16 true 0x0102#16 0x1234#16 = true := by decide
theorem test_spa : skips 0xE148#16 0#16 false 0x0102#16 0#16 = true ∧ skips 0xE178#16 1#16 true 0x0101#16 1#16 = true := by
  decide
theorem test_sna : skips 0xE128#16 0#16 false 0x0101#16 0#16 = true := by decide
theorem test_szl : skips 0xE118#16 0x1234#16 false 0x0102#16 0x1234#16 = true := by decide
theorem test_skp : skips 0xE108#16 0x8000#16 true 0x0102#16 0x8000#16 = true := by decide
theorem test_osr : goes (step (let s := start 0xE184#16; { s with sr := 0x00AA#16 })) (fun t => t.x 0#4 == 0x00AA#16) = true ∧
    goes (step (let s := (start 0xE104#16).setX 0#4 0x0F00#16
      { s with sr := 0x00AA#16, params := { s.params with osrMode := .or } })) (fun t => t.x 0#4 == 0x0FAA#16) = true := by decide
theorem test_hlt : goes (step (start 0xE102#16)) (fun t => t.psw == 0x0FE2#16 && t.pc == 0x0101#16) = true := by decide

theorem test_mov : regs12 0xE602#16 0#16 0xBEEF#16 true 0xBEEF#16 0xBEEF#16 true = true := by decide
theorem test_swp : regs12 0xE612#16 1#16 2#16 false 2#16 1#16 false = true ∧
    regs12 0xE611#16 7#16 0#16 false 7#16 0#16 false = true := by decide
theorem test_or : regs12 0xE622#16 0x0F0F#16 0x00FF#16 false 0x0FFF#16 0x00FF#16 false = true := by decide
theorem test_xor : regs12 0xE631#16 0xABCD#16 0#16 false 0#16 0#16 false = true := by decide
theorem test_shl : regs12 0xE641#16 3#16 0#16 false 0x0018#16 0#16 false = true ∧
    stops (step ((start 0xE642#16).setX 2#4 16#16)) .shiftCountRange = true := by decide
theorem test_shr : regs12 0xE652#16 0x0100#16 0#16 true 0x0100#16 0#16 true = true := by decide
theorem test_shli : acc0 0xE341#16 0x8001#16 false 2#16 true = true ∧ acc0 0xE34F#16 1#16 true 0x8000#16 false = true := by
  decide
theorem test_shri : acc0 0xE351#16 0x8001#16 false 0x4000#16 true = true ∧ acc0 0xE35F#16 0x8000#16 true 1#16 false = true := by
  decide
theorem test_sari : acc0 0xE36F#16 0x8000#16 true 0xFFFF#16 false = true ∧ acc0 0xE362#16 7#16 false 1#16 true = true := by
  decide
theorem test_roli : acc0 0xE374#16 0x1234#16 false 0x2341#16 true = true := by decide
theorem test_rori : acc0 0xE384#16 0x1234#16 true 0x4123#16 false = true := by decide

/-- X1's last step, X2, X5 to X7. -/
theorem test_x1 : goes (step (let s := engine 3#4 1#4 0#3 0x0234#32; { s with pages := s.pages.set 2 none }))
    (fun t => t.psw == 0x03E8#16 && t.mcheck == some { kind := .readUnbound, addr := 0x0234#32 }) = true := by decide
theorem test_x2 : goes (step (let s := (setup State.reset).setPc 0x0200#16; { s with pages := s.pages.set 2 none }))
    (fun t => t.psw == 0x01E0#16 && t.pc == 0x0200#16) = true := by decide
theorem test_x5_x6 : stops (step ((start 0#16).setPsw 0x00A0#16)) .undefinedCycle = true ∧
    stops (step ((start 0#16).setPsw 0x0E60#16)) .badScratch = true := by decide

/-- I2, I4, I6, I7: the devices' commands. -/
theorem test_tpc_i2 : acts (devPerform .output 4#16 ((waiting .outAgent (some 4#16) none 0#8 0xFFFF#16).setX 0#4 0x1241#16))
    (fun t => t.out == [0x41#8] && !t.io && t.x 0#4 == 0x1241#16) = true := by decide
theorem test_ksf_i4 : acts (devPerform .input 1#16 { waiting .inAgent none (some 1#16) 0#8 0xFFFF#16 with answers := [some 0x78#8] })
    (fun t => t.pc == 0x0101#16 && !t.io) = true := by decide
theorem test_krb_i6_i7 : acts (devPerform .input 6#16 { waiting .inAgent none (some 6#16) 0#8 0xFFFF#16 with answers := [some 0x78#8] })
    (fun t => t.x 0#4 == 0x0078#16) = true ∧
    acts (devPerform .input 6#16 ({ waiting .inAgent none (some 6#16) 0#8 0xFFFF#16 with answers := [none] }.setX 0#4 5#16))
    (fun t => t.x 0#4 == 0#16) = true := by decide

/-! ## Witnesses: states and operands that meet a statement's hypotheses, one for each clause and at its boundaries -/

/-- `start` with the PSW a FETCH hands an instruction, LK = `l`. -/
def ready (l : Bool) : State := (start 0#16).setPsw (packPsw l false false false false 0#4 0#4 0#3)

/-- The console's answer to a poll when the script holds `b`. -/
def drawn (s : State) (b : Option Byte) : Option Byte × State := { s with answers := [b] }.drawAnswer

/-- A reserved word, a form with no register, and an instruction, each fetched (O4, O5, O7). -/
theorem witness_fetch : (start 0xC200#16).running = false ∧ (start 0xC200#16).cycle = 0#4 ∧
    (∃ s1, (start 0xC200#16).fetch = .ok (0xC200#16, s1)) ∧ (∃ s1, (start 0x8000#16).fetch = .ok (0x8000#16, s1)) ∧
    (∃ s1, (start 0xA000#16).fetch = .ok (0xA000#16, s1)) ∧ (∃ s1, (start 0xE000#16).fetch = .ok (0xE000#16, s1)) :=
  ⟨by decide, by decide, ⟨_, rfl⟩, ⟨_, rfl⟩, ⟨_, rfl⟩, ⟨_, rfl⟩⟩
theorem witness_fetch_cycle1 : ((start 0xE000#16).setCycle 1#4).cycle = 1#4 ∧
    ∃ s1, ((start 0xE000#16).setCycle 1#4).fetch = .ok (0xE000#16, s1) := ⟨by decide, _, rfl⟩

theorem witness_DecodeOfEncodeIsIdentity : Instr.WellFormed (.sta 6#3 true true 0xFF#8) = true ∧
    Instr.WellFormed (.acc7 7#3 0x0F1#10) = true ∧ Instr.WellFormed (.g3iOp3 7#3 15#4 15#4) = true := by decide

/-- One word for each line of R115, at the ends of its ranges. -/
theorem witness_ReservedEncodingsRefused : Reserved 0xC200#16 ∧ Reserved 0xDE00#16 ∧ Reserved 0xE00E#16 ∧ Reserved 0xE101#16 ∧
    Reserved 0xE608#16 ∧ Reserved 0xE690#16 ∧ Reserved 0xE6F0#16 ∧ Reserved 0xE300#16 ∧ Reserved 0xE33F#16 ∧
    Reserved 0xE390#16 ∧ Reserved 0xE3F0#16 ∧ ¬ Reserved 0xE340#16 ∧ ¬ Reserved 0xE38F#16 ∧ ¬ Reserved 0xE680#16 := by
  and_intros <;> decide

theorem witness_RegisterFormsRefused : (¬ Reserved 0x1C00#16 ∧ NoRegister 0x1C00#16) ∧ (¬ Reserved 0x8000#16 ∧ NoRegister 0x8000#16) ∧
    (¬ Reserved 0xDC24#16 ∧ NoRegister 0xDC24#16) ∧ (¬ Reserved 0xFC00#16 ∧ NoRegister 0xFC00#16) ∧
    (¬ Reserved 0xE607#16 ∧ NoRegister 0xE607#16) ∧ (¬ Reserved 0xA000#16 ∧ JumpWithLoad 0xA000#16) ∧
    (¬ Reserved 0xBBFF#16 ∧ JumpWithLoad 0xBBFF#16) ∧ ¬ JumpWithLoad 0xBC00#16 := by
  and_intros <;> decide

theorem witness_StepRunsDecodedInstruction : (let s := { start 0xE000#16 with running := true, turns := [.cpu] }
    s.cycle = 0#4 ∧ s.running = true ∧ (s.drawTurn).1 = .cpu ∧ s.cancel = false ∧
      ∃ s1, (s.drawTurn).2.fetch = .ok (0xE000#16, s1)) := ⟨by decide, by decide, by decide, by decide, _, rfl⟩

theorem witness_FetchReadsWordAtPc : (start 0#16).locate 0x0100#32 = some (.mem 0x0100#16) ∧
    (start 7#16).peek (.mem 0x0100#16) = some 7#16 ∧ (setup State.reset).locate 7#32 = some (.slot 7#4) ∧
    (setup State.reset).locate 15#32 = some (.slot 15#4) ∧ (setup State.reset).locate 16#32 = some (.zp 16#8) := by decide

theorem witness_FetchStopsOnUnboundOrUnwritten : State.reset.locate (State.reset.pc.setWidth 32) = none ∧
    (let s := (setup State.reset).setPc 0x0100#16
     s.locate (s.pc.setWidth 32) = some (.mem 0x0100#16) ∧ s.peek (.mem 0x0100#16) = none) := by decide

/-- Direct in-file addresses 0, 7 and 15, as AND, TAD, ISZ, STA, DCA, JMS, JMP take them (O11 to O15). -/
theorem witness_direct_in_file : Fetched (ready false) ∧ Fetched (ready true) ∧ (address (ready true).pc true 0#8).toNat = 0 ∧
    (address (ready true).pc true 7#8).toNat = 7 ∧ (address (ready true).pc true 15#8).toNat = 15 ∧
    (let s := (ready true).setPc 0x0006#16
     Fetched s ∧ (address s.pc false 15#8).toNat = 15) := by decide

theorem witness_PswWriteRefused : address (ready false).pc true 7#8 = 7#32 ∧ (engine 9#4 2#4 7#3 7#32).cycle = 9#4 ∧
    (engine 3#4 2#4 7#3 7#32).tmp = 2#4 ∧ (let s := engine 3#4 3#4 0#3 7#32
      s.ea = 7#32 ∧ s.cycle = 3#4 ∧ s.tmp = 3#4 ∧ s.acc ≠ 7#3) ∧ (let s := engine 3#4 4#4 7#3 7#32
      s.ea = 7#32 ∧ s.cycle = 3#4 ∧ s.tmp = 4#4 ∧ s.acc = 7#3) := by decide

/-- Out-of-file addresses, 16 the lowest (O17, O19). -/
theorem witness_out_of_file : mriFields (.sta 2#3 false true 16#8) = some (2#3, 2#3, false, true, 16#8) ∧
    mriFields (.jmp true false 0x10#8) = some (5#3, 7#3, true, false, 0x10#8) ∧ Fetched (ready true) ∧
    15 < (address (ready true).pc true 16#8).toNat ∧ 15 < (address (ready true).pc false 0x10#8).toNat := by decide

/-- In-file pointers: below, at both ends of, and above the index registers, and the PSW (O18). -/
theorem witness_MriIndirectInFileResolves : mriFields (.tad 0#3 true true 8#8) = some (1#3, 0#3, true, true, 8#8) ∧
    Fetched (ready false) ∧ (address (ready false).pc true 7#8).toNat = 7 ∧ (address (ready false).pc true 8#8).toNat = 8 ∧
    (address (ready false).pc true 14#8).toNat = 14 ∧ (address (ready false).pc true 15#8).toNat = 15 := by decide

theorem witness_EngineReadAnswers : State.reset.locate 16#32 = none ∧ (start 5#16).locate 0x0100#32 = some (.mem 0x0100#16) ∧
    (start 5#16).peek (.mem 0x0100#16) = some 5#16 ∧ (start 5#16).locate 16#32 = some (.zp 16#8) ∧
    (start 5#16).peek (.zp 16#8) = none ∧
    (let s := { start 5#16 with pages := (start 5#16).pages.set 2 (some .cpu) }
     s.locate 0x0207#32 = some (.slot 7#4)) := by decide

theorem witness_IndirectResolveStep : (engine 2#4 1#4 0#3 0x0120#32).cycle = 2#4 ∧
    (∃ s1, ((engine 2#4 1#4 0#3 0x0120#32).poke (.mem 0x0120#16) 9#16).localRead 0x0120#32 = .ok (9#16, s1)) ∧
    (engine 2#4 1#4 0#3 8#32).ea.toNat = 8 ∧ (engine 2#4 1#4 0#3 15#32).ea.toNat = 15 :=
  ⟨by decide, ⟨_, rfl⟩, by decide, by decide⟩

theorem witness_ExecuteAndTad : (let s := (engine 3#4 1#4 6#3 0x0110#32).poke (.mem 0x0110#16) 0xFFFF#16
    s.cycle = 3#4 ∧ s.acc ≠ 7#3 ∧ s.tmp = 1#4 ∧ ∃ s1, s.localRead s.ea = .ok (0xFFFF#16, s1)) ∧
    (let s := engine 3#4 0#4 0#3 1#32
    s.cycle = 3#4 ∧ s.acc ≠ 7#3 ∧ s.tmp = 0#4 ∧ ∃ s1, s.localRead s.ea = .ok (0#16, s1)) :=
  ⟨⟨by decide, by decide, by decide, _, rfl⟩, ⟨by decide, by decide, by decide, _, rfl⟩⟩

theorem witness_ExecuteStaDcaJms :
    (let s := engine 3#4 2#4 2#3 0x0110#32
     s.cycle = 3#4 ∧ storePlace s s.ea = some (.mem 0x0110#16) ∧ s.tmp = 2#4 ∧ s.acc ≠ 7#3) ∧
    (let s := engine 3#4 3#4 0#3 0#32
     s.cycle = 3#4 ∧ storePlace s s.ea = some (.slot (acSlot s.acc)) ∧ s.tmp = 3#4 ∧ s.acc ≠ 7#3) ∧
    (let s := engine 3#4 4#4 7#3 15#32
     s.cycle = 3#4 ∧ storePlace s s.ea = some (.slot 15#4) ∧ s.tmp = 4#4 ∧ s.acc = 7#3) := by decide

theorem witness_ExecuteIsz : (let s := (engine 3#4 2#4 7#3 16#32).poke (.zp 16#8) 0xFFFF#16
    s.cycle = 3#4 ∧ s.tmp = 2#4 ∧ s.acc = 7#3 ∧ 15 < s.ea.toNat ∧ ∃ s1, s.localRead s.ea = .ok (0xFFFF#16, s1)) ∧
    (let s := engine 3#4 2#4 7#3 15#32
    s.ea.toNat ≤ 15 ∧ s.ea.toNat ≠ 7) := ⟨⟨by decide, by decide, by decide, by decide, _, rfl⟩, by decide⟩

theorem witness_ExecuteJmp : (let s := engine 3#4 5#4 7#3 0xFFFF#32
    s.cycle = 3#4 ∧ s.tmp = 5#4 ∧ s.acc = 7#3) := by decide

theorem witness_WritebackStores : (let s := engine 9#4 2#4 7#3 16#32
    s.cycle = 9#4 ∧ storePlace s s.ea = some (.zp 16#8)) ∧
    storePlace (engine 9#4 2#4 7#3 15#32) 15#32 = some (.slot 15#4) := by decide

/-- An unbound page in each state, for each kind of access (O27). -/
theorem witness_UnboundAccessTakesMachineCheck : (let s := engine 2#4 1#4 0#3 0x10000#32
    15 < s.ea.toNat ∧ s.locate s.ea = none ∧ s.cycle = 2#4) ∧ (engine 9#4 2#4 7#3 0x10000#32).cycle = 9#4 ∧
    (let s := engine 3#4 2#4 7#3 0x10000#32
     s.cycle = 3#4 ∧ s.tmp = 2#4 ∧ s.acc = 7#3) ∧
    (let s := engine 3#4 4#4 7#3 0x10000#32
     s.cycle = 3#4 ∧ s.tmp = 4#4 ∧ s.acc = 7#3) ∧
    (let s := engine 3#4 3#4 6#3 0x10000#32
     s.tmp = 3#4 ∧ s.acc ≠ 7#3) := by decide

theorem witness_IszOutOfFileThreeSteps : (let s := (start 0x5C10#16).poke (.mem 0x0110#16) 0xFFFF#16
    decode 0x5C10#16 = .isz false false 0x10#8 ∧ s.locate 0x0110#32 = some (.mem 0x0110#16) ∧
    s.peek (.mem 0x0110#16) = some 0xFFFF#16 ∧ ∃ s1, s.fetch = .ok (0x5C10#16, s1) ∧
      (address s1.pc false 0x10#8).toNat = 0x0110 ∧ s1.locate 0x0110#32 = some (.mem 0x0110#16)) :=
  ⟨by decide, by decide, by decide, _, rfl, by decide, by decide⟩

/-- The short-circuit where it completes and where it is refused. -/
theorem witness_ShortCircuitEqualsLongPath : mriFields (.tad 0#3 false true 1#8) = some (1#3, 0#3, false, true, 1#8) ∧
    Instr.WellFormed (.tad 0#3 false true 1#8) = true ∧ Fetched (ready true) ∧
    goes (exec (.tad 0#3 false true 1#8) (ready true)) (fun _ => true) = true ∧
    stops (exec (.dca 0#3 false true 7#8) (ready true)) .pswWrite = true := by decide

theorem witness_Iot : Fetched (ready false) ∧ (ready false).attns[(4#6).toNat]? = some (some .terminal) ∧
    (ready false).attns[(9#6).toNat]? = some none ∧ (ready false).attns[(63#6).toNat]? = some none := by decide

theorem witness_IoWaitPolls : (let s := waiting .cpu none none 0#8 0xFFFF#16
    s.cycle = 4#4 ∧ s.io = true ∧ s.running = true ∧ (s.drawTurn).1 = .cpu ∧ s.cancel = false) ∧
    ((waiting .cpu none none 0#8 0xFFFF#16).setIo false).io = false := by decide

/-- A claimed command, a command to claim, an agent that is stopped, and nothing to do, for both devices. -/
theorem witness_AgentTurnPerformsOrClaims :
    (let s := waiting .outAgent (some 4#16) none 0#8 0xFFFF#16
     s.running = true ∧ (s.drawTurn).1 = turnOf .output ∧ (s.agent .output).running = true ∧ (s.agent .output).pending = some 4#16) ∧
    (let s := waiting .inAgent none none 3#8 6#16
     s.running = true ∧ (s.drawTurn).1 = turnOf .input ∧ (s.agent .input).pending = none ∧ s.mailbox.cmd ≠ 0xFFFF#16 ∧
       s.mailbox.unit = (s.agent .input).unit) ∧
    (let s := { waiting .inAgent none none 3#8 6#16 with inAgent := State.reset.inAgent }
     s.running = true ∧ (s.drawTurn).1 = turnOf .input ∧ (s.agent .input).running = false) ∧
    (let s := waiting .outAgent none none 3#8 6#16
     (s.agent .output).pending = none ∧ s.mailbox.unit ≠ (s.agent .output).unit) ∧
    (waiting .outAgent none none 4#8 0xFFFF#16).mailbox.cmd = 0xFFFF#16 := by decide

theorem witness_DeviceCommands : (let s := waiting .inAgent none (some 6#16) 0#8 0xFFFF#16
    s.acc ≠ 7#3 ∧ s.params.fRead ≠ s.params.fSkip ∧ (0#16 : Word) ≠ 4#16 ∧ (0#16 : Word) ≠ s.params.fSkip ∧
    (0#16 : Word) ≠ s.params.fRead ∧ (drawn s (some 0x78#8)).1 = some 0x78#8 ∧ (drawn s none).1 = none) := by decide

theorem witness_RegisterShifts : Fetched (ready true) ∧ ((ready true).setX 2#4 15#16).ac 2#3 = 15#16 ∧
    ((ready true).setX 2#4 16#16).ac 2#3 = 16#16 ∧ Fetched ((ready true).setX 2#4 16#16) := by decide

theorem witness_LinkWritersOnly : Instr.WellFormed (.bsw 0#3) = true ∧ mayWriteLink (.bsw 0#3) = false ∧
    goes (exec (.bsw 0#3) (ready true)) (fun _ => true) = true ∧ mayWriteLink (.cla 0#3 false true false false .bsw) = false ∧
    goes (exec (.cla 0#3 false true false false .bsw) (ready true)) (fun _ => true) = true := by decide
/-- A whole step that fetches a word that leaves LK alone, one whose fetch takes a machine check, and the other cycle
states, EXECUTE of all but TAD among them. -/
theorem witness_LinkWritersOnly_step : mayWriteLink (decode 0x0101#16) = false ∧
    goes (cpuStep (start 0x0101#16)) (fun _ => true) = true ∧ goes (cpuStep State.reset) (fun _ => true) = true ∧
    (engine 3#4 5#4 7#3 16#32).cycle = 3#4 ∧ (engine 3#4 5#4 7#3 16#32).tmp ≠ 1#4 ∧
    goes (cpuStep (engine 3#4 5#4 7#3 16#32)) (fun _ => true) = true ∧
    goes (cpuStep (engine 2#4 1#4 0#3 8#32)) (fun _ => true) = true ∧
    goes (cpuStep (engine 9#4 2#4 7#3 16#32)) (fun _ => true) = true := by decide

/-- The invariant holds before and during a run, and the step goes on (O49, O51). -/
theorem witness_StepKeepsInvariant : Inv (start 0xE000#16) ∧ goes (step (start 0xE000#16)) (fun _ => true) = true ∧
    Inv (waiting .outAgent none none 4#8 4#16) ∧ goes (step (waiting .outAgent none none 4#8 4#16)) (fun _ => true) = true := by
  and_intros <;> decide
theorem witness_InvariantRulesOutEngineRefusals :
    (Inv ((setup State.reset).setPc 0x0100#16) ∧ stops (step ((setup State.reset).setPc 0x0100#16)) .readUnwritten = true) ∧
    (Inv (engine 3#4 1#4 0#3 0x0110#32) ∧ stops (step (engine 3#4 1#4 0#3 0x0110#32)) .readUnwritten = true) ∧
    (Inv (engine 3#4 2#4 0#3 7#32) ∧ stops (step (engine 3#4 2#4 0#3 7#32)) .pswWrite = true) := by
  and_intros <;> decide
theorem witness_NoMachineCheckWhenAllPagesBound : Inv (start 0x0101#16) ∧ AllPagesBound (start 0x0101#16) ∧
    goes (step (start 0x0101#16)) (fun t => t.mcheck == none) = true := by
  refine ⟨by and_intros <;> decide, fun p => ?_, by decide⟩
  show defaultPageMap[p] ≠ none
  simp only [defaultPageMap, Fin.getElem_fin, Vector.getElem_set, Vector.getElem_replicate]
  split <;> simp

theorem witness_HaltedAndUndefinedCycles : (engine 15#4 0#4 0#3 0#32).cycle = 15#4 ∧ (engine 5#4 0#4 0#3 0#32).cycle = 5#4 ∧
    (engine 8#4 0#4 0#3 0#32).cycle = 8#4 ∧ (engine 10#4 0#4 0#3 0#32).cycle = 10#4 ∧
    (engine 14#4 0#4 0#3 0#32).cycle = 14#4 ∧ (engine 3#4 6#4 0#3 0#32).tmp = 6#4 ∧
    (engine 3#4 6#4 0#3 0#32).running = false := by decide

theorem witness_StepKeepsTablesAndParameters :
    goes (step (start 0x0101#16)) (fun t => t.params == (start 0x0101#16).params) = true := by decide

/-- Who moves: the CPU on its own turn, the CPU on the turn of an idle device, the run's end, and a device. -/
theorem witness_RunCountsCpuSteps :
    LoopMoves (waiting .cpu none none 0#8 0xFFFF#16) ∧ LoopMoves (waiting .inAgent none none 4#8 4#16) ∧
    goes (step (waiting .cpu none none 0#8 0xFFFF#16)) (fun t => t.count == 1) = true ∧
    goes (step (waiting .inAgent none none 4#8 4#16)) (fun t => t.count == 1) = true ∧
    goes (step { waiting .cpu none none 0#8 0xFFFF#16 with cancel := true }) (fun t => !t.running && t.count == 0) = true ∧
    DeviceEnabled .output (waiting .outAgent none none 4#8 4#16) ∧
    goes (step (waiting .outAgent none none 4#8 4#16)) (fun t => t.count == 0) = true ∧
    DeviceEnabled .output (waiting .outAgent (some 4#16) none 0#8 0xFFFF#16) :=
  ⟨.inl rfl, .inr ⟨.input, rfl, by decide⟩, by decide, by decide, by decide, by decide, by decide, by decide⟩
theorem witness_RunCountsCpuSteps_refused : (let s := (waiting .cpu none none 0#8 0xFFFF#16).setCycle 5#4
    (s.drawTurn).1 = .cpu ∧ stops (cpuStep (s.drawTurn).2) .undefinedCycle = true) := by decide

theorem witness_RunStartsAgents : State.reset.running = false ∧ State.reset.cycle ≠ 15#4 ∧
    (State.reset.setCycle 15#4).cycle = 15#4 := by decide

theorem witness_CancelledRunEnds : (let s := waiting .cpu (some 4#16) none 0#8 0xFFFF#16
    s.running = true ∧ s.cancel = false ∧ s.acc ≠ 7#3 ∧ s.outAgent.running = true ∧ s.outAgent.pending = some 4#16 ∧
    s.inAgent.pending = none ∧ ((cancelRun s).drawTurn).1 = .cpu) := by decide
/-- A cancelled run and a halted one: nothing claimed with a command in the mailbox, an input command claimed, and a
claimed command that is refused. -/
theorem witness_CancelledRunEnds_idle : (let s := { waiting .cpu none none 4#8 4#16 with cancel := true }
    LoopMoves s ∧ (∀ d, (s.agent d).pending = none) ∧
      goes (step s) (fun t => t.mailbox == { unit := 4#8, cmd := 4#16 } && !t.running) = true) ∧
    ((waiting .cpu none none 4#8 4#16).setCycle 15#4).cycle = 15#4 :=
  ⟨⟨.inl rfl, fun d => by cases d <;> rfl, by decide⟩, by decide⟩
theorem witness_CancelledRunEnds_input :
    (let s := { waiting .cpu none (some 6#16) 0#8 0xFFFF#16 with cancel := true, answers := [some 0x78#8] }
     (s.agent .input).running = true ∧ (s.agent .input).pending = some 6#16 ∧ (∀ e, e ≠ .input → (s.agent e).pending = none) ∧
       s.acc ≠ 7#3 ∧ goes (step s) (fun t => t.x 0#4 == 0x0078#16 && !t.running) = true) ∧
    (let s := ({ waiting .cpu (some 4#16) none 0#8 0xFFFF#16 with cancel := true }).setAcc 7#3
     (devPerform .output 4#16 (s.drawTurn).2 = .refuse .noRegisterForm) ∧ stops (step s) .noRegisterForm = true) :=
  ⟨⟨rfl, rfl, fun e h => by cases e <;> first | rfl | exact absurd rfl h, by decide, by decide⟩, rfl, by decide⟩

theorem witness_HostBusRoundTrip : State.reset.running = false ∧ State.reset.locate 0x0200#32 = none ∧
    (setup State.reset).locate 0x0200#32 = some (.mem 0x0200#16) ∧ (setup State.reset).locate 7#32 = some (.slot 7#4) ∧
    (setup State.reset).locate 0x0020#32 = some (.zp 0x20#8) ∧ (setup State.reset).locate 0x12345#32 = none := by decide

/-- The indices where the two clauses of R68 and R69 meet. -/
theorem witness_InstallBinds : (match hostCall (.install 256 .cpu) State.reset with
      | .answered r t => r == .error .invalidPage && t.pages[255] == none
      | .notPermitted => false
      | .refused _ => false) = true ∧
    (match hostCall (.installAttn 255 .terminal) State.reset with
      | .answered r t => r == .done && t.attns[255] == some .terminal
      | .notPermitted => false
      | .refused _ => false) = true := by decide

end Sys2Proof.Tests
end

namespace Sys2Proof

/-! The reserved patterns that the low ten bits of an IOT or OPR word fall under, by the word's own fields (R115). -/

theorem reservedLow_iot (w : Word) : reservedLow 6#3 (w.extractLsb' 0 10) = w.getLsbD 9 := by
  simp [reservedLow]

theorem reservedLow_group1 {w : Word} (h : Decode.grp w = 0#2) :
    reservedLow 7#3 (w.extractLsb' 0 10) = (Decode.rotField w == 7#3) := by
  simp only [Decode.grp] at h
  simp [reservedLow, h, Decode.rotField]

theorem reservedLow_group2 {w : Word} (h : Decode.grp w = 1#2) :
    reservedLow 7#3 (w.extractLsb' 0 10) = w.getLsbD 0 := by
  simp only [Decode.grp] at h
  simp [reservedLow, h]

theorem reservedLow_group3R {w : Word} (h : Decode.grp w = 2#2) :
    reservedLow 7#3 (w.extractLsb' 0 10) = (w.getLsbD 3 || decide (9 ≤ (Decode.op3 w).toNat)) := by
  simp only [Decode.grp] at h
  simp [reservedLow, h, Decode.op3]
  rfl

theorem reservedLow_group3I {w : Word} (h : Decode.grp w = 3#2) :
    reservedLow 7#3 (w.extractLsb' 0 10) =
      (decide ((Decode.op3 w).toNat ≤ 3) || decide (9 ≤ (Decode.op3 w).toNat)) := by
  simp only [Decode.grp] at h
  simp [reservedLow, h, Decode.op3]
  rfl

/-! The decoder's answers are well-formed, part by part (R101-R116). A refused register form keeps the low ten bits, which
by then are known not to be reserved. -/

theorem decodeMri_wellFormed (w : Word) : (decodeMri w).WellFormed = true := by
  simp only [decodeMri]
  split_ifs <;> simp [Instr.WellFormed, isReg, reservedLow, *]

theorem decodeIot_wellFormed (w : Word) : (decodeIot w).WellFormed = true := by
  simp only [decodeIot, apply_ite Instr.WellFormed]
  simp only [Instr.WellFormed, reservedLow_iot]
  split_ifs with h9 hacc
  · rfl
  · simpa using h9
  · simp [isReg, hacc]

theorem decodeGroup1_wellFormed {w : Word} (h : Decode.grp w = 0#2) : (decodeGroup1 w).WellFormed = true := by
  simp only [decodeGroup1]
  split_ifs with hrot hacc
  · rfl
  · simp [Instr.WellFormed, reservedLow_group1 h, hrot]
  case neg => cases rotOf (Decode.rotField w) <;> simp [Instr.WellFormed, isReg, hacc]
  all_goals simp [Instr.WellFormed, isReg, hacc]

theorem decodeGroup2_wellFormed {w : Word} (h : Decode.grp w = 1#2) : (decodeGroup2 w).WellFormed = true := by
  simp only [decodeGroup2, apply_ite Instr.WellFormed]
  simp only [Instr.WellFormed, reservedLow_group2 h, ite_self]
  split_ifs with h0 hacc
  · rfl
  · simpa using h0
  · simp [isReg, hacc]

theorem decodeGroup3R_wellFormed {w : Word} (h : Decode.grp w = 2#2) : (decodeGroup3R w).WellFormed = true := by
  simp only [decodeGroup3R, apply_ite Instr.WellFormed]
  simp only [Instr.WellFormed, reservedLow_group3R h, ite_self]
  split_ifs with h3 hop hd hs
  · rfl
  · exact decide_eq_true hop
  · simpa [hop] using h3
  · simp [isReg, hd, show (Decode.op3 w).toNat ≤ 8 by omega]
  · simp [isReg, hd, hs]

theorem decodeGroup3I_wellFormed {w : Word} (h : Decode.grp w = 3#2) : (decodeGroup3I w).WellFormed = true := by
  simp only [decodeGroup3I, apply_ite Instr.WellFormed]
  simp only [Instr.WellFormed, reservedLow_group3I h, ite_self]
  split_ifs with hop hd
  · simpa using hop
  · rw [not_or] at hop
    simp [hop]
  · simp [isReg, hd]

/-- Every word decodes to a well-formed instruction (R114, R118). -/
theorem decode_wellFormed (w : Word) : (decode w).WellFormed = true := by
  unfold decode decodeOpr
  split_ifs with _ _ h0 h1 h2
  · exact decodeIot_wellFormed w
  · exact decodeGroup1_wellFormed h0
  · exact decodeGroup2_wellFormed h1
  · exact decodeGroup3R_wellFormed h2
  · refine decodeGroup3I_wellFormed ?_
    generalize Decode.grp w = g at *
    revert g; decide
  · exact decodeMri_wellFormed w

end Sys2Proof

namespace Sys2Proof.Machine

/-! What a CPU step can write, one lemma for each handler that CYCLE selects (R140-R153). -/

theorem SlotsOnly.cpuKeeps {s t : State} (h : SlotsOnly s t) : CpuKeeps s t := by
  unfold SlotsOnly at h
  cases s; cases t; simp_all [CpuKeeps]

/-- Of the PSW, FETCH begins with LK alone (R142). -/
theorem State.psw_clearPsw (s : State) :
    s.clearPsw.psw = packPsw s.lk false false false false 0#4 0#4 0#3 := by
  rw [State.clearPsw, State.psw_setPsw]
  cases s.lk <;> decide

theorem Fetched.of_psw {s : State} {lk : Bool} (h : s.psw = packPsw lk false false false false 0#4 0#4 0#3) :
    Fetched s := by
  obtain ⟨hlk, -⟩ := State.fields_of_psw h
  rw [Fetched, hlk, h]

/-- FETCH up to decoding writes slots only and leaves the PSW as the instruction's meaning expects it (R142). -/
theorem State.fetch_ok {s s1 : State} {w : Word} (h : s.fetch = .ok (w, s1)) : SlotsOnly s s1 ∧ Fetched s1 := by
  obtain ⟨⟨v, u⟩, hu, hv⟩ := Res.bind_eq_ok.1 h
  obtain ⟨n, rfl⟩ := State.busRead_state hu
  cases hv
  exact ⟨rfl, .of_psw ((State.psw_setPc _ _).trans s.psw_clearPsw)⟩

theorem CpuKeeps.of_takeMachineCheck (k : CheckKind) (a : Addr) (s : State) :
    CpuKeeps s (takeMachineCheck k a s) := rfl

theorem CpuKeeps.of_setX {s u : State} (h : CpuKeeps s u) (i : BitVec 4) (v : Word) : CpuKeeps s (u.setX i v) :=
  h.trans (.poke u (.slot i) v)

theorem CpuKeeps.resolvePointer (s : State) (a : Addr) : CpuKeeps s (s.resolvePointer a).2 := by
  have hread := (SlotsOnly.readSlot s (a.setWidth 4)).cpuKeeps
  unfold State.resolvePointer
  simp only
  split
  · exact hread.of_setX _ _
  · exact hread

theorem CpuKeeps.localRead {s s1 : State} {a : Addr} {v : Word} (h : s.localRead a = .ok (v, s1)) : CpuKeeps s s1 := by
  obtain ⟨n, rfl⟩ := State.localRead_state h
  rfl

/-- What a step may write, its machine check included (R330). -/
theorem CpuKeeps.of_outcome {s t : State} {r : Res State} (h : r.outcome s = .next t)
    (hr : ∀ u, r = .ok u → CpuKeeps s u) : CpuKeeps s t := by
  obtain h | ⟨k, a, -, rfl⟩ := Res.outcome_eq_next.1 h
  · exact hr t h
  · exact .of_takeMachineCheck k a s

/-- FETCH: the fetch, then what the decoded instruction leaves; or a machine check (R142, R332). -/
theorem stepFetch_keeps {s t : State} (h : stepFetch s = .next t) : CpuKeeps s t := by
  unfold stepFetch at h
  split at h
  next w s1 hf =>
    obtain ⟨hslots, hfetched⟩ := State.fetch_ok hf
    exact hslots.cpuKeeps.trans (exec_leaves (decode_wellFormed w) hfetched h).rest
  next k a _ => cases h; exact .of_takeMachineCheck k a s
  next => cases h

theorem stepIndirect_keeps {s t : State} (h : stepIndirect s = .next t) : CpuKeeps s t := by
  refine .of_outcome h fun u hu => ?_
  obtain ⟨⟨p, s1⟩, hp, hu⟩ := Res.bind_eq_ok.1 hu
  cases hu
  suffices hs1 : CpuKeeps s s1 from hs1.trans rfl
  split at hp
  · cases hp
    exact .resolvePointer s s.ea
  · obtain ⟨⟨v, s2⟩, hread, hp⟩ := Res.bind_eq_ok.1 hp
    cases hp
    exact .localRead hread

theorem stepExecute_keeps {s t : State} (h : stepExecute s = .next t) : CpuKeeps s t := by
  unfold stepExecute at h
  split at h
  · cases h
  · refine .of_outcome h fun u hu => ?_
    obtain ⟨s1, heff, hu⟩ := Res.bind_eq_ok.1 hu
    cases hu
    exact (effect_ok heff).1.trans rfl

theorem stepIoWait_keeps {s t : State} (h : stepIoWait s = .next t) : CpuKeeps s t := by
  cases h
  split <;> rfl

theorem stepWriteback_keeps {s t : State} (h : stepWriteback s = .next t) : CpuKeeps s t := by
  refine .of_outcome h fun u hu => ?_
  obtain ⟨s1, hw, hu⟩ := Res.bind_eq_ok.1 hu
  cases hu
  obtain ⟨l, -, -, rfl⟩ := State.localWrite_ok hw
  exact (CpuKeeps.poke s l s.wb).trans rfl

/-- A CPU step writes nothing but what `CpuKeeps` lists, in every cycle state (R140). -/
theorem cpuStep_keeps {s t : State} (h : cpuStep s = .next t) : CpuKeeps s t := by
  unfold cpuStep at h
  split_ifs at h
  · exact stepFetch_keeps h
  · exact stepIndirect_keeps h
  · exact stepExecute_keeps h
  · exact stepIoWait_keeps h
  · exact stepWriteback_keeps h
  · cases h; rfl

/-! What every step keeps, whoever moves (R6, R37, R42, R45, R70, R374). -/

/-- `t` has the bus tables, SR, the OPEN parameters and the agents' unit numbers of `s` (R6, R37, R42, R45). -/
structure SetupKept (s t : State) : Prop where
  pages : t.pages = s.pages
  attns : t.attns = s.attns
  sr : t.sr = s.sr
  params : t.params = s.params
  outUnit : t.outAgent.unit = s.outAgent.unit
  inUnit : t.inAgent.unit = s.inAgent.unit

theorem SetupKept.trans {s t u : State} (h : SetupKept s t) (g : SetupKept t u) : SetupKept s u :=
  ⟨g.pages.trans h.pages, g.attns.trans h.attns, g.sr.trans h.sr, g.params.trans h.params, g.outUnit.trans h.outUnit,
    g.inUnit.trans h.inUnit⟩

theorem SetupKept.of_eq {s t u : State} (h : u = s) (g : SetupKept u t) : SetupKept s t := h ▸ g

theorem CpuKeeps.setupKept {s t : State} (h : CpuKeeps s t) : SetupKept s t :=
  .of_eq h ⟨rfl, rfl, rfl, rfl, rfl, rfl⟩

theorem DeviceKeeps.setupKept {s t : State} (h : DeviceKeeps s t) : SetupKept s t := by
  obtain ⟨hrest, hout, hin, -⟩ := h
  exact .of_eq hrest ⟨rfl, rfl, rfl, rfl, hout, hin⟩

theorem devClaim_setupKept (d : Dev) (s : State) : SetupKept s (devClaim d s) := by
  cases d <;> exact ⟨rfl, rfl, rfl, rfl, rfl, rfl⟩

theorem drawTurn_setupKept (s : State) : SetupKept s s.drawTurn.2 :=
  .of_eq s.drawTurn_rest ⟨rfl, rfl, rfl, rfl, rfl, rfl⟩

theorem loopStep_setupKept {s t : State} (h : loopStep s = .next t) : SetupKept s t := by
  obtain ⟨-, hend⟩ | ⟨-, -, u, hcpu, rfl⟩ := loopStep_cases h
  · exact (endOfRun_keeps hend).1.setupKept
  · exact (cpuStep_keeps hcpu).setupKept.trans ⟨rfl, rfl, rfl, rfl, rfl, rfl⟩

theorem runStep_setupKept {s t : State} (h : runStep s = .next t) : SetupKept s t := by
  refine (drawTurn_setupKept s).trans ?_
  obtain hloop | ⟨d, hfin, -⟩ | ⟨d, rfl, -⟩ := runStep_cases h
  · exact loopStep_setupKept hloop
  · exact (devFinish_keeps hfin).setupKept
  · exact devClaim_setupKept d _

theorem step_setupKept {s t : State} (h : step s = .next t) : SetupKept s t := by
  unfold step machineStep at h
  split at h
  · exact runStep_setupKept h
  · exact (cpuStep_keeps h).setupKept

/-- Settles O52: by who moves, from what a CPU step, a device and the run's end can write. -/
theorem stepKeepsTablesAndParameters : Obligations.StepKeepsTablesAndParameters := by
  intro s t h
  obtain ⟨hpages, hattns, hsr, hparams, hout, hin⟩ := step_setupKept h
  exact ⟨hpages, hattns, hsr, hparams, hout, hin⟩

end Sys2Proof.Machine

namespace Sys2Proof.Machine

/-! What one CPU step can do, one inversion lemma for each handler after FETCH (R148-R150). Each takes a machine check or
moves the engine on. -/

/-- The engine has moved on: the arrays stay canonical, the mailbox stays, and of the PSW LK, EX, ID and CYCLE have the
values given. -/
structure EngineMoves (s t : State) (lk ex id : Bool) (cycle : BitVec 4) : Prop where
  canon : CanonicalMemory s → CanonicalMemory t
  mailbox : t.mailbox = s.mailbox
  psw : t.psw = packPsw lk s.op s.io ex id cycle s.tmp s.acc

theorem State.resolvePointer_keeps (s : State) (a : Addr) :
    (s.resolvePointer a).1.toNat < 65536 ∧ SlotsOnly s (s.resolvePointer a).2 := by
  unfold State.resolvePointer
  refine ⟨?_, ?_⟩
  · have := (s.readSlot (a.setWidth 4)).1.isLt
    simp only [BitVec.toNat_setWidth]
    omega
  · simp only
    split
    · exact (SlotsOnly.readSlot _ _).trans (SlotsOnly.setX _ _ _)
    · exact SlotsOnly.readSlot _ _

theorem SlotsOnly.canon {s t : State} (h : SlotsOnly s t) (hs : CanonicalMemory s) : CanonicalMemory t := by
  have hzp : t.zp = s.zp := (congrArg State.zp h :)
  have hmem : t.mem = s.mem := (congrArg State.mem h :)
  rwa [CanonicalMemory, hzp, hmem]

theorem SlotsOnly.mailbox_eq {s t : State} (h : SlotsOnly s t) : t.mailbox = s.mailbox :=
  (congrArg State.mailbox h :)

/-- The pointer of INDIRECT-RESOLVE, in-file or over the bus, is a word (R145, R148). -/
theorem stepIndirect_cases {s t : State} (h : stepIndirect s = .next t) :
    (∃ k a, t = takeMachineCheck k a s) ∨ (EngineMoves s t s.lk s.ex false 3#4 ∧ t.ea.toNat < 65536) := by
  obtain h | ⟨k, a, -, ht⟩ := Res.outcome_eq_next.1 h
  · right
    obtain ⟨⟨p, s1⟩, hp, hu⟩ := Res.bind_eq_ok.1 h
    cases hu
    suffices hs1 : p.toNat < 65536 ∧ SlotsOnly s s1 ∧ s1.psw = s.psw by
      obtain ⟨hlt, hslots, hpsw⟩ := hs1
      obtain ⟨hlk, hop, hio, hex, -, -, htmp, hacc⟩ := State.fields_of_psw (hpsw.trans s.psw_eq_pack)
      exact ⟨⟨hslots.canon, hslots.mailbox_eq, by apply State.psw_of_fields <;> simp [*, cycleExecute]⟩, hlt⟩
    split at hp
    · cases hp
      obtain ⟨hlt, hslots⟩ := s.resolvePointer_keeps s.ea
      exact ⟨hlt, hslots, s.psw_resolvePointer s.ea⟩
    · obtain ⟨⟨v, s2⟩, hread, hp⟩ := Res.bind_eq_ok.1 hp
      obtain ⟨n, rfl⟩ := State.localRead_state hread
      cases hp
      exact ⟨by have := v.isLt; rw [BitVec.toNat_setWidth]; omega, rfl, rfl⟩
  · exact .inl ⟨k, a, ht⟩

/-- EXECUTE defers a store only out-of-file, and changes LK only for TAD (R149, R183, R190). -/
theorem stepExecute_cases {s t : State} (h : stepExecute s = .next t) :
    (∃ k a, t = takeMachineCheck k a s) ∨
    ∃ lk id, EngineMoves s t lk false id (if id then 9#4 else 0#4) ∧ t.ea = s.ea ∧
      (id = s.id ∨ 15 < s.ea.toNat) ∧ (s.tmp ≠ 1#4 → lk = s.lk) := by
  unfold stepExecute at h
  split at h
  next => cases h
  next htmp =>
    obtain h | ⟨k, a, -, ht⟩ := Res.outcome_eq_next.1 h
    · right
      obtain ⟨u, heff, hu⟩ := Res.bind_eq_ok.1 h
      cases hu
      obtain ⟨-, hcanon, hmail, -, hea, lk, id, hpsw, hid, hlk⟩ := effect_ok heff
      refine ⟨lk, id, ⟨hcanon, hmail, ?_⟩, hea, hid.imp_right fun hout => by simpa [inFile] using hout, fun h1 => hlk ?_⟩
      · obtain ⟨flk, fop, fio, -, fid, -, ftmp, facc⟩ := State.fields_of_psw hpsw
        apply State.psw_of_fields <;> simp [State.endExecute, *, cycleWriteback, cycleFetch]
      · have narrow : ∀ tmp : BitVec 4, ¬ 5 < tmp.toNat → tmp ≠ 1#4 → tmp.setWidth 3 ≠ 1#3 := by decide
        exact narrow _ htmp h1
    · exact .inl ⟨k, a, ht⟩

theorem stepWriteback_cases {s t : State} (h : stepWriteback s = .next t) :
    (∃ k a, t = takeMachineCheck k a s) ∨ EngineMoves s t s.lk s.ex false 0#4 := by
  obtain h | ⟨k, a, -, ht⟩ := Res.outcome_eq_next.1 h
  · right
    obtain ⟨u, hw, hu⟩ := Res.bind_eq_ok.1 h
    cases hu
    obtain ⟨hlk, hop, hio, hex, -, -, htmp, hacc⟩ := State.fields_of_psw ((State.psw_localWrite hw).trans s.psw_eq_pack)
    obtain ⟨l, -, hl, rfl⟩ := State.localWrite_ok hw
    exact ⟨fun hs => hs.poke hl, by cases l <;> rfl, by apply State.psw_of_fields <;> simp [*, cycleFetch]⟩
  · exact .inl ⟨k, a, ht⟩

/-- FETCH runs the decoded instruction on the fetched state, or takes a machine check (R142, R332). -/
theorem stepFetch_cases {s t : State} (h : stepFetch s = .next t) :
    (∃ k a, t = takeMachineCheck k a s) ∨ ∃ w s1, s.fetch = .ok (w, s1) ∧ exec (decode w) s1 = .next t := by
  unfold stepFetch at h
  split at h
  next w s1 hf => exact .inr ⟨w, s1, hf, h⟩
  next k a _ => cases h; exact .inl ⟨k, a, rfl⟩
  next => cases h

/-! The engine's part of the invariant, by the cycle state (R30, R74, R183, R233). -/

theorem EngineLegal.cycle_of_io {s : State} (h : EngineLegal s) (hio : s.io = true) : s.cycle = 4#4 := by
  obtain ⟨-, -, -, -, -, hwait⟩ := h
  exact hwait hio

theorem EngineLegal.io_eq_false {s : State} (h : EngineLegal s) (hc : s.cycle ≠ 4#4) : s.io = false := by
  simpa using fun hio => hc (h.cycle_of_io hio)

theorem EngineLegal.of_idle {s : State} (hc : s.cycle = 0#4 ∨ s.cycle = 15#4) (hio : s.io = false) :
    EngineLegal s := by
  obtain hc | hc := hc <;> simp [EngineLegal, LegalCycle, hc, hio]

theorem EngineLegal.of_waiting {s : State} (hc : s.cycle = 4#4) : EngineLegal s := by
  simp [EngineLegal, LegalCycle, hc]

theorem EngineLegal.of_pending {s : State} (hc : s.cycle = 2#4 ∨ s.cycle = 3#4) (hio : s.io = false)
    (hea : s.ea.toNat < 65536) (hid : s.cycle = 3#4 → s.id = false) (hform : LegalForm s.tmp s.acc) : EngineLegal s := by
  refine ⟨?_, fun _ => hform, fun _ => hea, hid, ?_, ?_⟩
  · obtain hc | hc := hc <;> simp [LegalCycle, hc]
  · obtain hc | hc := hc <;> simp [hc]
  · simp [hio]

theorem EngineLegal.of_writeback {s : State} (hc : s.cycle = 9#4) (hio : s.io = false) (hlt : s.ea.toNat < 65536)
    (hout : 15 < s.ea.toNat) : EngineLegal s := by
  simp [EngineLegal, LegalCycle, hc, hio, hlt, hout]

/-- What a CPU step that begins outside IO-WAIT, or there with IO clear, makes of a legal engine: a legal one, which has
posted a command only where it now waits for an answer (R220, R223). -/
structure CpuStepLegal (s t : State) : Prop where
  canon : CanonicalMemory s → CanonicalMemory t
  engine : EngineLegal t
  posts : t.mailbox = s.mailbox ∨ (t.cycle = 4#4 ∧ t.io = true ∧ t.acc ≠ 7#3)

/-- A machine check leaves HALTED with IO clear (R332). -/
theorem CpuStepLegal.of_check {s t : State} (hio : s.io = false) (h : ∃ k a, t = takeMachineCheck k a s) :
    CpuStepLegal s t := by
  obtain ⟨k, a, rfl⟩ := h
  exact ⟨id, .of_idle (by simp [takeMachineCheck, cycleHalted]) (by simp [takeMachineCheck, hio]), .inl rfl⟩

theorem stepFetch_legal {s t : State} (hio : s.io = false) (h : stepFetch s = .next t) : CpuStepLegal s t := by
  obtain hcheck | ⟨w, s1, hf, hexec⟩ := stepFetch_cases h
  · exact .of_check hio hcheck
  · obtain ⟨hslots, hfetched⟩ := State.fetch_ok hf
    obtain ⟨-, hzp, hmem, -, -, hnext⟩ := exec_leaves (decode_wellFormed w) hfetched hexec
    have hcanon (hs : CanonicalMemory s) : CanonicalMemory t := by
      rw [CanonicalMemory, hzp, hmem]
      exact hslots.canon hs
    obtain ⟨hmail, hc, hi⟩ | ⟨hmail, hc, hi, hea, hid, hform⟩ | ⟨hc, hi, hacc, -⟩ := hnext
    · exact ⟨hcanon, .of_idle hc hi, .inl (hmail.trans hslots.mailbox_eq)⟩
    · exact ⟨hcanon, .of_pending hc hi hea (fun h3 => by simp [hid, h3]) hform, .inl (hmail.trans hslots.mailbox_eq)⟩
    · exact ⟨hcanon, .of_waiting hc, .inr ⟨hc, hi, hacc⟩⟩

theorem stepIndirect_legal {s t : State} (he : EngineLegal s) (hc : s.cycle = 2#4) (h : stepIndirect s = .next t) :
    CpuStepLegal s t := by
  have hio := he.io_eq_false (by rw [hc]; decide)
  obtain hcheck | ⟨⟨hcanon, hmail, hpsw⟩, hea⟩ := stepIndirect_cases h
  · exact .of_check hio hcheck
  · obtain ⟨-, hform, -⟩ := he
    obtain ⟨-, -, fio, -, fid, fcycle, ftmp, facc⟩ := State.fields_of_psw hpsw
    refine ⟨hcanon, .of_pending (.inr fcycle) (fio.trans hio) hea (fun _ => fid) ?_, .inl hmail⟩
    rw [ftmp, facc]
    exact hform (.inl hc)

theorem stepExecute_legal {s t : State} (he : EngineLegal s) (hc : s.cycle = 3#4) (h : stepExecute s = .next t) :
    CpuStepLegal s t := by
  have hio := he.io_eq_false (by rw [hc]; decide)
  obtain hcheck | ⟨lk, id, ⟨hcanon, hmail, hpsw⟩, hea, hid, -⟩ := stepExecute_cases h
  · exact .of_check hio hcheck
  · obtain ⟨-, -, hlt, hnodefer, -, -⟩ := he
    obtain ⟨-, -, fio, -, -, fcycle, -, -⟩ := State.fields_of_psw hpsw
    refine ⟨hcanon, ?_, .inl hmail⟩
    cases id with
    | false => exact .of_idle (.inl fcycle) (fio.trans hio)
    | true =>
      have hout : 15 < s.ea.toNat := hid.resolve_left (by simp [hnodefer hc])
      exact .of_writeback fcycle (fio.trans hio) (hea ▸ hlt (.inr (.inl hc))) (hea ▸ hout)

theorem stepWriteback_legal {s t : State} (hio : s.io = false) (h : stepWriteback s = .next t) : CpuStepLegal s t := by
  obtain hcheck | ⟨hcanon, hmail, hpsw⟩ := stepWriteback_cases h
  · exact .of_check hio hcheck
  · obtain ⟨-, -, fio, -, -, fcycle, -, -⟩ := State.fields_of_psw hpsw
    exact ⟨hcanon, .of_idle (.inl fcycle) (fio.trans hio), .inl hmail⟩

theorem cpuStep_legal {s t : State} (he : EngineLegal s) (hio : s.io = false) (h : cpuStep s = .next t) :
    CpuStepLegal s t := by
  unfold cpuStep at h
  split_ifs at h with h0 h2 h3 h4 h9 h15
  · exact stepFetch_legal hio h
  · exact stepIndirect_legal he h2 h
  · exact stepExecute_legal he h3 h
  · simp only [stepIoWait, hio, Bool.false_eq_true, if_false, Host.Outcome.next.injEq] at h
    subst h
    exact ⟨id, .of_idle (by simp [cycleFetch]) (by simp [hio]), .inl rfl⟩
  · exact stepWriteback_legal hio h
  · cases h
    exact ⟨id, he, .inl rfl⟩

/-- In IO-WAIT with IO set the CPU waits (R151). -/
theorem cpuStep_waiting {s : State} (hc : s.cycle = 4#4) (hio : s.io = true) : cpuStep s = .next s := by
  simp [cpuStep, stepIoWait, hc, hio]

/-! The outstanding commands (R223, R225, R234). -/

theorem outstanding_congr {s t : State} (hm : t.mailbox = s.mailbox) (ho : t.outAgent = s.outAgent)
    (hi : t.inAgent = s.inAgent) : outstanding t = outstanding s := by
  simp [outstanding, State.mailFull, hm, ho, hi]

theorem DeviceLegal.of_outstanding_eq_zero {s : State} (h : outstanding s = 0) : DeviceLegal s :=
  fun _ => ⟨by omega, by omega⟩

/-- While a run goes on with nothing outstanding, the CPU's step leaves at most its own command (R223). -/
theorem DeviceLegal.of_cpuStepLegal {s t : State} (hk : CpuKeeps s t) (hl : CpuStepLegal s t)
    (h0 : s.running = true → outstanding s = 0) : DeviceLegal t := by
  have hrun : t.running = s.running := (congrArg State.running hk :)
  have hout : t.outAgent = s.outAgent := (congrArg State.outAgent hk :)
  have hin : t.inAgent = s.inAgent := (congrArg State.inAgent hk :)
  intro ht
  replace h0 := h0 (hrun ▸ ht)
  obtain hmail | ⟨hc, hio, hacc⟩ := hl.posts
  · have := outstanding_congr hmail hout hin
    omega
  · refine ⟨?_, fun _ => ⟨hc, hacc, fun _ => hio⟩⟩
    unfold outstanding at h0 ⊢
    have := Bool.toNat_le t.mailFull
    rw [hout, hin]
    omega

/-- The CPU's step keeps the invariant, in a run only while the run is not cancelled: a cancelled run steps no more, so
that it does not leave IO-WAIT with a command outstanding (R375, R376). -/
theorem cpuStep_inv {s t : State} (hi : Inv s) (hcancel : s.running = true → s.cancel = false)
    (h : cpuStep s = .next t) : Inv t := by
  obtain ⟨hcanon, hengine, hdevice⟩ := hi
  by_cases hio : s.io = true
  · rw [cpuStep_waiting (hengine.cycle_of_io hio) hio] at h
    cases h
    exact ⟨hcanon, hengine, hdevice⟩
  · have hl := cpuStep_legal hengine (by simpa using hio) h
    refine ⟨hl.canon hcanon, hl.engine, .of_cpuStepLegal (cpuStep_keeps h) hl fun hrun => ?_⟩
    obtain ⟨hle, hone⟩ := hdevice hrun
    have hne : outstanding s ≠ 1 := fun h1 => by
      obtain ⟨-, -, hset⟩ := hone h1
      exact hio (hset (hcancel hrun))
    omega

/-- A performed command is outstanding no more (R226). -/
theorem devFinish_outstanding {d : Dev} {s t : State} (hle : outstanding s ≤ 1) (hp : s.canPerform d = true)
    (h : devFinish d s = .ok t) : outstanding t = 0 := by
  unfold devFinish at h
  simp only [State.canPerform, Bool.and_eq_true, bne_iff_ne, ne_eq] at hp
  obtain ⟨-, hp⟩ := hp
  split at h
  next c hc =>
    obtain ⟨hrest, -, hown, hother⟩ := devPerform_ok h
    have hmail : t.mailbox = s.mailbox := (congrArg State.mailbox hrest :)
    unfold outstanding State.mailFull at hle ⊢
    cases d with
    | output =>
      have hin : t.inAgent = s.inAgent := hother .input (by decide)
      simp only [State.agent] at hc hown
      simp only [hc, hown, hin, hmail, Option.isSome, Bool.toNat_true, Bool.toNat_false] at hle ⊢
      omega
    | input =>
      have hout : t.outAgent = s.outAgent := hother .output (by decide)
      simp only [State.agent] at hc hown
      simp only [hc, hown, hout, hmail, Option.isSome, Bool.toNat_true, Bool.toNat_false] at hle ⊢
      omega
  next hc => exact absurd hc hp

/-- A claim moves a command from the mailbox to the agent (R225). -/
theorem devClaim_outstanding {d : Dev} {s : State} (hc : s.canClaim d = true) :
    outstanding (devClaim d s) = outstanding s := by
  simp only [State.canClaim, Bool.and_eq_true, beq_iff_eq] at hc
  obtain ⟨⟨⟨-, hnone⟩, hfull⟩, -⟩ := hc
  have hempty : (devClaim d s).mailFull = false := by simp [devClaim, State.emptyMailbox, State.mailFull]
  unfold outstanding
  rw [hempty, hfull]
  cases d with
  | output =>
    replace hnone : s.outAgent.pending = none := hnone
    simp [devClaim, State.setAgent, State.emptyMailbox, hnone]
  | input =>
    replace hnone : s.inAgent.pending = none := hnone
    simp [devClaim, State.setAgent, State.emptyMailbox, hnone, Nat.add_comm]

/-! Every step keeps the invariant, by who moves (R374). -/

theorem drawTurn_inv {s : State} (h : Inv s) : Inv s.drawTurn.2 := by
  unfold State.drawTurn
  split <;> exact h

theorem devFinish_inv {d : Dev} {s t : State} (hi : Inv s) (hrun : s.running = true) (hp : s.canPerform d = true)
    (h : devFinish d s = .ok t) : Inv t := by
  obtain ⟨hcanon, hengine, hdevice⟩ := hi
  have hk := devFinish_keeps h
  obtain ⟨hle, -⟩ := hdevice hrun
  exact ⟨hk.canon hcanon, hk.engine hengine, .of_outstanding_eq_zero (devFinish_outstanding hle hp h)⟩

theorem devClaim_inv {d : Dev} {s : State} (hi : Inv s) (hc : s.canClaim d = true) : Inv (devClaim d s) := by
  rw [Inv, DeviceLegal, devClaim_outstanding hc]
  cases d <;> exact hi

theorem loopStep_inv {s t : State} (hi : Inv s) (h : loopStep s = .next t) : Inv t := by
  obtain ⟨-, hend⟩ | ⟨hcancel, -, u, hcpu, rfl⟩ := loopStep_cases h
  · obtain ⟨hcanon, hengine, -⟩ := hi
    obtain ⟨hk, hstopped⟩ := endOfRun_keeps hend
    exact ⟨hk.canon hcanon, hk.engine hengine, fun hrun => by simp [hstopped] at hrun⟩
  · have hu : Inv u := cpuStep_inv hi (fun _ => hcancel) hcpu
    exact hu

theorem runStep_inv {s t : State} (hi : Inv s) (hrun : s.running = true) (h : runStep s = .next t) : Inv t := by
  have hrun' : s.drawTurn.2.running = true := (congrArg State.running s.drawTurn_rest).trans hrun
  replace hi := drawTurn_inv hi
  obtain hloop | ⟨d, hfin, hp⟩ | ⟨d, rfl, hc⟩ := runStep_cases h
  · exact loopStep_inv hi hloop
  · exact devFinish_inv hi hrun' hp hfin
  · exact devClaim_inv hi hc

/-- Settles O49: by who moves; a CPU step by the cycle state it begins in. -/
theorem stepKeepsInvariant : Obligations.StepKeepsInvariant := by
  intro s t hi h
  unfold step machineStep at h
  split at h
  next hrun => exact runStep_inv hi hrun h
  next hrun => exact cpuStep_inv hi (fun hr => absurd hr hrun) h

/-- Settles O48. -/
theorem resetMeetsInvariant : Obligations.ResetMeetsInvariant :=
  ⟨CanonicalMemory.reset, .of_idle (by decide) (by decide), .of_outstanding_eq_zero (by decide)⟩

/-- Settles O47: the arrays and the tables are empty, and the PSW is 0. -/
theorem resetState : Obligations.ResetState := by
  have hpsw : State.reset.psw = packPsw false false false false false 0#4 0#4 0#3 := by decide
  obtain ⟨-, hop, hio, hex, hid, hcycle, htmp, hacc⟩ := State.fields_of_psw hpsw
  refine ⟨hcycle, hop, hio, hex, hid, htmp, hacc, rfl, rfl, rfl, rfl, rfl, rfl, rfl, rfl, rfl, rfl, ?_, ?_, ?_⟩
  · exact fun o => rfl
  · exact fun a => rfl
  · exact fun p => ⟨Vector.getElem_replicate _, Vector.getElem_replicate _⟩

end Sys2Proof.Machine

namespace Sys2Proof.Machine

/-! An engine write of the PSW is refused (R33(b), R146). -/

@[simp] theorem State.localWrite_psw (s : State) (v : Word) : s.localWrite 7#32 v = .refuse .pswWrite := by
  simp [State.localWrite]

/-- The effects that write their final address, at address 7. -/
theorem effect_psw_refused {op acc : BitVec 3} (s : State)
    (h : op = 2#3 ∨ (op = 3#3 ∧ acc ≠ 7#3) ∨ (op = 4#3 ∧ acc = 7#3)) : effect op acc 7#32 s = .refuse .pswWrite := by
  obtain rfl | ⟨rfl, hacc⟩ | ⟨rfl, rfl⟩ := h
  · by_cases hacc : acc = 7#3
    · have hin : inFile 7#32 = true := rfl
      simp [effect, hacc, effectIsz, State.localRead_inFile, hin]
    · simp [effect, hacc, effectSta]
  · simp [effect, effectDca, hacc]
  · simp [effect, effectJms]

/-- The same in FETCH, for a direct address 7 (R144). -/
theorem fetchMri_psw_refused {op acc : BitVec 3} {z : Bool} {off : BitVec 8} {s : State}
    (ha : address s.pc z off = 7#32) (h : op = 2#3 ∨ (op = 3#3 ∧ acc ≠ 7#3) ∨ (op = 4#3 ∧ acc = 7#3)) :
    fetchMri op acc false z off s = .refused .pswWrite := by
  rw [fetchMri_direct _ _ _ _ _ (by rw [ha]; decide), ha, effect_psw_refused _ h, endFetch_refuse]

theorem stepWriteback_psw_refused {s : State} (hea : s.ea = 7#32) : stepWriteback s = .refused .pswWrite := by
  simp [stepWriteback, hea]

theorem stepExecute_psw_refused {s : State} (hea : s.ea = 7#32)
    (h : s.tmp = 2#4 ∨ (s.tmp = 3#4 ∧ s.acc ≠ 7#3) ∨ (s.tmp = 4#4 ∧ s.acc = 7#3)) :
    stepExecute s = .refused .pswWrite := by
  have heff : effect (s.tmp.setWidth 3) s.acc 7#32 s = .refuse .pswWrite := by
    refine effect_psw_refused s ?_
    obtain htmp | ⟨htmp, hacc⟩ | ⟨htmp, hacc⟩ := h
    · simp [htmp]
    · simp [htmp, hacc]
    · simp [htmp, hacc]
  have htmp : ¬ 5 < s.tmp.toNat := by
    obtain htmp | ⟨htmp, -⟩ | ⟨htmp, -⟩ := h <;> simp [htmp]
  simp [stepExecute, htmp, hea, heff]

/-- Settles O16: every write of address 7 goes through `localWrite`, in FETCH, EXECUTE and WRITEBACK alike. -/
theorem pswWriteRefused : Obligations.PswWriteRefused := by
  refine ⟨fun s acc z off hacc ha => ⟨?_, ?_, ?_, ?_⟩, fun s hea => ⟨fun hc => ?_, fun hc h => ?_⟩⟩
  · exact fetchMri_psw_refused ha (.inl rfl)
  · exact fetchMri_psw_refused ha (.inr (.inl ⟨rfl, hacc⟩))
  · exact fetchMri_psw_refused ha (.inl rfl)
  · exact fetchMri_psw_refused ha (.inr (.inr ⟨rfl, rfl⟩))
  · rw [← stepWriteback_psw_refused hea]
    simp [cpuStep, hc]
  · rw [← stepExecute_psw_refused hea h]
    simp [cpuStep, hc]

/-! LK through what FETCH runs (R25, R190). -/

theorem State.lk_clearPsw (s : State) : s.clearPsw.lk = s.lk :=
  (State.fields_of_psw s.psw_clearPsw).1

theorem State.lk_fetch {s s1 : State} {w : Word} (h : s.fetch = .ok (w, s1)) : s1.lk = s.lk := by
  obtain ⟨⟨v, u⟩, hu, hv⟩ := Res.bind_eq_ok.1 h
  obtain ⟨n, rfl⟩ := State.busRead_state hu
  cases hv
  simp [State.lk_clearPsw]

/-- The path to the final address does not change LK, and the effect there only for TAD. -/
theorem mriFetch_lk {op acc : BitVec 3} {i z : Bool} {off : BitVec 8} {s u : State} (ho : op ≠ 1#3)
    (h : mriFetch op acc i z off s = .ok u) : u.lk = s.lk := by
  unfold mriFetch at h
  simp only at h
  split_ifs at h
  · exact effect_lk ho h
  all_goals cases h; simp

theorem fetchMri_lk {op acc : BitVec 3} {i z : Bool} {off : BitVec 8} {s t : State} (ho : op ≠ 1#3)
    (h : fetchMri op acc i z off s = .next t) : t.lk = s.lk :=
  endFetch_lk h fun _ hu => (mriFetch_lk ho hu).trans (s.lk_latch op acc)

/-- IOT sets and clears IO and no other field of the PSW (R220, R221). -/
theorem iotIssue_lk (unit : BitVec 6) (fn : BitVec 3) (s : State) : (iotIssue unit fn s).lk = s.lk := by
  unfold iotIssue
  simp only
  split
  next s2 h =>
    rw [State.attn_some h]
    simp
  next => simp

theorem execIot_lk {acc : BitVec 3} {unit : BitVec 6} {fn : BitVec 3} {s t : State}
    (h : execIot acc unit fn s = .next t) : t.lk = s.lk := by
  refine endFetch_lk h fun u hu => ?_
  cases hu
  rw [iotIssue_lk, State.lk_latch]

/-- Before its operation an OPR latches its fields and sets OP (R142, R260). -/
theorem fetchOpr_lk {acc : BitVec 3} {f : State → Res State} {s t : State} (h : fetchOpr acc f s = .next t)
    (hf : ∀ s0 u, f s0 = .ok u → u.lk = s0.lk) : t.lk = s.lk :=
  endFetch_lk h fun u hu => (hf _ u hu).trans (by simp)

theorem State.lk_doIf {s : State} {b : Bool} {f : State → State} (h : (f s).lk = s.lk) : (s.doIf b f).lk = s.lk := by
  cases b
  · rfl
  · exact h

/-- BSW exchanges the bytes of AC and leaves LK, as the empty rotation does (R271). -/
theorem opRot_lk {rot : Rot} {d : BitVec 3} {s : State} (hr : rot = .none ∨ rot = .bsw) :
    (opRot rot d s).lk = s.lk := by
  obtain rfl | rfl := hr <;> simp [opRot, rotate]

/-- Group 1 without CLL, CML, IAC and a rotation through LK (R25, R261). -/
theorem fetchGroup1_lk {d : BitVec 3} {cla cma : Bool} {rot : Rot} {s t : State} (hd : d ≠ 7#3)
    (hr : rot = .none ∨ rot = .bsw) (h : fetchGroup1 d cla false cma false false rot s = .next t) : t.lk = s.lk := by
  refine fetchOpr_lk h fun s0 u hu => ?_
  cases hu
  calc (group1 d cla false cma false false rot s0).lk
      = ((s0.doIf cla (opCla d)).doIf cma (opCma d)).lk := opRot_lk hr
    _ = (s0.doIf cla (opCla d)).lk := State.lk_doIf (State.lk_setAc _ _ _ hd)
    _ = s0.lk := State.lk_doIf (State.lk_setAc _ _ _ hd)

/-- Group 2 writes PC, AC and CYCLE (R275). -/
theorem fetchGroup2_lk {d : BitVec 3} {skips : Word → Bool → Bool} {cla osr hlt : Bool} {s t : State} (hd : d ≠ 7#3)
    (h : fetchGroup2 d skips cla osr hlt s = .next t) : t.lk = s.lk := by
  refine fetchOpr_lk h fun s0 u hu => ?_
  cases hu
  let s1 := s0.doIf (skips (s0.ac d) s0.lk) State.skip
  let s2 := s1.doIf cla (opCla d)
  calc (group2 d skips cla osr hlt s0).lk
      = (s2.doIf osr (opOsr d)).lk := State.lk_doIf (State.lk_setCycle _ _)
    _ = s2.lk := State.lk_doIf (State.lk_setAc _ _ _ hd)
    _ = s1.lk := State.lk_doIf (State.lk_setAc _ _ _ hd)
    _ = s0.lk := State.lk_doIf (State.lk_setPc _ _)

/-- MOV, OR and XOR write one accumulator (R291, R293, R294). -/
theorem fetchOpr_setAc_lk {d : BitVec 3} {f : State → Res State} {s t : State} (hd : d ≠ 7#3)
    (h : fetchOpr d f s = .next t) (hf : ∀ s0, ∃ v, f s0 = .ok (s0.setAc d v)) : t.lk = s.lk := by
  refine fetchOpr_lk h fun s0 u hu => ?_
  obtain ⟨v, hv⟩ := hf s0
  rw [hv] at hu
  cases hu
  exact State.lk_setAc _ _ _ hd

theorem execSwp_lk {d r : BitVec 3} {s t : State} (hd : d ≠ 7#3) (hr : r ≠ 7#3) (h : execSwp d r s = .next t) :
    t.lk = s.lk := by
  refine fetchOpr_lk h fun s0 u hu => ?_
  cases hu
  rw [State.lk_setAc _ _ _ hr, State.lk_setAc _ _ _ hd]

/-- The instructions that R25 does not list leave LK as it was, in whatever state they run. -/
theorem exec_lk {i : Instr} {s t : State} (hw : i.WellFormed = true) (hl : Reference.mayWriteLink i = false)
    (h : exec i s = .next t) : t.lk = s.lk := by
  cases i
  case tad | cll | cml | iac | rar | ral | rtr | rtl | bsw6 => cases hl
  case shl | shr | sar | rol | ror | shli | shri | sari | roli | rori => cases hl
  case and | sta | isz | dca | jms | jmp => exact fetchMri_lk (by decide) h
  case iot => exact execIot_lk h
  case cla acc cll cma cml iac rot =>
    simp only [Reference.mayWriteLink, Bool.or_eq_false_iff, Bool.and_eq_false_iff, bne_eq_false_iff_eq] at hl
    obtain ⟨⟨⟨rfl, rfl⟩, rfl⟩, hrot⟩ := hl
    exact fetchGroup1_lk (isReg_ne hw) hrot h
  case cma acc cml iac rot =>
    simp only [Reference.mayWriteLink, Bool.or_eq_false_iff, Bool.and_eq_false_iff, bne_eq_false_iff_eq] at hl
    obtain ⟨⟨rfl, rfl⟩, hrot⟩ := hl
    exact fetchGroup1_lk (isReg_ne hw) hrot h
  case bsw => exact fetchGroup1_lk (isReg_ne hw) (.inr rfl) h
  case nop => exact fetchGroup1_lk (isReg_ne hw) (.inl rfl) h
  case sma | sza | snl | spa | sna | szl | skp | cla2 | osr | hlt | nop2 => exact fetchGroup2_lk (isReg_ne hw) h
  case mov | or | xor =>
    obtain ⟨hd, -⟩ := Bool.and_eq_true_iff.1 hw
    simp only [exec, execMov, execOr, execXor] at h
    exact fetchOpr_setAc_lk (isReg_ne hd) h fun _ => ⟨_, rfl⟩
  case swp =>
    obtain ⟨hd, hr⟩ := Bool.and_eq_true_iff.1 hw
    exact execSwp_lk (isReg_ne hd) (isReg_ne hr) h
  case jmpWithLoad | reservedRot7 | reservedBit0 | jmsReg | acc7 | iotBit9 | g3rSource7 | g3rBit3 | g3rOp3 | g3iOp3 =>
    cases h

/-! LK through one CPU step (R25, R148-R152). -/

theorem lk_of_check {s t : State} (h : ∃ k a, t = takeMachineCheck k a s) : t.lk = s.lk := by
  obtain ⟨k, a, rfl⟩ := h
  exact takeMachineCheck_lk k a s

theorem EngineMoves.lk_eq {s t : State} {lk ex id : Bool} {cycle : BitVec 4} (h : EngineMoves s t lk ex id cycle) :
    t.lk = lk :=
  (State.fields_of_psw h.psw).1

theorem stepFetch_lk {s t : State} (hw : ∀ w s1, s.fetch = .ok (w, s1) → Reference.mayWriteLink (decode w) = false)
    (h : stepFetch s = .next t) : t.lk = s.lk := by
  obtain hcheck | ⟨w, s1, hf, hexec⟩ := stepFetch_cases h
  · exact lk_of_check hcheck
  · exact (exec_lk (decode_wellFormed w) (hw w s1 hf) hexec).trans (State.lk_fetch hf)

theorem stepIndirect_lk {s t : State} (h : stepIndirect s = .next t) : t.lk = s.lk := by
  obtain hcheck | ⟨hmoves, -⟩ := stepIndirect_cases h
  · exact lk_of_check hcheck
  · exact hmoves.lk_eq

theorem stepExecute_lk {s t : State} (htmp : s.tmp ≠ 1#4) (h : stepExecute s = .next t) : t.lk = s.lk := by
  obtain hcheck | ⟨lk, id, hmoves, -, -, hlk⟩ := stepExecute_cases h
  · exact lk_of_check hcheck
  · exact hmoves.lk_eq.trans (hlk htmp)

theorem stepIoWait_lk {s t : State} (h : stepIoWait s = .next t) : t.lk = s.lk := by
  cases h
  split
  · rfl
  · exact s.lk_setCycle cycleFetch

theorem stepWriteback_lk {s t : State} (h : stepWriteback s = .next t) : t.lk = s.lk := by
  obtain hcheck | hmoves := stepWriteback_cases h
  · exact lk_of_check hcheck
  · exact hmoves.lk_eq

/-- Settles O46: an instruction by its constructor, a CPU step by the handler that CYCLE selects. -/
theorem linkWritersOnly : Obligations.LinkWritersOnly := by
  refine ⟨fun i s t => exec_lk, fun s t hc hw h => ?_, fun s t hc0 hc1 htad h => ?_⟩
  · rw [cpuStep, if_pos hc] at h
    exact stepFetch_lk hw h
  · unfold cpuStep at h
    split_ifs at h with hfetch hindirect hexecute
    · exact absurd hfetch (not_or.2 ⟨hc0, hc1⟩)
    · exact stepIndirect_lk h
    · exact stepExecute_lk (fun htmp => htad ⟨hexecute, htmp⟩) h
    · exact stepIoWait_lk h
    · exact stepWriteback_lk h
    · cases h
      rfl

end Sys2Proof.Machine

namespace Sys2Proof.Machine

/-! With every page bound a bus access at a word address reaches a place, so it takes no machine check (R61, R74, R332). -/

theorem State.unitAt_ne_none {s : State} (hp : AllPagesBound s) {a : Addr} (ha : a.toNat < 65536) :
    s.unitAt a ≠ none := by
  have hpage : pageOf a < 256 := by
    rw [pageOf, BitVec.toNat_ushiftRight, Nat.shiftRight_eq_div_pow]
    omega
  rw [State.unitAt, Vector.getElem?_eq_getElem hpage]
  exact hp ⟨pageOf a, hpage⟩

theorem State.locate_ne_none {s : State} (hp : AllPagesBound s) {a : Addr} (ha : a.toNat < 65536) :
    s.locate a ≠ none := by
  unfold State.locate
  split
  next hunit => exact absurd hunit (State.unitAt_ne_none hp ha)
  all_goals exact Option.some_ne_none _

theorem State.localRead_ne_check {s : State} (hp : AllPagesBound s) {a : Addr} (ha : a.toNat < 65536)
    (k : CheckKind) (b : Addr) : s.localRead a ≠ .check k b := fun h =>
  let ⟨_, hnone, _⟩ := State.localRead_check h
  State.locate_ne_none hp ha hnone

theorem State.localWrite_ne_check {s : State} (hp : AllPagesBound s) {a : Addr} (ha : a.toNat < 65536) (v : Word)
    (k : CheckKind) (b : Addr) : s.localWrite a v ≠ .check k b := fun h =>
  let ⟨_, hnone⟩ := State.localWrite_check h
  State.locate_ne_none hp ha hnone

theorem effect_ne_check {s : State} (hp : AllPagesBound s) {a : Addr} (ha : a.toNat < 65536) (op acc : BitVec 3)
    (k : CheckKind) (b : Addr) : effect op acc a s ≠ .check k b := fun h =>
  let ⟨_, hnone⟩ := effect_check h
  State.locate_ne_none hp ha hnone

/-- PC is a word, so FETCH's address always has a page slot (R142). -/
theorem State.fetch_ne_check {s : State} (hp : AllPagesBound s) (k : CheckKind) (b : Addr) :
    s.fetch ≠ .check k b := by
  have hpc : (s.clearPsw.pc.setWidth 32).toNat < 65536 := by
    have := s.clearPsw.pc.isLt
    rw [BitVec.toNat_setWidth]
    omega
  refine Res.bind_ne_check (fun k b => ?_) (by simp) k b
  unfold State.busRead
  split
  next hnone => exact absurd hnone (State.locate_ne_none (s := s.clearPsw) hp hpc)
  next => exact State.readLoc_no_check

/-! The machine-check record through one CPU step, by the handler that CYCLE selects (R40, R142, R148-R152). -/

/-- The record changes only where the step takes a machine check (R332). -/
theorem Res.outcome_mcheck {s t : State} {r : Res State} (h : r.outcome s = .next t) (hn : ∀ k a, r ≠ .check k a)
    (hr : ∀ u, r = .ok u → u.mcheck = s.mcheck) : t.mcheck = s.mcheck :=
  hr t (Res.outcome_next_ok h hn)

theorem SlotsOnly.mcheck_eq {s t : State} (h : SlotsOnly s t) : t.mcheck = s.mcheck :=
  (congrArg State.mcheck h :)

theorem stepFetch_mcheck {s t : State} (hp : AllPagesBound s) (h : stepFetch s = .next t) : t.mcheck = s.mcheck := by
  unfold stepFetch at h
  split at h
  next w s1 hf =>
    obtain ⟨hslots, hfetched⟩ := State.fetch_ok hf
    exact (exec_leaves (decode_wellFormed w) hfetched h).mcheck.trans hslots.mcheck_eq
  next k a hf => exact absurd hf (State.fetch_ne_check hp k a)
  next => cases h

/-- The pointer is in a slot, or over the bus at EA (R145, R148). -/
theorem stepIndirect_mcheck {s t : State} (hp : AllPagesBound s) (hea : s.ea.toNat < 65536)
    (h : stepIndirect s = .next t) : t.mcheck = s.mcheck := by
  unfold stepIndirect at h
  simp only at h
  split at h
  · cases h
    exact (s.resolvePointer_keeps s.ea).2.mcheck_eq
  · refine Res.outcome_mcheck h (Res.bind_ne_check (Res.bind_ne_check (State.localRead_ne_check hp hea)
      (by simp)) (by simp)) fun u hu => ?_
    obtain ⟨⟨p, s1⟩, hpointer, hu⟩ := Res.bind_eq_ok.1 hu
    obtain ⟨⟨v, s2⟩, hread, hpointer⟩ := Res.bind_eq_ok.1 hpointer
    obtain ⟨n, rfl⟩ := State.localRead_state hread
    cases hpointer
    cases hu
    rfl

theorem stepExecute_mcheck {s t : State} (hp : AllPagesBound s) (hea : s.ea.toNat < 65536)
    (h : stepExecute s = .next t) : t.mcheck = s.mcheck := by
  unfold stepExecute at h
  split at h
  · cases h
  · refine Res.outcome_mcheck h (Res.bind_ne_check (effect_ne_check hp hea _ _) (by simp)) fun u hu => ?_
    obtain ⟨s1, heff, hu⟩ := Res.bind_eq_ok.1 hu
    obtain ⟨-, -, -, hrecord, -⟩ := effect_ok heff
    cases hu
    exact hrecord

theorem stepIoWait_mcheck {s t : State} (h : stepIoWait s = .next t) : t.mcheck = s.mcheck := by
  cases h
  split <;> rfl

theorem stepWriteback_mcheck {s t : State} (hp : AllPagesBound s) (hea : s.ea.toNat < 65536)
    (h : stepWriteback s = .next t) : t.mcheck = s.mcheck := by
  refine Res.outcome_mcheck h (Res.bind_ne_check (State.localWrite_ne_check hp hea _) (by simp)) fun u hu => ?_
  obtain ⟨s1, hw, hu⟩ := Res.bind_eq_ok.1 hu
  obtain ⟨l, -, -, rfl⟩ := State.localWrite_ok hw
  cases hu
  cases l <;> rfl

theorem cpuStep_mcheck {s t : State} (hp : AllPagesBound s) (he : EngineLegal s) (h : cpuStep s = .next t) :
    t.mcheck = s.mcheck := by
  obtain ⟨-, -, hea, -⟩ := he
  unfold cpuStep at h
  split_ifs at h with h0 h2 h3 h4 h9 h15
  · exact stepFetch_mcheck hp h
  · exact stepIndirect_mcheck hp (hea (.inl h2)) h
  · exact stepExecute_mcheck hp (hea (.inr (.inl h3))) h
  · exact stepIoWait_mcheck h
  · exact stepWriteback_mcheck hp (hea (.inr (.inr h9))) h
  · cases h
    rfl

/-! The record through a step of a run, by who moves (R374). Devices do not touch the bus. -/

theorem DeviceKeeps.mcheck_eq {s t : State} (h : DeviceKeeps s t) : t.mcheck = s.mcheck := by
  obtain ⟨hrest, -⟩ := h
  exact (congrArg State.mcheck hrest :)

theorem devClaim_mcheck (d : Dev) (s : State) : (devClaim d s).mcheck = s.mcheck := by cases d <;> rfl

theorem loopStep_mcheck {s t : State} (hp : AllPagesBound s) (he : EngineLegal s) (h : loopStep s = .next t) :
    t.mcheck = s.mcheck := by
  obtain ⟨-, hend⟩ | ⟨-, -, u, hcpu, rfl⟩ := loopStep_cases h
  · exact (endOfRun_keeps hend).1.mcheck_eq
  · exact (cpuStep_mcheck hp he hcpu :)

theorem runStep_mcheck {s t : State} (hp : AllPagesBound s) (hi : Inv s) (h : runStep s = .next t) :
    t.mcheck = s.mcheck := by
  have hrecord : s.drawTurn.2.mcheck = s.mcheck := (congrArg State.mcheck s.drawTurn_rest :)
  have hp' : AllPagesBound s.drawTurn.2 := by rwa [AllPagesBound, (drawTurn_setupKept s).pages]
  obtain ⟨-, he, -⟩ := drawTurn_inv hi
  rw [← hrecord]
  obtain hloop | ⟨d, hfin, -⟩ | ⟨d, rfl, -⟩ := runStep_cases h
  · exact loopStep_mcheck hp' he hloop
  · exact (devFinish_keeps hfin).mcheck_eq
  · exact devClaim_mcheck d _

/-- Settles O51: the engine's addresses are words, and each of them has a bound page. -/
theorem noMachineCheckWhenAllPagesBound : Obligations.NoMachineCheckWhenAllPagesBound := by
  intro s t hi hp h
  unfold step machineStep at h
  split at h
  · exact runStep_mcheck hp hi h
  · obtain ⟨-, he, -⟩ := hi
    exact cpuStep_mcheck hp he h

/-! The host's accesses between runs (R64, R65, R68, R69, R373). -/

theorem hostCall_idle {s : State} (h : s.running = false) (c : HostCall) : hostCall c s = hostIdleCall c s := by
  simp [hostCall, h]

@[simp] theorem State.running_poke (s : State) (l : Loc) (v : Word) : (s.poke l v).running = s.running := by
  cases l <;> rfl

/-- Keeping a word leaves the page table, so every address leads where it did (R65). -/
@[simp] theorem State.locate_poke (s : State) (l : Loc) (v : Word) (a : Addr) :
    (s.poke l v).locate a = s.locate a := by
  cases l <;> rfl

theorem State.peek_poke_same (s : State) (l : Loc) (v : Word) : (s.poke l v).peek l = some v := by
  simp [State.peek_poke]

theorem hostBusWrite_bound {s : State} {a : Addr} {l : Loc} (h : s.locate a = some l) (v : Word) :
    hostBusWrite a v s = .answered .done (s.poke l v) := by
  simp [hostBusWrite, h]

theorem hostBusWrite_unbound {s : State} {a : Addr} (h : s.locate a = none) (v : Word) :
    hostBusWrite a v s = .answered (.error .unbound) s := by
  simp [hostBusWrite, h]

theorem hostBusRead_bound {s : State} {a : Addr} {l : Loc} {v : Word} (h : s.locate a = some l)
    (hv : s.peek l = some v) : hostBusRead a s = .answered (.word v) s := by
  simp [hostBusRead, h, hv]

theorem hostBusRead_unbound {s : State} {a : Addr} (h : s.locate a = none) :
    hostBusRead a s = .answered (.error .unbound) s := by
  simp [hostBusRead, h]

/-- Settles O58: the write keeps the word at the place the address leads to, and the address leads there again. -/
theorem hostBusRoundTrip : Obligations.HostBusRoundTrip := by
  intro s a v hrun
  refine ⟨fun l hl => ⟨s.poke l v, ?_, ?_, Frame.poke s l v⟩, fun hnone => ⟨?_, ?_⟩,
    fun i => ⟨s.setX i v, ?_, ?_, Frame.setX s i v⟩⟩
  · rw [hostCall_idle hrun]
    exact hostBusWrite_bound hl v
  · rw [hostCall_idle ((s.running_poke l v).trans hrun)]
    exact hostBusRead_bound ((s.locate_poke l v a).trans hl) (s.peek_poke_same l v)
  · rw [hostCall_idle hrun]
    exact hostBusWrite_unbound hnone v
  · rw [hostCall_idle hrun]
    exact hostBusRead_unbound hnone
  · rw [hostCall_idle hrun, hostIdleCall]
  · rw [hostCall_idle ((s.running_setX i v).trans hrun), hostIdleCall, State.x_setX_same]

theorem hostInstall_of_lt {n : Nat} (h : n < 256) (u : PageUnit) (s : State) :
    hostInstall n u s = .answered .done { s with pages := s.pages.set n (some u) } := dif_pos h

theorem hostInstall_of_le {n : Nat} (h : 256 ≤ n) (u : PageUnit) (s : State) :
    hostInstall n u s = .answered (.error .invalidPage) s := dif_neg (Nat.not_lt.2 h)

theorem hostInstallAttn_of_lt {n : Nat} (h : n < 256) (u : AttnUnit) (s : State) :
    hostInstallAttn n u s = .answered .done { s with attns := s.attns.set n (some u) } := dif_pos h

theorem hostInstallAttn_of_le {n : Nat} (h : 256 ≤ n) (u : AttnUnit) (s : State) :
    hostInstallAttn n u s = .answered (.error .invalidUnit) s := dif_neg (Nat.not_lt.2 h)

/-- Settles O59: an index below 256 sets that slot of its table, a larger one answers the table's error. -/
theorem installBinds : Obligations.InstallBinds := by
  intro s n hrun
  simp only [hostCall_idle hrun, hostIdleCall]
  refine ⟨fun hle => ⟨fun u => hostInstall_of_le hle u s, fun u => hostInstallAttn_of_le hle u s⟩,
    fun hlt => ⟨fun u => ⟨_, hostInstall_of_lt hlt u s, ?_, fun k hk => ?_, rfl⟩,
      fun u => ⟨_, hostInstallAttn_of_lt hlt u s, ?_, fun k hk => ?_, rfl⟩⟩⟩
  · exact Vector.getElem?_set_self hlt
  · exact Vector.getElem?_set_ne hlt hk.symm
  · exact Vector.getElem?_set_self hlt
  · exact Vector.getElem?_set_ne hlt hk.symm

end Sys2Proof.Machine

namespace Sys2Proof

/-! The values of a decoder field, where the tables leave some of them out (R107, R109, R113). -/

theorem grp_cases (w : Word) : Decode.grp w = 0#2 ∨ Decode.grp w = 1#2 ∨ Decode.grp w = 2#2 ∨ Decode.grp w = 3#2 := by
  generalize Decode.grp w = g
  revert g; decide

/-- The opcodes of the memory-reference instructions (R101). -/
theorem op_cases_mri {op : BitVec 3} (h6 : op ≠ 6#3) (h7 : op ≠ 7#3) : op = 0#3 ∨ op = 1#3 ∨ op = 2#3 ∨ op = 3#3 ∨
    op = 4#3 ∨ op = 5#3 := by
  bv_omega

/-- The group-3R operations that are not reserved (R113). -/
theorem op3_cases : ∀ {op3 : BitVec 4}, ¬ 9 ≤ op3.toNat → op3 = 0#4 ∨ op3 = 1#4 ∨ op3 = 2#4 ∨ op3 = 3#4 ∨ op3 = 4#4 ∨
    op3 = 5#4 ∨ op3 = 6#4 ∨ op3 = 7#4 ∨ op3 = 8#4 := by decide

theorem rotBits_rotOf : ∀ {r : BitVec 3}, r ≠ 7#3 → rotBits (rotOf r) = r := by decide

theorem rotOf_rotBits (rot : Rot) : rotOf (rotBits rot) = rot := by cases rot <;> rfl

@[simp] theorem rotOf_zero : rotOf 0#3 = .none := rfl

theorem rotBits_ne (rot : Rot) : rotBits rot ≠ 7#3 := by cases rot <;> decide

/-! A word is the row of its own fields: each format packs them back into it (R103, R106-R112). -/

theorem ofBool_getLsbD (w : Word) (j : Nat) : BitVec.ofBool (w.getLsbD j) = w.extractLsb' j 1 := by
  rw [BitVec.getLsbD_eq_extractLsb']
  generalize w.extractLsb' j 1 = b
  revert b; decide

theorem extractLsb'_of_getLsbD {w : Word} {j : Nat} {b : Bool} (h : w.getLsbD j = b) :
    w.extractLsb' j 1 = BitVec.ofBool b := by
  rw [← ofBool_getLsbD, h]

theorem encodeMri_of_fields {w : Word} {op acc : BitVec 3} (hop : Decode.op w = op) (hacc : Decode.acc w = acc) :
    encodeMri op acc (Decode.ind w) (Decode.zero w) (Decode.off w) = w := by
  subst hop hacc
  simp only [encodeMri, Decode.op, Decode.acc, Decode.ind, Decode.zero, Decode.off, ofBool_getLsbD,
    BitVec.extractLsb'_append_extractLsb'_eq_extractLsb']
  exact BitVec.extractLsb'_eq_self

theorem encodeGroup1_of_fields {w : Word} {cla cll cma cml iac : Bool} {rot : BitVec 3} (hop : Decode.op w = 7#3)
    (hgrp : Decode.grp w = 0#2) (hcla : w.getLsbD 7 = cla) (hcll : w.getLsbD 6 = cll) (hcma : w.getLsbD 5 = cma)
    (hcml : w.getLsbD 4 = cml) (hrot : Decode.rotField w = rot) (hiac : w.getLsbD 0 = iac) :
    encodeGroup1 (Decode.acc w) cla cll cma cml rot iac = w := by
  subst hcla hcll hcma hcml hrot hiac
  simp only [encodeGroup1, ← hop, ← hgrp, Decode.op, Decode.acc, Decode.grp, Decode.rotField, ofBool_getLsbD,
    BitVec.extractLsb'_append_extractLsb'_eq_extractLsb']
  exact BitVec.extractLsb'_eq_self

theorem encodeGroup2_of_fields {w : Word} {cla t6 t5 t4 s osr hlt : Bool} (hop : Decode.op w = 7#3)
    (hgrp : Decode.grp w = 1#2) (hcla : w.getLsbD 7 = cla) (h6 : w.getLsbD 6 = t6) (h5 : w.getLsbD 5 = t5)
    (h4 : w.getLsbD 4 = t4) (hs : w.getLsbD 3 = s) (hosr : w.getLsbD 2 = osr) (hhlt : w.getLsbD 1 = hlt)
    (h0 : w.getLsbD 0 = false) : encodeGroup2 (Decode.acc w) cla t6 t5 t4 s osr hlt = w := by
  have hlow : 0#1 = w.extractLsb' 0 1 := (extractLsb'_of_getLsbD h0).symm
  subst hcla h6 h5 h4 hs hosr hhlt
  simp only [encodeGroup2, ← hop, ← hgrp, hlow, Decode.op, Decode.acc, Decode.grp, ofBool_getLsbD,
    BitVec.extractLsb'_append_extractLsb'_eq_extractLsb']
  exact BitVec.extractLsb'_eq_self

theorem encodeGroup3R_of_fields {w : Word} {op3 : BitVec 4} {bit3 : Bool} {s : BitVec 3} (hop : Decode.op w = 7#3)
    (hgrp : Decode.grp w = 2#2) (hop3 : Decode.op3 w = op3) (h3 : w.getLsbD 3 = bit3) (hs : Decode.fn w = s) :
    encodeGroup3R (Decode.acc w) op3 bit3 s = w := by
  subst hop3 h3 hs
  simp only [encodeGroup3R, ← hop, ← hgrp, Decode.op, Decode.acc, Decode.grp, Decode.op3, Decode.fn, ofBool_getLsbD,
    BitVec.extractLsb'_append_extractLsb'_eq_extractLsb']
  exact BitVec.extractLsb'_eq_self

theorem encodeGroup3I_of_fields {w : Word} {op3 : BitVec 4} (hop : Decode.op w = 7#3) (hgrp : Decode.grp w = 3#2)
    (hop3 : Decode.op3 w = op3) : encodeGroup3I (Decode.acc w) op3 (Decode.cnt w) = w := by
  subst hop3
  simp only [encodeGroup3I, ← hop, ← hgrp, Decode.op, Decode.acc, Decode.grp, Decode.op3, Decode.cnt,
    BitVec.extractLsb'_append_extractLsb'_eq_extractLsb']
  exact BitVec.extractLsb'_eq_self

/-! The same for the words that have a format of their own: IOT and the refused patterns that keep raw bits (R106, R115,
R116). -/

theorem encode_acc7_of_fields {w : Word} {op : BitVec 3} (hop : Decode.op w = op) (hacc : Decode.acc w = 7#3) :
    encode (.acc7 op (w.extractLsb' 0 10)) = w := by
  subst hop
  simp only [encode, ← hacc, Decode.op, Decode.acc, BitVec.extractLsb'_append_extractLsb'_eq_extractLsb']
  exact BitVec.extractLsb'_eq_self

theorem encode_iotBit9_of_fields {w : Word} (hop : Decode.op w = 6#3) (h9 : w.getLsbD 9 = true) :
    encode (.iotBit9 (Decode.acc w) (w.extractLsb' 0 9)) = w := by
  have hone : 1#1 = w.extractLsb' 9 1 := (extractLsb'_of_getLsbD h9).symm
  simp only [encode, ← hop, hone, Decode.op, Decode.acc, BitVec.extractLsb'_append_extractLsb'_eq_extractLsb']
  exact BitVec.extractLsb'_eq_self

theorem encode_iot_of_fields {w : Word} (hop : Decode.op w = 6#3) (h9 : w.getLsbD 9 = false) :
    encode (.iot (Decode.acc w) (Decode.unit w) (Decode.fn w)) = w := by
  have hzero : 0#1 = w.extractLsb' 9 1 := (extractLsb'_of_getLsbD h9).symm
  simp only [encode, ← hop, hzero, Decode.op, Decode.acc, Decode.unit, Decode.fn,
    BitVec.extractLsb'_append_extractLsb'_eq_extractLsb']
  exact BitVec.extractLsb'_eq_self

theorem encode_reservedRot7_of_fields {w : Word} (hop : Decode.op w = 7#3) (hgrp : Decode.grp w = 0#2)
    (hrot : Decode.rotField w = 7#3) :
    encode (.reservedRot7 (Decode.acc w) (w.extractLsb' 4 4) (w.getLsbD 0)) = w := by
  calc encode (.reservedRot7 (Decode.acc w) (w.extractLsb' 4 4) (w.getLsbD 0))
      = Decode.op w ++ Decode.acc w ++ Decode.grp w ++ w.extractLsb' 4 4 ++ Decode.rotField w
          ++ BitVec.ofBool (w.getLsbD 0) := by rw [hop, hgrp, hrot, encode]
    _ = w := by
      simp only [Decode.op, Decode.acc, Decode.grp, Decode.rotField, ofBool_getLsbD,
        BitVec.extractLsb'_append_extractLsb'_eq_extractLsb']
      exact BitVec.extractLsb'_eq_self

theorem encode_reservedBit0_of_fields {w : Word} (hop : Decode.op w = 7#3) (hgrp : Decode.grp w = 1#2)
    (h0 : w.getLsbD 0 = true) : encode (.reservedBit0 (Decode.acc w) (w.extractLsb' 1 7)) = w := by
  have hone : 1#1 = w.extractLsb' 0 1 := (extractLsb'_of_getLsbD h0).symm
  simp only [encode, ← hop, ← hgrp, hone, Decode.op, Decode.acc, Decode.grp,
    BitVec.extractLsb'_append_extractLsb'_eq_extractLsb']
  exact BitVec.extractLsb'_eq_self

/-! Encoding what a word decodes to gives the word, part by part of the decoder: each branch knows the fields its
constructor leaves out. -/

theorem encode_decodeMri {w : Word} (h6 : Decode.op w ≠ 6#3) (h7 : Decode.op w ≠ 7#3) : encode (decodeMri w) = w := by
  simp only [decodeMri]
  split_ifs with h0 hacc h1 hacc h2 hacc h3 hacc h4 hacc hacc
  · exact encode_acc7_of_fields h0 hacc
  · exact encodeMri_of_fields h0 rfl
  · exact encode_acc7_of_fields h1 hacc
  · exact encodeMri_of_fields h1 rfl
  · exact encodeMri_of_fields h2 hacc
  · exact encodeMri_of_fields h2 rfl
  · exact encode_acc7_of_fields h3 hacc
  · exact encodeMri_of_fields h3 rfl
  · exact encodeMri_of_fields h4 hacc
  · exact encodeMri_of_fields h4 rfl
  all_goals have h5 : Decode.op w = 5#3 := by simpa [h0, h1, h2, h3, h4] using op_cases_mri h6 h7
  · exact encodeMri_of_fields h5 hacc
  · exact encodeMri_of_fields h5 rfl

theorem encode_decodeIot {w : Word} (hop : Decode.op w = 6#3) : encode (decodeIot w) = w := by
  unfold decodeIot
  split_ifs with h9 hacc
  · exact encode_iotBit9_of_fields hop h9
  · exact encode_acc7_of_fields hop hacc
  · exact encode_iot_of_fields hop (Bool.eq_false_iff.2 h9)

theorem encode_decodeGroup1 {w : Word} (hop : Decode.op w = 7#3) (hgrp : Decode.grp w = 0#2) :
    encode (decodeGroup1 w) = w := by
  simp only [decodeGroup1]
  split_ifs with hrot hacc h7 h6 h5 h4 h0
  · exact encode_reservedRot7_of_fields hop hgrp hrot
  · exact encode_acc7_of_fields hop hacc
  case neg =>
    rw [Bool.not_eq_true] at h7 h6 h5 h4 h0
    have hbits := (rotBits_rotOf hrot).symm
    cases hr : rotOf (Decode.rotField w) <;> rw [hr] at hbits <;>
      exact encodeGroup1_of_fields hop hgrp h7 h6 h5 h4 hbits h0
  all_goals simp only [encode, encodeGroup1_of_fields, rotBits_rotOf, ne_eq, not_false_eq_true, *]

theorem encode_decodeGroup2 {w : Word} (hop : Decode.op w = 7#3) (hgrp : Decode.grp w = 1#2) :
    encode (decodeGroup2 w) = w := by
  simp only [decodeGroup2]
  split_ifs with h0 hacc
  · exact encode_reservedBit0_of_fields hop hgrp h0
  · exact encode_acc7_of_fields hop hacc
  all_goals simp only [encode, encodeGroup2_of_fields, *]

theorem encode_decodeGroup3R {w : Word} (hop : Decode.op w = 7#3) (hgrp : Decode.grp w = 2#2) :
    encode (decodeGroup3R w) = w := by
  simp only [decodeGroup3R]
  by_cases h3 : w.getLsbD 3 = true
  · rw [if_pos h3]
    exact encodeGroup3R_of_fields hop hgrp rfl h3 rfl
  rw [if_neg h3]
  replace h3 := Bool.eq_false_iff.2 h3
  by_cases h9 : 9 ≤ (Decode.op3 w).toNat
  · rw [if_pos h9]
    exact encodeGroup3R_of_fields hop hgrp rfl h3 rfl
  rw [if_neg h9]
  by_cases hd : Decode.acc w = 7#3
  · rw [if_pos hd]
    exact encode_acc7_of_fields hop hd
  rw [if_neg hd]
  by_cases hs : Decode.fn w = 7#3
  · rw [if_pos hs]
    exact encodeGroup3R_of_fields hop hgrp rfl h3 hs
  rw [if_neg hs]
  rcases op3_cases h9 with h | h | h | h | h | h | h | h | h <;> rw [h] <;>
    exact encodeGroup3R_of_fields hop hgrp h h3 rfl

theorem encode_decodeGroup3I {w : Word} (hop : Decode.op w = 7#3) (hgrp : Decode.grp w = 3#2) :
    encode (decodeGroup3I w) = w := by
  simp only [decodeGroup3I]
  split_ifs with hr hd h4 h5 h6 h7
  · exact encodeGroup3I_of_fields hop hgrp rfl
  · exact encode_acc7_of_fields hop hd
  · exact encodeGroup3I_of_fields hop hgrp h4
  · exact encodeGroup3I_of_fields hop hgrp h5
  · exact encodeGroup3I_of_fields hop hgrp h6
  · exact encodeGroup3I_of_fields hop hgrp h7
  · refine encodeGroup3I_of_fields hop hgrp ?_
    generalize Decode.op3 w = op3 at *
    revert op3; decide

theorem encode_decodeOpr {w : Word} (hop : Decode.op w = 7#3) : encode (decodeOpr w) = w := by
  unfold decodeOpr
  rcases grp_cases w with h | h | h | h <;> simp only [h, BitVec.reduceEq, reduceIte]
  · exact encode_decodeGroup1 hop h
  · exact encode_decodeGroup2 hop h
  · exact encode_decodeGroup3R hop h
  · exact encode_decodeGroup3I hop h

/-- No bit of a word is dropped (R114, R118). -/
theorem encode_decode (w : Word) : encode (decode w) = w := by
  unfold decode
  split_ifs with h6 h7
  · exact encode_decodeIot h6
  · exact encode_decodeOpr h7
  · exact encode_decodeMri h6 h7

/-- Settles O3: the decoder's parts are well-formed, and each keeps every field of the word. -/
theorem encodeOfDecodeIsIdentity : Obligations.EncodeOfDecodeIsIdentity :=
  fun w => ⟨decode_wellFormed w, encode_decode w⟩

/-! A packed OPR or MRI word goes to the decoder's part for its format (R101, R107). -/

theorem decode_encodeMri {op acc : BitVec 3} (h6 : op ≠ 6#3) (h7 : op ≠ 7#3) (i z : Bool) (off : BitVec 8) :
    decode (encodeMri op acc i z off) = decodeMri (encodeMri op acc i z off) := by
  simp [decode, h6, h7]

@[simp] theorem decode_encodeGroup1 (acc : BitVec 3) (cla cll cma cml : Bool) (rot : BitVec 3) (iac : Bool) :
    decode (encodeGroup1 acc cla cll cma cml rot iac) = decodeGroup1 (encodeGroup1 acc cla cll cma cml rot iac) := by
  simp [decode, decodeOpr]

@[simp] theorem decode_encodeGroup2 (acc : BitVec 3) (cla t6 t5 t4 s osr hlt : Bool) :
    decode (encodeGroup2 acc cla t6 t5 t4 s osr hlt) = decodeGroup2 (encodeGroup2 acc cla t6 t5 t4 s osr hlt) := by
  simp [decode, decodeOpr]

@[simp] theorem decode_encodeGroup3R (d : BitVec 3) (op3 : BitVec 4) (bit3 : Bool) (s : BitVec 3) :
    decode (encodeGroup3R d op3 bit3 s) = decodeGroup3R (encodeGroup3R d op3 bit3 s) := by
  simp [decode, decodeOpr]

@[simp] theorem decode_encodeGroup3I (d : BitVec 3) (op3 n : BitVec 4) :
    decode (encodeGroup3I d op3 n) = decodeGroup3I (encodeGroup3I d op3 n) := by
  simp [decode, decodeOpr]

/-! What the words of the reserved patterns decode to, whatever their ACC or source field (R115, R337). -/

theorem decode_of_iot_bit9 {w : Word} (hop : Decode.op w = 6#3) (h9 : w.getLsbD 9 = true) :
    decode w = .iotBit9 (Decode.acc w) (w.extractLsb' 0 9) := by
  rw [decode, if_pos hop, decodeIot, if_pos h9]

theorem decode_of_group1_rot7 {w : Word} (hop : Decode.op w = 7#3) (hgrp : Decode.grp w = 0#2)
    (hrot : Decode.rotField w = 7#3) :
    decode w = .reservedRot7 (Decode.acc w) (w.extractLsb' 4 4) (w.getLsbD 0) := by
  simp [decode, decodeOpr, decodeGroup1, hop, hgrp, hrot]

theorem decode_of_group2_bit0 {w : Word} (hop : Decode.op w = 7#3) (hgrp : Decode.grp w = 1#2)
    (h0 : w.getLsbD 0 = true) : decode w = .reservedBit0 (Decode.acc w) (w.extractLsb' 1 7) := by
  simp only [decode, decodeOpr, decodeGroup2, hop, hgrp, h0]
  rfl

theorem decode_of_group3R_bit3 {w : Word} (hop : Decode.op w = 7#3) (hgrp : Decode.grp w = 2#2)
    (h3 : w.getLsbD 3 = true) : decode w = .g3rBit3 (Decode.acc w) (Decode.op3 w) (Decode.fn w) := by
  simp only [decode, decodeOpr, decodeGroup3R, hop, hgrp, h3]
  rfl

theorem decode_of_group3R_op3 {w : Word} (hop : Decode.op w = 7#3) (hgrp : Decode.grp w = 2#2)
    (h3 : w.getLsbD 3 = false) (h9 : 9 ≤ (Decode.op3 w).toNat) :
    decode w = .g3rOp3 (Decode.acc w) (Decode.op3 w) (Decode.fn w) := by
  simp only [decode, decodeOpr, decodeGroup3R, hop, hgrp, h3, h9]
  rfl

theorem decode_of_group3I_op3 {w : Word} (hop : Decode.op w = 7#3) (hgrp : Decode.grp w = 3#2)
    (hop3 : (Decode.op3 w).toNat ≤ 3 ∨ 9 ≤ (Decode.op3 w).toNat) :
    decode w = .g3iOp3 (Decode.acc w) (Decode.op3 w) (Decode.cnt w) := by
  simp only [decode, decodeOpr, decodeGroup3I, hop, hgrp, hop3]
  rfl

/-! What the words of the refused register forms decode to, once they are known not to be reserved (R116, R188,
R189). -/

theorem decode_of_acc7 {w : Word} (hacc : Decode.acc w = 7#3)
    (hop : Decode.op w ≠ 2#3 ∧ Decode.op w ≠ 4#3 ∧ Decode.op w ≠ 5#3)
    (hlow : reservedLow (Decode.op w) (w.extractLsb' 0 10) = false) :
    decode w = .acc7 (Decode.op w) (w.extractLsb' 0 10) := by
  by_cases h6 : Decode.op w = 6#3
  · rw [h6, reservedLow_iot] at hlow
    simp only [decode, decodeIot, h6, hlow, hacc, Bool.false_eq_true, reduceIte]
  by_cases h7 : Decode.op w = 7#3
  · rw [h7] at hlow
    rcases grp_cases w with hg | hg | hg | hg
    · rw [reservedLow_group1 hg, beq_eq_false_iff_ne] at hlow
      simp [decode, decodeOpr, decodeGroup1, h7, hg, hlow, hacc]
    · rw [reservedLow_group2 hg] at hlow
      simp [decode, decodeOpr, decodeGroup2, h7, hg, hlow, hacc, -BitVec.getLsbD_eq_getElem]
    · rw [reservedLow_group3R hg, Bool.or_eq_false_iff, decide_eq_false_iff_not] at hlow
      simp [decode, decodeOpr, decodeGroup3R, h7, hg, hlow, hacc, -BitVec.getLsbD_eq_getElem, -not_le]
    · rw [reservedLow_group3I hg, Bool.or_eq_false_iff, decide_eq_false_iff_not, decide_eq_false_iff_not] at hlow
      simp [decode, decodeOpr, decodeGroup3I, h7, hg, hlow, hacc, -not_le]
  · have h013 : Decode.op w = 0#3 ∨ Decode.op w = 1#3 ∨ Decode.op w = 3#3 := by simpa [hop] using op_cases_mri h6 h7
    rcases h013 with h | h | h <;> simp [decode, decodeMri, h, hacc]

theorem decode_of_group3R_source7 {w : Word} (hop : Decode.op w = 7#3) (hgrp : Decode.grp w = 2#2)
    (hlow : reservedLow 7#3 (w.extractLsb' 0 10) = false) (hd : Decode.acc w ≠ 7#3) (hs : Decode.fn w = 7#3) :
    decode w = .g3rSource7 (Decode.acc w) (Decode.op3 w) := by
  rw [reservedLow_group3R hgrp, Bool.or_eq_false_iff, decide_eq_false_iff_not] at hlow
  obtain ⟨h3, h9⟩ := hlow
  simp only [decode, decodeOpr, decodeGroup3R, hop, hgrp, h3, h9, hd, hs]
  rfl

theorem decode_of_jms_reg {w : Word} (hop : Decode.op w = 4#3) (hacc : Decode.acc w ≠ 7#3) :
    decode w = .jmsReg (Decode.acc w) (Decode.ind w) (Decode.zero w) (Decode.off w) := by
  simp [decode, decodeMri, hop, hacc]

theorem decode_of_jmp_reg {w : Word} (hop : Decode.op w = 5#3) (hacc : Decode.acc w ≠ 7#3) :
    decode w = .jmpWithLoad (Decode.acc w) (Decode.ind w) (Decode.zero w) (Decode.off w) := by
  simp [decode, decodeMri, hop, hacc]

/-! Decoding the words with a format of their own: opcode and ACC field are those of `EncodeFields`, the fields below
are read off the row. -/

theorem extractLsb'_append_middle {a b c : Nat} (x : BitVec a) (y : BitVec b) (z : BitVec c) :
    (x ++ y ++ z).extractLsb' c b = y := by
  rw [BitVec.extractLsb'_append_eq_of_le (Nat.le_refl c), Nat.sub_self, BitVec.extractLsb'_append_eq_right]

theorem decode_encode_iot {acc : BitVec 3} (hacc : acc ≠ 7#3) (unit : BitVec 6) (fn : BitVec 3) :
    decode (encode (.iot acc unit fn)) = .iot acc unit fn := by
  obtain ⟨hop, ha⟩ := Laws.EncodeFields.iot acc unit fn
  have h9 : (encode (.iot acc unit fn)).getLsbD 9 = false := by rw [getLsbD_encodeIot]; rfl
  have hunit : Decode.unit (encode (.iot acc unit fn)) = unit := extractLsb'_append_middle _ unit fn
  have hfn : Decode.fn (encode (.iot acc unit fn)) = fn := BitVec.extractLsb'_append_eq_right
  rw [decode, hop, decodeIot, h9, ha, hunit, hfn]
  exact if_neg hacc

theorem decode_encode_iotBit9 (acc : BitVec 3) (low : BitVec 9) :
    decode (encode (.iotBit9 acc low)) = .iotBit9 acc low := by
  obtain ⟨hop, hacc⟩ := Laws.EncodeFields.iotBit9 acc low
  have h9 : (encode (.iotBit9 acc low)).extractLsb' 9 1 = 1#1 := extractLsb'_append_middle _ 1#1 low
  have hlow : (encode (.iotBit9 acc low)).extractLsb' 0 9 = low := BitVec.extractLsb'_append_eq_right
  rw [decode_of_iot_bit9 hop (by rw [BitVec.getLsbD_eq_extractLsb', h9]; rfl), hlow, hacc]
  rfl

theorem decode_encode_acc7 {op : BitVec 3} {low : BitVec 10} (hop : op ≠ 2#3 ∧ op ≠ 4#3 ∧ op ≠ 5#3)
    (hlow : reservedLow op low = false) : decode (encode (.acc7 op low)) = .acc7 op low := by
  obtain ⟨ho, hacc⟩ := Laws.EncodeFields.acc7 op low
  have hl : (encode (.acc7 op low)).extractLsb' 0 10 = low := BitVec.extractLsb'_append_eq_right
  simp only [Laws.EncodeFields.opcode, Laws.EncodeFields.accField] at ho hacc
  rw [decode_of_acc7 hacc] <;> simp only [ho, hl, hop, hlow, ne_eq, not_false_eq_true, and_self]

theorem decode_encode_reservedRot7 (acc : BitVec 3) (hi : BitVec 4) (lo : Bool) :
    decode (encode (.reservedRot7 acc hi lo)) = .reservedRot7 acc hi lo := by
  obtain ⟨hop, hacc⟩ := Laws.EncodeFields.reservedRot7 acc hi lo
  have hgrp : Decode.grp (encode (.reservedRot7 acc hi lo)) = 0#2 :=
    (BitVec.extractLsb'_append_eq_of_le (by decide)).trans <|
      (BitVec.extractLsb'_append_eq_of_le (by decide)).trans (extractLsb'_append_middle _ 0#2 hi)
  have hhi : (encode (.reservedRot7 acc hi lo)).extractLsb' 4 4 = hi :=
    (BitVec.extractLsb'_append_eq_of_le (by decide)).trans (extractLsb'_append_middle _ hi 7#3)
  have hrot : Decode.rotField (encode (.reservedRot7 acc hi lo)) = 7#3 :=
    extractLsb'_append_middle _ 7#3 (BitVec.ofBool lo)
  have hlo : (encode (.reservedRot7 acc hi lo)).extractLsb' 0 1 = BitVec.ofBool lo :=
    BitVec.extractLsb'_append_eq_right
  rw [decode_of_group1_rot7 hop hgrp hrot, hhi, hacc, BitVec.getLsbD_eq_extractLsb', hlo, Machine.ofBool_beq_one]
  rfl

theorem decode_encode_reservedBit0 (acc : BitVec 3) (hi : BitVec 7) :
    decode (encode (.reservedBit0 acc hi)) = .reservedBit0 acc hi := by
  obtain ⟨hop, hacc⟩ := Laws.EncodeFields.reservedBit0 acc hi
  have hgrp : Decode.grp (encode (.reservedBit0 acc hi)) = 1#2 :=
    (BitVec.extractLsb'_append_eq_of_le (by decide)).trans (extractLsb'_append_middle _ 1#2 hi)
  have hhi : (encode (.reservedBit0 acc hi)).extractLsb' 1 7 = hi := extractLsb'_append_middle _ hi 1#1
  have h0 : (encode (.reservedBit0 acc hi)).extractLsb' 0 1 = 1#1 := BitVec.extractLsb'_append_eq_right
  rw [decode_of_group2_bit0 hop hgrp (by rw [BitVec.getLsbD_eq_extractLsb', h0]; rfl), hhi, hacc]
  rfl

/-- Settles O2: by constructor, the constructors of one word format together; a well-formed term has the fields on which
the decoder takes its branch. -/
theorem decodeOfEncodeIsIdentity : Obligations.DecodeOfEncodeIsIdentity := by
  intro i hwf
  cases i with
  | and acc | tad acc | sta acc | dca acc | jmpWithLoad acc | jmsReg acc =>
    have hacc : acc ≠ 7#3 := Machine.isReg_ne hwf
    simp [encode, decode_encodeMri, decodeMri, hacc]
  | isz | jms | jmp => simp [encode, decode_encodeMri, decodeMri]
  | iot acc unit fn => exact decode_encode_iot (Machine.isReg_ne hwf) unit fn
  | cla acc | cll acc | cma acc | cml acc | iac acc | rar acc | ral acc | rtr acc | rtl acc | bsw acc | bsw6 acc
  | nop acc =>
    have hacc : acc ≠ 7#3 := Machine.isReg_ne hwf
    simp [encode, decodeGroup1, getLsbD_encodeGroup1, -BitVec.getLsbD_eq_getElem, rotOf_rotBits, rotBits_ne, hacc]
  | sma acc | sza acc | snl acc | spa acc | sna acc | szl acc | skp acc | cla2 acc | osr acc | hlt acc | nop2 acc =>
    have hacc : acc ≠ 7#3 := Machine.isReg_ne hwf
    simp [encode, decodeGroup2, getLsbD_encodeGroup2, -BitVec.getLsbD_eq_getElem, hacc]
  | mov d s | swp d s | or d s | xor d s | shl d s | shr d s | sar d s | rol d s | ror d s =>
    obtain ⟨hd, hs⟩ := Bool.and_eq_true_iff.1 hwf
    simp [encode, decodeGroup3R, getLsbD_encodeGroup3R, -BitVec.getLsbD_eq_getElem, Machine.isReg_ne hd,
      Machine.isReg_ne hs]
  | shli d n | shri d n | sari d n | roli d n | rori d n =>
    simp [encode, decodeGroup3I, Machine.isReg_ne hwf]
  | acc7 op low =>
    simp only [Instr.WellFormed, Bool.and_eq_true, bne_iff_ne, Bool.not_eq_true'] at hwf
    obtain ⟨⟨⟨h2, h4⟩, h5⟩, hlow⟩ := hwf
    exact decode_encode_acc7 ⟨h2, h4, h5⟩ hlow
  | iotBit9 acc low => exact decode_encode_iotBit9 acc low
  | reservedRot7 acc hi lo => exact decode_encode_reservedRot7 acc hi lo
  | reservedBit0 acc hi => exact decode_encode_reservedBit0 acc hi
  | g3rSource7 d op3 =>
    obtain ⟨hd, hop3⟩ := Bool.and_eq_true_iff.1 hwf
    simp [encode, decodeGroup3R, getLsbD_encodeGroup3R, -BitVec.getLsbD_eq_getElem, Machine.isReg_ne hd,
      Nat.lt_succ_of_le (of_decide_eq_true hop3)]
  | g3rBit3 d op3 low => simp [encode, decodeGroup3R, getLsbD_encodeGroup3R, -BitVec.getLsbD_eq_getElem]
  | g3rOp3 d op3 s =>
    simp [encode, decodeGroup3R, getLsbD_encodeGroup3R, -BitVec.getLsbD_eq_getElem, of_decide_eq_true hwf]
  | g3iOp3 d op3 n =>
    have hop3 : op3.toNat ≤ 3 ∨ 9 ≤ op3.toNat := by simpa [Instr.WellFormed] using hwf
    simp [encode, decodeGroup3I, hop3]

/-- Settles O1: the decoder computes on each word. -/
theorem specWordsDecodeAsWritten : Obligations.SpecWordsDecodeAsWritten := by
  refine ⟨?_, ?_, ?_, ?_, ?_, ?_, ?_, ?_, ?_, ?_, ?_, ?_, ?_⟩ <;> decide

end Sys2Proof

namespace Sys2Proof.Machine

open Reference

/-! The fields of a word as numbers (R8). -/

theorem bits_eq_toNat (w : Word) (hi lo : Nat) : bits w hi lo = (w.extractLsb' lo (hi + 1 - lo)).toNat := by
  rw [bits, BitVec.extractLsb'_toNat, Nat.shiftRight_eq_div_pow]

theorem bits_op (w : Word) : bits w 15 13 = (Decode.op w).toNat := bits_eq_toNat w 15 13
theorem bits_acc (w : Word) : bits w 12 10 = (Decode.acc w).toNat := bits_eq_toNat w 12 10
theorem bits_grp (w : Word) : bits w 9 8 = (Decode.grp w).toNat := bits_eq_toNat w 9 8
theorem bits_rotField (w : Word) : bits w 3 1 = (Decode.rotField w).toNat := bits_eq_toNat w 3 1
theorem bits_op3 (w : Word) : bits w 7 4 = (Decode.op3 w).toNat := bits_eq_toNat w 7 4
theorem bits_fn (w : Word) : bits w 2 0 = (Decode.fn w).toNat := bits_eq_toNat w 2 0

theorem bits_single (w : Word) (j : Nat) : bits w j j = (w.getLsbD j).toNat := by
  rw [bits_eq_toNat, Nat.add_sub_cancel_left, ← ofBool_getLsbD, BitVec.toNat_ofBool]

/-! The refusals of FETCH, from the word alone (R115, R116, R188, R189). -/

/-- R115's list is what `reservedLow` checks of the low ten bits. -/
theorem reserved_iff (w : Word) : Reserved w ↔ reservedLow (Decode.op w) (w.extractLsb' 0 10) = true := by
  simp only [Reserved, bits_op, bits_grp, bits_rotField, bits_op3, bits_single, BitVec.toNat_eq_nat, Bool.toNat_eq_one]
  by_cases h6 : Decode.op w = 6#3
  · simp [h6, reservedLow_iot]
  by_cases h7 : Decode.op w = 7#3
  · rcases grp_cases w with hg | hg | hg | hg
    · simp [h7, hg, reservedLow_group1 hg]
    · simp [h7, hg, reservedLow_group2 hg]
    · simp [h7, hg, reservedLow_group3R hg]
    · simp [h7, hg, reservedLow_group3I hg]
  · simp [h6, h7, reservedLow]

theorem exec_of_reservedLow {w : Word} (h : reservedLow (Decode.op w) (w.extractLsb' 0 10) = true) (s : State) :
    exec (decode w) s = .refused .reservedEncoding := by
  by_cases h6 : Decode.op w = 6#3
  · rw [h6, reservedLow_iot] at h
    rw [decode_of_iot_bit9 h6 h]; rfl
  by_cases h7 : Decode.op w = 7#3
  · rw [h7] at h
    rcases grp_cases w with hg | hg | hg | hg
    · rw [reservedLow_group1 hg, beq_iff_eq] at h
      rw [decode_of_group1_rot7 h7 hg h]; rfl
    · rw [reservedLow_group2 hg] at h
      rw [decode_of_group2_bit0 h7 hg h]; rfl
    · rw [reservedLow_group3R hg, Bool.or_eq_true, decide_eq_true_eq] at h
      cases h3 : w.getLsbD 3
      · rw [decode_of_group3R_op3 h7 hg h3 (h.resolve_left (h3 ▸ Bool.false_ne_true))]; rfl
      · rw [decode_of_group3R_bit3 h7 hg h3]; rfl
    · rw [reservedLow_group3I hg, Bool.or_eq_true, decide_eq_true_eq, decide_eq_true_eq] at h
      rw [decode_of_group3I_op3 h7 hg h]; rfl
  · simp [reservedLow, h6, h7] at h

theorem exec_of_noRegister {w : Word} (hlow : reservedLow (Decode.op w) (w.extractLsb' 0 10) = false)
    (h : NoRegister w) (s : State) : exec (decode w) s = .refused .noRegisterForm := by
  simp only [NoRegister, bits_op, bits_acc, bits_grp, bits_fn] at h
  rcases h with ⟨hop, hacc⟩ | ⟨hop, hacc⟩ | ⟨hop, hgrp, hs⟩
  · have hne : Decode.op w ≠ 2#3 ∧ Decode.op w ≠ 4#3 ∧ Decode.op w ≠ 5#3 := by
      refine ⟨?_, ?_, ?_⟩ <;> intro he <;> simp [he] at hop
    rw [decode_of_acc7 (BitVec.eq_of_toNat_eq hacc) hne hlow]; rfl
  · rw [decode_of_jms_reg (BitVec.eq_of_toNat_eq hop) fun he => hacc (congrArg BitVec.toNat he)]; rfl
  · have hop : Decode.op w = 7#3 := BitVec.eq_of_toNat_eq hop
    by_cases hd : Decode.acc w = 7#3
    · rw [decode_of_acc7 hd (by simp [hop]) hlow]; rfl
    · rw [hop] at hlow
      rw [decode_of_group3R_source7 hop (BitVec.eq_of_toNat_eq hgrp) hlow hd (BitVec.eq_of_toNat_eq hs)]; rfl

theorem exec_of_jumpWithLoad {w : Word} (h : JumpWithLoad w) (s : State) :
    exec (decode w) s = .refused .unspecifiedSemantics := by
  simp only [JumpWithLoad, bits_op, bits_acc] at h
  rw [decode_of_jmp_reg (BitVec.eq_of_toNat_eq h.1) fun he => h.2 (congrArg BitVec.toNat he)]; rfl

/-! A step in FETCH is what the decoded instruction answers (R140, R142, R377). -/

theorem cpuStep_of_fetch {s s1 : State} {w : Word} (hc : s.cycle = 0#4 ∨ s.cycle = 1#4) (hf : s.fetch = .ok (w, s1)) :
    cpuStep s = exec (decode w) s1 := by
  rw [cpuStep, if_pos hc, stepFetch, hf]

theorem step_of_idle {s : State} (h : s.running = false) : step s = cpuStep s := by
  rw [step, machineStep, h]; rfl

theorem steps_of_fetch {s s1 : State} {w : Word} {a : Answer} (hc : s.cycle = 0#4 ∨ s.cycle = 1#4)
    (hf : s.fetch = .ok (w, s1)) (h : exec (decode w) s1 = a) :
    cpuStep s = a ∧ (s.running = false → step s = a) := by
  have hcpu : cpuStep s = a := (cpuStep_of_fetch hc hf).trans h
  exact ⟨hcpu, fun hrun => (step_of_idle hrun).trans hcpu⟩

/-- Settles O4: the word is one of R115's list exactly when the decoder takes a reserved branch. -/
theorem reservedEncodingsRefused : Obligations.ReservedEncodingsRefused :=
  fun w _ s1 hc hf hr => steps_of_fetch hc hf (exec_of_reservedLow ((reserved_iff w).1 hr) s1)

/-- Settles O5: a word that is not reserved reaches the register form's branch of the decoder. -/
theorem registerFormsRefused : Obligations.RegisterFormsRefused := by
  intro w s s1 hc hf hr
  have hlow : reservedLow (Decode.op w) (w.extractLsb' 0 10) = false := by
    rwa [reserved_iff, Bool.not_eq_true] at hr
  exact ⟨fun h => steps_of_fetch hc hf (exec_of_noRegister hlow h s1),
    fun h => steps_of_fetch hc hf (exec_of_jumpWithLoad h s1)⟩

/-- Settles O6: each of the ten arms of `exec` is its refusal. -/
theorem refusedRowsStopByName : Obligations.RefusedRowsStopByName :=
  fun _ _ _ _ _ _ _ _ _ _ _ => ⟨rfl, rfl, rfl, rfl, rfl, rfl, rfl, rfl, rfl, rfl⟩

/-! The effective address as a number (R104). -/

theorem toNat_address_zeroPage (pc : Word) (off : BitVec 8) : (address pc true off).toNat = off.toNat := by
  have hoff := off.isLt
  rw [address, if_pos rfl, BitVec.toNat_setWidth]
  omega

theorem toNat_address_samePage (pc : Word) (off : BitVec 8) :
    (address pc false off).toNat = pc.toNat / 256 * 256 + off.toNat := by
  have hpc := pc.isLt
  have hpage : (pc.extractLsb' 8 8 ++ off).toNat = pc.toNat / 256 * 256 + off.toNat := by
    rw [BitVec.toNat_append, ← Nat.shiftLeft_add_eq_or_of_lt off.isLt, Nat.shiftLeft_eq, BitVec.extractLsb'_toNat,
      Nat.shiftRight_eq_div_pow]
    omega
  have hoff := off.isLt
  rw [address, if_neg Bool.false_ne_true, BitVec.toNat_setWidth, hpage]
  omega

/-- Settles O10: the two forms as numbers, and the bound that holds for both. -/
theorem effectiveAddressOfMri : Obligations.EffectiveAddressOfMri :=
  fun pc off => ⟨toNat_address_zeroPage pc off, toNat_address_samePage pc off, fun z => address_lt pc z off⟩

end Sys2Proof.Machine

namespace Sys2Proof.Machine

open Reference

/-! What an engine read answers, by the place it reaches (R33(a), R47, R64, R146). -/

/-- Slot 7 at the draw counter `n`: LK under free bits. -/
theorem State.readLoc_psw (s : State) : s.readLoc (.slot 7#4) =
    .ok (Config.freeScratch s.draws ++ BitVec.ofBool s.lk, { s with draws := s.draws + 1 }) := by
  rw [State.readLoc, State.readSlot_psw]

theorem State.readLoc_of_peek {s : State} {l : Loc} {v : Word} (hl : l ≠ .slot 7#4) (hv : s.peek l = some v) :
    s.readLoc l = .ok (v, s) := by
  cases l with
  | slot i =>
    have hi : i ≠ 7#4 := fun h => hl (h ▸ rfl)
    cases hv
    rw [State.readLoc, State.readSlot_ne s hi]
  | zp | mem => simp only [State.readLoc, hv]

/-- A slot always holds a word, so an unwritten place is one of the arrays'. -/
theorem State.readLoc_unwritten {s : State} {l : Loc} (hv : s.peek l = none) :
    s.readLoc l = .refuse .readUnwritten := by
  cases l with
  | slot i => cases hv
  | zp | mem => simp only [State.readLoc, hv]

theorem State.busRead_bound {s : State} {a : Addr} {l : Loc} (h : s.locate a = some l) (k : CheckKind) :
    s.busRead k a = s.readLoc l := by
  simp only [State.busRead, h]

theorem State.busRead_unbound {s : State} {a : Addr} (h : s.locate a = none) (k : CheckKind) :
    s.busRead k a = .check k a := by
  simp only [State.busRead, h]

theorem State.localRead_outOfFile (s : State) {a : Addr} (h : 15 < a.toNat) :
    s.localRead a = s.busRead .readUnbound a := by
  simp [State.localRead, inFile_of_lt h]

theorem addr_eq_psw {a : Addr} (h : a.toNat = 7) : a = 7#32 := BitVec.eq_of_toNat_eq h

/-- Settles O20: in-file the slot's read, out-of-file the read of the place the bus reaches. -/
theorem engineReadAnswers : Obligations.EngineReadAnswers := by
  refine fun s a => ⟨fun hin h7 => ?_, fun h7 => ⟨_, ?_, Frame.draws s (s.draws + 1)⟩,
    fun hout => ⟨fun hnone => ?_, fun l hl h7 v hv => ?_, fun l hl hv => ?_,
      fun hl => ⟨_, ?_, Frame.draws s (s.draws + 1)⟩⟩⟩
  · rw [State.localRead_inFile s (inFile_of_le hin), State.readSlot_ne s (slot_ne_psw hin h7)]
  · rw [State.localRead_inFile s (inFile_of_le (by omega)), addr_eq_psw h7]
    exact congrArg Res.ok s.readSlot_psw
  · rw [State.localRead_outOfFile s hout, State.busRead_unbound hnone]
  · rw [State.localRead_outOfFile s hout, State.busRead_bound hl, State.readLoc_of_peek h7 hv]
  · rw [State.localRead_outOfFile s hout, State.busRead_bound hl, State.readLoc_unwritten hv]
  · rw [State.localRead_outOfFile s hout, State.busRead_bound hl, State.readLoc_psw]

/-! FETCH up to decoding (R142). -/

@[simp] theorem State.pc_clearPsw (s : State) : s.clearPsw.pc = s.pc := State.pc_setPsw _ _

theorem State.peek_clearPsw (s : State) {l : Loc} (h : l ≠ .slot 7#4) : s.clearPsw.peek l = s.peek l :=
  s.peek_setX 7#4 _ l h

/-- The state FETCH hands on, `n` the draw counter after its read. -/
def State.afterFetch (s : State) (n : Nat) : State := ({ s.clearPsw with draws := n } : State).setPc (s.pc + 1#16)

/-- FETCH reads the place of PC with the PSW cleared already (R142). -/
theorem State.fetch_of_readLoc {s : State} {l : Loc} {w : Word} {n : Nat} (hl : s.locate (s.pc.setWidth 32) = some l)
    (h : s.clearPsw.readLoc l = .ok (w, { s.clearPsw with draws := n })) : s.fetch = .ok (w, s.afterFetch n) := by
  rw [State.fetch, State.pc_clearPsw, State.busRead_bound (s := s.clearPsw) hl, h, State.afterFetch, ← s.pc_clearPsw]
  rfl

theorem State.afterFetch_ends (s : State) (n : Nat) : (s.afterFetch n).pc = s.pc + 1#16 ∧ (s.afterFetch n).lk = s.lk ∧
    Fetched (s.afterFetch n) ∧ Frame [.slot 7#4, .slot 15#4] s (s.afterFetch n) := by
  have hpsw : (s.afterFetch n).psw = packPsw s.lk false false false false 0#4 0#4 0#3 :=
    (State.psw_setPc _ _).trans s.psw_clearPsw
  have hframe : Frame [.slot 7#4, .slot 15#4] s { s.clearPsw with draws := n } :=
    ((Frame.setX s 7#4 _).trans (Frame.draws _ n)).mono (by simp)
  exact ⟨State.pc_setPc _ _, (State.fields_of_psw hpsw).1, .of_psw hpsw, hframe.then_setX 15#4 _ (by simp)⟩

/-- Settles O8: the place at PC is read once the PSW is cleared, which leaves every place but slot 7 as it was. -/
theorem fetchReadsWordAtPc : Obligations.FetchReadsWordAtPc := by
  refine fun s l hl => ⟨fun w h7 hw => ⟨_, State.fetch_of_readLoc hl ?_, s.afterFetch_ends s.draws⟩, fun h7 => ?_⟩
  · exact State.readLoc_of_peek h7 ((s.peek_clearPsw h7).trans hw)
  · subst h7
    refine ⟨_, _, State.fetch_of_readLoc hl ?_, rfl, s.afterFetch_ends (s.draws + 1)⟩
    rw [State.readLoc_psw, s.lk_clearPsw]
    rfl

/-! The handler that CYCLE selects (R140, R148-R153). -/

theorem cpuStep_indirect {s : State} (h : s.cycle = 2#4) : cpuStep s = stepIndirect s := by simp [cpuStep, h]

theorem cpuStep_execute {s : State} (h : s.cycle = 3#4) : cpuStep s = stepExecute s := by simp [cpuStep, h]

theorem cpuStep_ioWait {s : State} (h : s.cycle = 4#4) : cpuStep s = stepIoWait s := by simp [cpuStep, h]

theorem cpuStep_writeback {s : State} (h : s.cycle = 9#4) : cpuStep s = stepWriteback s := by simp [cpuStep, h]

theorem cpuStep_halted {s : State} (h : s.cycle = 15#4) : cpuStep s = .next s := by simp [cpuStep, h]

/-- The values of CYCLE that name no handler (R30). -/
theorem not_legalCycle_of_range {s : State}
    (h : (5 ≤ s.cycle.toNat ∧ s.cycle.toNat ≤ 8) ∨ (10 ≤ s.cycle.toNat ∧ s.cycle.toNat ≤ 14)) : ¬ LegalCycle s := by
  rintro (hc | hc | hc | hc | hc | hc | hc) <;> simp [hc] at h

theorem cpuStep_undefined {s : State} (h : ¬ LegalCycle s) : cpuStep s = .refused .undefinedCycle := by
  simp only [LegalCycle, not_or] at h
  simp [cpuStep, h]

/-- Settles O53: by the handler that CYCLE selects. -/
theorem haltedAndUndefinedCycles : Obligations.HaltedAndUndefinedCycles := by
  intro s hrun
  rw [step_of_idle hrun]
  refine ⟨cpuStep_halted, fun h => cpuStep_undefined (not_legalCycle_of_range h), fun hc htmp => ?_⟩
  rw [cpuStep_execute hc, stepExecute, if_pos htmp]

/-! A turn of the loop that goes on, and the CPU's turn in a run (R374, R375). -/

theorem loopStep_of_next {s t : State} (hcancel : s.cancel = false) (hc : s.cycle ≠ 15#4) (h : cpuStep s = .next t) :
    loopStep s = .next { t with count := t.count + 1 } := by
  simp [loopStep, hcancel, hc, cycleHalted, h]

theorem loopStep_of_refused {s : State} {r : Refusal} (hcancel : s.cancel = false) (hc : s.cycle ≠ 15#4)
    (h : cpuStep s = .refused r) : loopStep s = .refused r := by
  simp [loopStep, hcancel, hc, cycleHalted, h]

theorem step_of_cpuTurn {s : State} (hrun : s.running = true) (hturn : s.drawTurn.1 = .cpu) :
    step s = loopStep s.drawTurn.2 := by
  rw [step, machineStep, if_pos hrun, runStep]
  split
  next s1 hd => rw [hd]
  next s1 hd => simp [hd] at hturn
  next s1 hd => simp [hd] at hturn

theorem cycle_drawTurn (s : State) : s.drawTurn.2.cycle = s.cycle := (congrArg State.cycle s.drawTurn_rest :)

theorem cancel_drawTurn (s : State) : s.drawTurn.2.cancel = s.cancel := (congrArg State.cancel s.drawTurn_rest :)

theorem count_drawTurn (s : State) : s.drawTurn.2.count = s.count := (congrArg State.count s.drawTurn_rest :)

/-- Settles O7: outside a run the step is the CPU's; in one the loop counts it where it goes through. -/
theorem stepRunsDecodedInstruction : Obligations.StepRunsDecodedInstruction := by
  refine fun s w s1 hc => ⟨fun hrun hf => ?_, fun hrun hturn hcancel hf => ?_⟩
  · rw [step_of_idle hrun, cpuStep_of_fetch hc hf]
  · have hcpu : cpuStep s.drawTurn.2 = exec (decode w) s1 := cpuStep_of_fetch (by rwa [cycle_drawTurn]) hf
    have hgo : s.drawTurn.2.cycle ≠ 15#4 := by
      rw [cycle_drawTurn]
      rintro h
      simp [h] at hc
    rw [step_of_cpuTurn hrun hturn]
    rw [← cancel_drawTurn] at hcancel
    cases hexec : exec (decode w) s1 with
    | next t => exact loopStep_of_next hcancel hgo (hcpu.trans hexec)
    | fault f => cases f
    | refused r => exact loopStep_of_refused hcancel hgo (hcpu.trans hexec)

/-! The whole PSW after one of its fields is set, and the frame of a PSW update (R24). -/

section SetField

variable {s : State} {lk op io ex id : Bool} {cycle tmp : BitVec 4} {acc : BitVec 3}
  (h : s.psw = packPsw lk op io ex id cycle tmp acc)

include h

theorem State.psw_setLk (b : Bool) : (s.setLk b).psw = packPsw b op io ex id cycle tmp acc := by
  obtain ⟨-, hop, hio, hex, hid, hcycle, htmp, hacc⟩ := State.fields_of_psw h
  apply State.psw_of_fields <;> simp [*]

theorem State.psw_setEx (b : Bool) : (s.setEx b).psw = packPsw lk op io b id cycle tmp acc := by
  obtain ⟨hlk, hop, hio, -, hid, hcycle, htmp, hacc⟩ := State.fields_of_psw h
  apply State.psw_of_fields <;> simp [*]

theorem State.psw_setId (b : Bool) : (s.setId b).psw = packPsw lk op io ex b cycle tmp acc := by
  obtain ⟨hlk, hop, hio, hex, -, hcycle, htmp, hacc⟩ := State.fields_of_psw h
  apply State.psw_of_fields <;> simp [*]

theorem State.psw_setCycle (c : BitVec 4) : (s.setCycle c).psw = packPsw lk op io ex id c tmp acc := by
  obtain ⟨hlk, hop, hio, hex, hid, -, htmp, hacc⟩ := State.fields_of_psw h
  apply State.psw_of_fields <;> simp [*]

end SetField

theorem Frame.then_setPsw {s u : State} {touched : List Loc} (h : Frame touched s u) (v : Word)
    (h7 : .slot 7#4 ∈ touched) : Frame touched s (u.setPsw v) := h.then_setX 7#4 v h7

theorem stepIoWait_done {s : State} (h : s.io = false) : stepIoWait s = .next (s.setCycle 0#4) := by
  rw [stepIoWait, h]
  rfl

/-- IO-WAIT always answers a next state, which counts as the state before does (R151). -/
theorem stepIoWait_next (s : State) : ∃ t, stepIoWait s = .next t ∧ t.count = s.count := by
  refine ⟨_, rfl, ?_⟩
  split <;> rfl

/-- Settles O32: IO decides whether the CPU waits; the loop counts the step either way. -/
theorem ioWaitPolls : Obligations.IoWaitPolls := by
  refine fun s hc => ⟨cpuStep_waiting hc, fun hio => ⟨s.setCycle 0#4, ?_, ?_, ?_⟩, fun hrun hturn hcancel => ?_⟩
  · rw [cpuStep_ioWait hc, stepIoWait_done hio]
  · rw [State.psw_setCycle s.psw_eq_pack, hio]
  · exact Frame.setX s 7#4 _
  · have hc' : s.drawTurn.2.cycle = 4#4 := (cycle_drawTurn s).trans hc
    obtain ⟨t, ht, hcount⟩ := stepIoWait_next s.drawTurn.2
    refine ⟨_, (step_of_cpuTurn hrun hturn).trans (loopStep_of_next ((cancel_drawTurn s).trans hcancel) ?_
      ((cpuStep_ioWait hc').trans ht)), ?_⟩
    · simp [hc']
    · show t.count + 1 = s.count + 1
      rw [hcount, count_drawTurn]

end Sys2Proof.Machine

namespace Sys2Proof.Machine

open Reference

/-- No place shows EA, so a frame does not ask which step wrote it last. -/
theorem Frame.restore_ea {s u : State} {touched : List Loc} (h : Frame touched s u) :
    Frame touched s { u with ea := s.ea } := by
  have hea : u.ea = s.ea := (congrArg State.ea h.2 :)
  rwa [← hea]

/-! The FETCH of a memory-reference instruction that does not complete there (R142, R144, R147). -/

/-- `exec` of an MRI is its FETCH on the fields of its word (R103). -/
theorem exec_of_mriFields {ins : Instr} {op acc : BitVec 3} {i z : Bool} {off : BitVec 8}
    (h : mriFields ins = some (op, acc, i, z, off)) (s : State) : exec ins s = fetchMri op acc i z off s := by
  cases ins <;> cases h <;> rfl

theorem mriFetch_direct_outOfFile {op acc : BitVec 3} {z : Bool} {off : BitVec 8} {s : State}
    (h : 15 < (address s.pc z off).toNat) :
    mriFetch op acc false z off s = .ok { s.setEx true with ea := address s.pc z off } := by
  simp [mriFetch, inFile_of_lt h]

theorem mriFetch_indirect_outOfFile {op acc : BitVec 3} {z : Bool} {off : BitVec 8} {s : State}
    (h : 15 < (address s.pc z off).toNat) :
    mriFetch op acc true z off s = .ok { (s.setEx true).setId true with ea := address s.pc z off } := by
  simp [mriFetch, inFile_of_lt h]

theorem mriFetch_indirect_inFile {op acc : BitVec 3} {z : Bool} {off : BitVec 8} {s : State}
    (h : (address s.pc z off).toNat ≤ 15) :
    mriFetch op acc true z off s = .ok { ((s.setEx true).resolvePointer (address s.pc z off)).2 with
      ea := ((s.setEx true).resolvePointer (address s.pc z off)).1 } := by
  simp [mriFetch, inFile_of_le h]

/-- With EX set the next cycle state is INDIRECT-RESOLVE or EXECUTE, as ID says (R147). -/
theorem State.selectCycle_pending {s : State} {lk id : Bool} {tmp : BitVec 4} {acc : BitVec 3}
    (h : s.psw = packPsw lk false false true id 0#4 tmp acc) :
    s.selectCycle = s.setCycle (if id then 2#4 else 3#4) := by
  obtain ⟨-, -, -, hex, hid, hcycle, -, -⟩ := State.fields_of_psw h
  rw [State.selectCycle_eq, hcycle, if_neg (by decide), State.nextAfterFetch, hex, hid]
  rfl

/-- The PSW of an MRI that leaves FETCH with EX set. -/
theorem Fetched.psw_latch_setEx {s : State} (h : Fetched s) (op acc : BitVec 3) :
    ((s.latch op acc).setEx true).psw = packPsw s.lk false false true false 0#4 (op.setWidth 4) acc :=
  State.psw_setEx (h.psw_latch op acc) true

theorem State.latch_setEx_frame (s : State) (op acc : BitVec 3) :
    Frame [.slot 7#4] s ((s.latch op acc).setEx true) :=
  (s.latch_frame op acc).then_setPsw _ (by simp)

/-- A FETCH that ends with EX set: the latched address is in EA, and the scratch fields say what follows. -/
theorem endFetch_pending {s u : State} {lk id : Bool} {tmp : BitVec 4} {acc : BitVec 3}
    (h : u.psw = packPsw lk false false true id 0#4 tmp acc) (a : Addr) :
    ∃ t, endFetch s (.ok { u with ea := a }) = .next t ∧ t.ea = a ∧
      t.psw = packPsw lk false false true id (if id then 2#4 else 3#4) tmp acc ∧
      (∀ i, i ≠ 7#4 → t.x i = u.x i) ∧
      ∀ touched, Frame touched s u → .slot 7#4 ∈ touched → Frame touched s { t with ea := s.ea } := by
  have hsel : ({ u with ea := a } : State).selectCycle = { u with ea := a }.setCycle (if id then 2#4 else 3#4) :=
    State.selectCycle_pending h
  exact ⟨_, (endFetch_ok s _).trans (congrArg _ hsel), rfl, State.psw_setCycle (s := { u with ea := a }) h _,
    fun i hi => State.x_setCycle _ _ i hi, fun touched hframe h7 => (hframe.then_setPsw _ h7).restore_ea⟩

/-- Settles O17: with a direct address out-of-file FETCH only latches and sets EX. -/
theorem mriDirectOutOfFilePends : Obligations.MriDirectOutOfFilePends := by
  intro s ins op acc z off hins hs hout
  obtain ⟨t, ht, hea, hpsw, -, hframe⟩ := endFetch_pending (s := s) (hs.psw_latch_setEx op acc) (address s.pc z off)
  refine ⟨t, ?_, hea, hpsw, hframe _ (s.latch_setEx_frame op acc) (by simp)⟩
  rw [exec_of_mriFields hins, fetchMri, mriFetch_direct_outOfFile (by rwa [State.pc_latch]), State.pc_latch, ht]

/-- Settles O19: the same with ID set. -/
theorem mriIndirectOutOfFilePends : Obligations.MriIndirectOutOfFilePends := by
  intro s ins op acc z off hins hs hout
  have hid := State.psw_setId (hs.psw_latch_setEx op acc) true
  obtain ⟨t, ht, hea, hpsw, -, hframe⟩ := endFetch_pending (s := s) hid (address s.pc z off)
  refine ⟨t, ?_, hea, hpsw, hframe _ ((s.latch_setEx_frame op acc).then_setPsw _ (by simp)) (by simp)⟩
  rw [exec_of_mriFields hins, fetchMri, mriFetch_indirect_outOfFile (by rwa [State.pc_latch]), State.pc_latch, ht]

/-! The pointer in a slot (R34, R145). -/

theorem isIndex_iff (i : BitVec 4) : isIndex i = true ↔ 8 ≤ i.toNat ∧ i.toNat ≤ 14 := by simp [isIndex]

/-- An index register counts up; its old word is the pointer. -/
theorem State.resolvePointer_index {s : State} {a : Addr} (h : isIndex (a.setWidth 4) = true) :
    (s.resolvePointer a).2 = s.setX (a.setWidth 4) (s.x (a.setWidth 4) + 1#16) := by
  simp [State.resolvePointer, h, State.readSlot_ne s (isIndex_ne_psw h)]

theorem State.resolvePointer_other {s : State} {a : Addr} (h : ¬ isIndex (a.setWidth 4) = true) :
    (s.resolvePointer a).2 = (s.readSlot (a.setWidth 4)).2 := by
  simp [State.resolvePointer, h]

/-- What `ResolvePointer` writes of the register file of `u`, where `u` is `s` but for the PSW. -/
theorem Frame.resolvePointer {s u : State} (h : Frame [.slot 7#4] s u) (a : Addr) :
    let i : BitVec 4 := a.setWidth 4
    (8 ≤ i.toNat ∧ i.toNat ≤ 14 → (u.resolvePointer a).2.x i = s.x i + 1#16 ∧
      Frame [.slot i, .slot 7#4] s (u.resolvePointer a).2) ∧
    (¬ (8 ≤ i.toNat ∧ i.toNat ≤ 14) → Frame [.slot 7#4] s (u.resolvePointer a).2) := by
  simp only [← isIndex_iff]
  refine ⟨fun hi => ?_, fun hi => ?_⟩
  · have hx : some (u.x (a.setWidth 4)) = some (s.x (a.setWidth 4)) := h.1 (.slot (a.setWidth 4)) (by
      simpa using isIndex_ne_psw hi)
    rw [State.resolvePointer_index hi, ← Option.some.inj hx]
    exact ⟨State.x_setX_same _ _ _, (h.mono (by simp)).then_setX _ _ (by simp)⟩
  · rw [State.resolvePointer_other hi]
    exact (h.trans (u.readSlot_frame _)).mono (by simp)

/-- Settles O18: the pointer's slot is read and counted after the latch, which only the PSW sees. -/
theorem mriIndirectInFileResolves : Obligations.MriIndirectInFileResolves := by
  intro s ins op acc z off hins hs hin
  let a := address s.pc z off
  let u := (s.latch op acc).setEx true
  have hframe : Frame [.slot 7#4] s u := s.latch_setEx_frame op acc
  have hpsw : (u.resolvePointer a).2.psw = packPsw s.lk false false true false 0#4 (op.setWidth 4) acc :=
    (u.psw_resolvePointer a).trans (hs.psw_latch_setEx op acc)
  obtain ⟨t, ht, hea, htpsw, htx, htframe⟩ := endFetch_pending (s := s) hpsw (u.resolvePointer a).1
  obtain ⟨hindex, hother⟩ := hframe.resolvePointer a
  refine ⟨t, ?_, ?_, htpsw, fun hi => ?_, fun hi => htframe _ (hother hi) (by simp)⟩
  · rw [exec_of_mriFields hins, fetchMri, mriFetch_indirect_inFile (by rwa [State.pc_latch]), State.pc_latch]
    exact ht
  · have hread : (u.readSlot (a.setWidth 4)).1 = (s.readSlot (a.setWidth 4)).1 :=
      State.readSlot_congr _ (fun h7 => (State.x_setEx _ _ _ h7).trans (s.x_latch op acc _ h7)) (by simp [u]) rfl
    rw [hea, ← hread]
    rfl
  · obtain ⟨hx, hf⟩ := hindex hi
    exact ⟨(htx _ (isIndex_ne_psw ((isIndex_iff _).2 hi))).trans hx, htframe _ hf (by simp)⟩

/-! INDIRECT-RESOLVE (R148). -/

/-- An engine read leaves the machine but for the draw counter. -/
theorem State.localRead_leaves {s s1 : State} {a : Addr} {v : Word} (h : s.localRead a = .ok (v, s1)) :
    s1.psw = s.psw ∧ (∀ i, s1.x i = s.x i) ∧ Frame [] s s1 := by
  obtain ⟨n, rfl⟩ := State.localRead_state h
  exact ⟨rfl, fun _ => rfl, Frame.draws s n⟩

/-- With the pointer `p` read, EA is `p`, ID is clear and EXECUTE is next. -/
theorem stepIndirect_ends {s u : State} (hu : u.psw = s.psw) (p : Addr) :
    let t := (({ u with ea := p } : State).setId false).setCycle cycleExecute
    t.ea = p ∧ t.psw = packPsw s.lk s.op s.io s.ex false 3#4 s.tmp s.acc ∧ (∀ i, i ≠ 7#4 → t.x i = u.x i) ∧
      ∀ touched, Frame touched s u → .slot 7#4 ∈ touched → Frame touched s { t with ea := s.ea } := by
  refine ⟨rfl, ?_, fun i hi => ?_, fun touched hframe h7 => ?_⟩
  · exact State.psw_setCycle (State.psw_setId (s := { u with ea := p }) (hu.trans s.psw_eq_pack) false) _
  · rw [State.x_setCycle _ _ _ hi, State.x_setId _ _ _ hi, State.x_with_ea]
  · exact ((hframe.then_setPsw _ h7).then_setPsw _ h7).restore_ea

/-- Settles O21: the pointer is the bus's word out-of-file and the slot's word in-file. -/
theorem indirectResolveStep : Obligations.IndirectResolveStep := by
  refine fun s hc => ⟨fun p s1 hout hread => ?_, fun hin => ?_⟩
  · obtain ⟨hpsw1, -, hframe1⟩ := State.localRead_leaves hread
    obtain ⟨hea, hpsw, -, hframe⟩ := stepIndirect_ends hpsw1 (p.setWidth 32)
    refine ⟨_, ?_, hea, hpsw, hframe _ (hframe1.mono (by simp)) (by simp)⟩
    simp [cpuStep_indirect hc, stepIndirect, inFile_of_lt hout, hread]
  · obtain ⟨hea, hpsw, hx, hframe⟩ :=
      stepIndirect_ends (s.psw_resolvePointer s.ea) (s.resolvePointer s.ea).1
    obtain ⟨hindex, hother⟩ := (Frame.refl [.slot 7#4] s).resolvePointer s.ea
    refine ⟨_, ?_, hea, hpsw, fun hi => ?_, fun hi => hframe _ (hother hi) (by simp)⟩
    · simp [cpuStep_indirect hc, stepIndirect, inFile_of_le hin]
    · obtain ⟨hcount, hf⟩ := hindex hi
      exact ⟨(hx _ (isIndex_ne_psw ((isIndex_iff _).2 hi))).trans hcount, hframe _ hf (by simp)⟩

end Sys2Proof.Machine

namespace Sys2Proof.Machine

open Reference

/-! What each effect does where its accesses go through (R181-R187). -/

theorem effect_and {acc : BitVec 3} {a : Addr} {s s1 : State} {v : Word} (hacc : acc ≠ 7#3)
    (h : s.localRead a = .ok (v, s1)) : effect 0#3 acc a s = .ok (s1.setAc acc (s1.ac acc &&& v)) := by
  simp [effect, effectAnd, hacc, h]

theorem effect_tad {acc : BitVec 3} {a : Addr} {s s1 : State} {v : Word} (hacc : acc ≠ 7#3)
    (h : s.localRead a = .ok (v, s1)) : effect 1#3 acc a s =
      .ok ((s1.setAc acc (addCarry (s1.ac acc) v).1).setLk (carryLk s1.lk (addCarry (s1.ac acc) v).2)) := by
  simp [effect, effectTad, hacc, h]

theorem effect_isz_outOfFile {a : Addr} {s s1 : State} {v : Word} (hout : 15 < a.toNat)
    (h : s.localRead a = .ok (v, s1)) : effect 2#3 7#3 a s =
      .ok { if v + 1#16 = 0#16 then (s1.setId true).skip else s1.setId true with wb := v + 1#16 } := by
  change effectIsz a s = _
  simp only [effectIsz, inFile_of_lt hout, h, Res.bind_ok, Bool.false_eq_true, reduceIte]
  split <;> rfl

theorem effect_isz_inFile {a : Addr} {s : State} (hin : a.toNat ≤ 15) (h7 : a.toNat ≠ 7) : effect 2#3 7#3 a s =
      .ok (if s.x (a.setWidth 4) + 1#16 = 0#16 then (s.setX (a.setWidth 4) (s.x (a.setWidth 4) + 1#16)).skip
        else s.setX (a.setWidth 4) (s.x (a.setWidth 4) + 1#16)) := by
  simp [effect, effectIsz, State.localRead_inFile, State.localWrite, inFile_of_le hin, addr_ne_psw h7,
    State.readSlot_ne s (slot_ne_psw hin h7)]

theorem effect_sta {acc : BitVec 3} {a : Addr} {s s1 : State} (hacc : acc ≠ 7#3)
    (h : s.localWrite a (s.ac acc) = .ok s1) : effect 2#3 acc a s = .ok s1 := by
  simp [effect, effectSta, hacc, h]

theorem effect_dca {acc : BitVec 3} {a : Addr} {s s1 : State} (hacc : acc ≠ 7#3)
    (h : s.localWrite a (s.ac acc) = .ok s1) : effect 3#3 acc a s = .ok (s1.setAc acc 0#16) := by
  simp [effect, effectDca, hacc, h]

theorem effect_jms {a : Addr} {s s1 : State} (h : s.localWrite a s.pc = .ok s1) :
    effect 4#3 7#3 a s = .ok (s1.setPc (a.setWidth 16 + 1#16)) := by
  simp [effect, effectJms, h]

theorem effect_jmp (a : Addr) (s : State) : effect 5#3 7#3 a s = .ok (s.setPc (a.setWidth 16)) := rfl

/-- An engine write reaches its place and keeps the word there, unless the place is the PSW (R65, R146). -/
theorem State.localWrite_of_storePlace {s : State} {a : Addr} {l : Loc} (h : storePlace s a = some l)
    (h7 : l ≠ .slot 7#4) (v : Word) : s.localWrite a v = .ok (s.poke l v) := by
  have ha : a ≠ 7#32 := by
    rintro rfl
    exact h7 (Option.some.inj h).symm
  unfold storePlace at h
  split at h
  next hin =>
    cases h
    simp [State.localWrite, ha, inFile_of_le hin, State.poke]
  next hout => simp [State.localWrite, ha, inFile_of_lt (Nat.lt_of_not_le hout), State.busWrite, h, h7]

/-! A skip that depends on a condition (R13, R35). -/

section Skip

variable (c : Prop) [Decidable c] (s : State)

theorem State.pc_ite_skip : (if c then s.skip else s).pc = if c then s.pc + 1#16 else s.pc := by
  split <;> simp [State.skip]

theorem State.psw_ite_skip : (if c then s.skip else s).psw = s.psw := by
  split <;> simp [State.skip]

theorem State.x_ite_skip {i : BitVec 4} (h : i ≠ 15#4) : (if c then s.skip else s).x i = s.x i := by
  split <;> simp [State.skip, State.setPc, h.symm]

end Skip

theorem Frame.then_ite_skip {s u : State} {touched : List Loc} (h : Frame touched s u) (c : Prop) [Decidable c]
    (h15 : .slot 15#4 ∈ touched) : Frame touched s (if c then u.skip else u) := by
  split
  · exact h.then_setX 15#4 _ h15
  · exact h

/-- No place shows WB, as none shows EA. -/
theorem Frame.restore_wb {s u : State} {touched : List Loc} (h : Frame touched s u) :
    Frame touched s { u with wb := s.wb } := by
  have hwb : u.wb = s.wb := (congrArg State.wb h.2 :)
  rwa [← hwb]

/-! EXECUTE around the effect (R149). -/

theorem cpuStep_execute_op {s : State} (op : BitVec 3) (hc : s.cycle = 3#4) (htmp : s.tmp = op.setWidth 4)
    (hop : op.toNat ≤ 5) :
    cpuStep s = ((effect op s.acc s.ea s).bind fun u => .ok u.endExecute).outcome s := by
  have hle : ¬ 5 < s.tmp.toNat := by
    rw [htmp, BitVec.toNat_setWidth_of_le (by decide)]
    omega
  have hwidth : s.tmp.setWidth 3 = op := by
    rw [htmp, BitVec.setWidth_setWidth_of_le _ (by decide), BitVec.setWidth_eq]
  rw [cpuStep_execute hc, stepExecute, if_neg hle, hwidth]

theorem cpuStep_of_effect {s u : State} (op : BitVec 3) (hc : s.cycle = 3#4) (htmp : s.tmp = op.setWidth 4)
    (hop : op.toNat ≤ 5) (h : effect op s.acc s.ea s = .ok u) : cpuStep s = .next u.endExecute := by
  rw [cpuStep_execute_op op hc htmp hop, h, Res.bind_ok, Res.outcome_ok]

/-- EX is 0 and CYCLE as ID says, the rest of the PSW as the effect left it. -/
theorem State.psw_endExecute {s : State} {lk op io ex id : Bool} {cycle tmp : BitVec 4} {acc : BitVec 3}
    (h : s.psw = packPsw lk op io ex id cycle tmp acc) :
    s.endExecute.psw = packPsw lk op io false id (if id then 9#4 else 0#4) tmp acc := by
  have hex := State.psw_setEx h false
  obtain ⟨-, -, -, -, hid, -, -, -⟩ := State.fields_of_psw hex
  rw [State.endExecute, State.psw_setCycle hex, hid]
  rfl

theorem State.peek_endExecute (s : State) {l : Loc} (h : l ≠ .slot 7#4) : s.endExecute.peek l = s.peek l :=
  (State.peek_setX _ 7#4 _ l h).trans (s.peek_setX 7#4 _ l h)

theorem State.x_endExecute (s : State) {i : BitVec 4} (h : i ≠ 7#4) : s.endExecute.x i = s.x i :=
  (State.x_setCycle _ _ _ h).trans (State.x_setEx _ _ _ h)

theorem State.ac_endExecute (s : State) {acc : BitVec 3} (h : acc ≠ 7#3) : s.endExecute.ac acc = s.ac acc :=
  s.x_endExecute (acSlot_ne_psw acc h)

@[simp] theorem State.pc_endExecute (s : State) : s.endExecute.pc = s.pc := s.x_endExecute (by decide)

theorem Frame.then_endExecute {s u : State} {touched : List Loc} (h : Frame touched s u) (h7 : .slot 7#4 ∈ touched) :
    Frame touched s u.endExecute := (h.then_setPsw _ h7).then_setPsw _ h7

/-- Settles O22: the operand is read, then AC written, and LK by TAD. -/
theorem executeAndTad : Obligations.ExecuteAndTad := by
  intro s v s1 hc hacc hread
  obtain ⟨hpsw1, hx1, hframe1⟩ := State.localRead_leaves hread
  have hac : s1.ac s.acc = s.ac s.acc := hx1 _
  have hpsw (w : Word) : (s1.setAc s.acc w).psw = packPsw s.lk s.op s.io s.ex s.id s.cycle s.tmp s.acc :=
    (State.psw_setAc _ _ _ hacc).trans (hpsw1.trans s.psw_eq_pack)
  have hframe (w : Word) : Frame [.slot (acSlot s.acc), .slot 7#4] s (s1.setAc s.acc w) :=
    (hframe1.mono (by simp)).then_setX _ _ (by simp)
  refine ⟨fun htmp => ⟨_, cpuStep_of_effect 0#3 hc htmp (by decide) (effect_and hacc hread), ?_, ?_, ?_⟩,
    fun htmp => ⟨_, cpuStep_of_effect 1#3 hc htmp (by decide) (effect_tad hacc hread), ?_, ?_, ?_⟩⟩
  · rw [State.ac_endExecute _ hacc, State.ac_setAc, if_pos rfl, hac]
  · exact State.psw_endExecute (hpsw _)
  · exact (hframe _).then_endExecute (by simp)
  · rw [State.ac_endExecute _ hacc, State.ac_setLk _ _ _ hacc, State.ac_setAc, if_pos rfl, addCarry_fst, hac]
  · have hlk : s1.lk = s.lk := congrArg (getFlag · 0) hpsw1
    rw [State.psw_endExecute (State.psw_setLk (hpsw _) _), hlk, carryLk, addCarry_snd, hac]
    simp only [decide_eq_true_eq]
    rfl
  · exact ((hframe _).then_setPsw _ (by simp)).then_endExecute (by simp)

/-- Settles O23: the word is kept at the place, then DCA clears AC and JMS loads PC. -/
theorem executeStaDcaJms : Obligations.ExecuteStaDcaJms := by
  intro s l hc hl h7
  have hpsw (v : Word) : (s.poke l v).psw = packPsw s.lk s.op s.io s.ex s.id s.cycle s.tmp s.acc :=
    (s.psw_poke v h7).trans s.psw_eq_pack
  refine ⟨fun htmp hacc => ⟨_, cpuStep_of_effect 2#3 hc htmp (by decide)
      (effect_sta hacc (State.localWrite_of_storePlace hl h7 _)), ?_, ?_, ?_⟩,
    fun htmp hacc => ⟨_, cpuStep_of_effect 3#3 hc htmp (by decide)
      (effect_dca hacc (State.localWrite_of_storePlace hl h7 _)), ?_, fun hne => ?_, ?_, ?_⟩,
    fun htmp hacc => ⟨_, cpuStep_of_effect 4#3 hc htmp (by decide)
      (hacc ▸ effect_jms (State.localWrite_of_storePlace hl h7 _)), ?_, fun hne => ?_, ?_, ?_⟩⟩
  · rw [State.peek_endExecute _ h7, State.peek_poke_same]
  · exact State.psw_endExecute (hpsw _)
  · exact ((Frame.poke s l _).mono (by simp)).then_endExecute (by simp)
  · rw [State.ac_endExecute _ hacc, State.ac_setAc, if_pos rfl]
  · rw [State.peek_endExecute _ h7, State.setAc, State.peek_setX _ _ _ _ hne, State.peek_poke_same]
  · exact State.psw_endExecute ((State.psw_setAc _ _ _ hacc).trans (hpsw _))
  · exact (((Frame.poke s l _).mono (by simp)).then_setX _ _ (by simp)).then_endExecute (by simp)
  · rw [State.pc_endExecute, State.pc_setPc]
  · rw [State.peek_endExecute _ h7, State.setPc, State.peek_setX _ _ _ _ hne, State.peek_poke_same]
  · exact State.psw_endExecute ((State.psw_setPc _ _).trans (hpsw _))
  · exact (((Frame.poke s l _).mono (by simp)).then_setX _ _ (by simp)).then_endExecute (by simp)

/-- Settles O24: out-of-file WB and ID are written, in-file the slot; the skip is decided on the word counted up. -/
theorem executeIsz : Obligations.ExecuteIsz := by
  refine fun s hc htmp hacc => ⟨fun v s1 hout hread => ?_, fun hin h7 => ?_⟩
  · obtain ⟨hpsw1, hx1, hframe1⟩ := State.localRead_leaves hread
    have hpc : s1.pc = s.pc := hx1 15#4
    have hframe : Frame [.slot 15#4, .slot 7#4] s (s1.setId true) := (hframe1.mono (by simp)).then_setPsw _ (by simp)
    refine ⟨_, cpuStep_of_effect 2#3 hc htmp (by decide) (hacc ▸ effect_isz_outOfFile hout hread), rfl, ?_, ?_, ?_⟩
    · rw [State.pc_endExecute, State.pc_with_wb, State.pc_ite_skip, State.pc_setId, hpc]
    · exact State.psw_endExecute ((State.psw_with_wb _ _).trans ((State.psw_ite_skip _ _).trans
        (State.psw_setId (hpsw1.trans s.psw_eq_pack) true)))
    · exact ((hframe.then_ite_skip _ (by simp)).then_endExecute (by simp)).restore_wb
  · have hi : s.ea.setWidth 4 ≠ 7#4 := slot_ne_psw hin h7
    refine ⟨_, cpuStep_of_effect 2#3 hc htmp (by decide) (hacc ▸ effect_isz_inFile hin h7),
      fun h15 => ⟨?_, ?_⟩, fun h15 => ?_, ?_, ?_⟩
    · rw [State.x_endExecute _ hi, State.x_ite_skip _ _ h15, State.x_setX_same]
    · rw [State.pc_endExecute, State.pc_ite_skip, State.pc, State.x_setX_ne _ _ _ _ h15]
      rfl
    · rw [State.pc_endExecute, State.pc_ite_skip, h15, State.pc, State.x_setX_same]
    · exact State.psw_endExecute ((State.psw_ite_skip _ _).trans ((s.psw_setX _ _ hi).trans s.psw_eq_pack))
    · exact (((Frame.setX s _ _).mono (by simp)).then_ite_skip _ (by simp)).then_endExecute (by simp)

/-- Settles O25: of the slots the effect writes PC alone. -/
theorem executeJmp : Obligations.ExecuteJmp := by
  intro s hc htmp hacc
  refine ⟨_, cpuStep_of_effect 5#3 hc htmp (by decide) (hacc ▸ effect_jmp s.ea s), ?_, ?_, ?_⟩
  · rw [State.pc_endExecute, State.pc_setPc]
  · exact State.psw_endExecute ((s.psw_setPc _).trans s.psw_eq_pack)
  · exact ((Frame.setX s 15#4 _).mono (by simp)).then_endExecute (by simp)

/-- Settles O26: the store leaves the PSW, of which ID and CYCLE are written after it. -/
theorem writebackStores : Obligations.WritebackStores := by
  intro s l hc hl h7
  refine ⟨((s.poke l s.wb).setId false).setCycle cycleFetch, ?_, ?_, ?_, ?_⟩
  · rw [cpuStep_writeback hc, stepWriteback, State.localWrite_of_storePlace hl h7]
    rfl
  · rw [State.setCycle, State.setPsw, State.peek_setX _ _ _ _ h7, State.setId, State.setPsw,
      State.peek_setX _ _ _ _ h7, State.peek_poke_same]
  · exact State.psw_setCycle (State.psw_setId ((s.psw_poke s.wb h7).trans s.psw_eq_pack) false) _
  · exact (((Frame.poke s l _).mono (by simp)).then_setPsw _ (by simp)).then_setPsw _ (by simp)

end Sys2Proof.Machine

namespace Sys2Proof.Machine

open Reference

/-! The short-circuit and the path forced through EXECUTE (R154): the forced state differs in EX, CYCLE and EA, which no
effect on an in-file address reads, so the effect goes alike on both. -/

/-- Two states that agree on the slots but the PSW, on the PSW, and on everything else. -/
theorem State.eq_of_psw {s t : State} (hx : ∀ i, i ≠ 7#4 → s.x i = t.x i) (hp : s.psw = t.psw)
    (hr : { s with regs := t.regs } = t) : s = t := by
  have hregs : s.regs = t.regs := State.regs_ext fun i => by
    by_cases hi : i = 7#4
    · exact hi ▸ hp
    · exact hx i hi
  rw [← hr, ← hregs]

/-- The state with EXECUTE to come at address `a`. -/
def State.forced (s : State) (a : Addr) : State := { (s.setEx true).setCycle 3#4 with ea := a }

theorem State.x_forced (s : State) (a : Addr) {i : BitVec 4} (h : i ≠ 7#4) : (s.forced a).x i = s.x i :=
  (State.x_setCycle _ _ _ h).trans (State.x_setEx _ _ _ h)

theorem State.ac_forced (s : State) (a : Addr) {acc : BitVec 3} (h : acc ≠ 7#3) : (s.forced a).ac acc = s.ac acc :=
  s.x_forced a (acSlot_ne_psw acc h)

@[simp] theorem State.pc_forced (s : State) (a : Addr) : (s.forced a).pc = s.pc := s.x_forced a (by decide)

theorem State.psw_forced {s : State} {lk op io ex id : Bool} {cycle tmp : BitVec 4} {acc : BitVec 3}
    (h : s.psw = packPsw lk op io ex id cycle tmp acc) (a : Addr) :
    (s.forced a).psw = packPsw lk op io true id 3#4 tmp acc := State.psw_setCycle (State.psw_setEx h true) _

@[simp] theorem State.lk_forced (s : State) (a : Addr) : (s.forced a).lk = s.lk :=
  (State.fields_of_psw (State.psw_forced s.psw_eq_pack a)).1

/-! Forcing commutes with what an effect on an in-file address does. -/

theorem State.setX_forced (s : State) (a : Addr) {i : BitVec 4} (h : i ≠ 7#4) (v : Word) :
    (s.setX i v).forced a = (s.forced a).setX i v := by
  refine State.eq_of_psw (fun j hj => ?_) ?_ rfl
  · rw [State.x_forced _ _ hj, State.x_setX, State.x_setX, State.x_forced _ _ hj]
  · rw [State.psw_setX _ _ _ h, State.psw_forced s.psw_eq_pack,
      State.psw_forced ((s.psw_setX i v h).trans s.psw_eq_pack)]

theorem State.setAc_forced (s : State) (a : Addr) {acc : BitVec 3} (h : acc ≠ 7#3) (v : Word) :
    (s.setAc acc v).forced a = (s.forced a).setAc acc v := s.setX_forced a (acSlot_ne_psw acc h) v

theorem State.setPc_forced (s : State) (a : Addr) (v : Word) : (s.setPc v).forced a = (s.forced a).setPc v :=
  s.setX_forced a (by decide) v

theorem State.skip_forced (s : State) (a : Addr) : s.skip.forced a = (s.forced a).skip := by
  rw [State.skip, State.setPc_forced, State.skip, State.pc_forced]

theorem State.setLk_forced (s : State) (a : Addr) (b : Bool) : (s.setLk b).forced a = (s.forced a).setLk b := by
  refine State.eq_of_psw (fun j hj => ?_) ?_ rfl
  · rw [State.x_forced _ _ hj, State.x_setLk _ _ _ hj, State.x_setLk _ _ _ hj, State.x_forced _ _ hj]
  · rw [State.psw_forced (State.psw_setLk s.psw_eq_pack b), State.psw_setLk (State.psw_forced s.psw_eq_pack a)]

theorem State.readSlot_forced (s : State) (a : Addr) (i : BitVec 4) :
    (s.forced a).readSlot i = ((s.readSlot i).1, (s.readSlot i).2.forced a) := by
  by_cases h : i = 7#4
  · subst h
    rw [State.readSlot_psw, State.readSlot_psw, State.lk_forced]
    rfl
  · rw [State.readSlot_ne _ h, State.readSlot_ne _ h, State.x_forced _ _ h]

section InFile

variable {b : Addr} (hb : b.toNat ≤ 15)

include hb

theorem State.localWrite_forced (s : State) (a : Addr) (v : Word) :
    (s.forced a).localWrite b v = (s.localWrite b v).bind fun u => .ok (u.forced a) := by
  by_cases h7 : b = 7#32
  · simp [h7]
  · have hi : b.setWidth 4 ≠ 7#4 := slot_ne_psw hb fun h => h7 (addr_eq_psw h)
    simp [State.localWrite, h7, inFile_of_le hb, s.setX_forced a hi]

theorem effectAnd_forced (acc : BitVec 3) (s : State) (a : Addr) :
    effectAnd acc b (s.forced a) = (effectAnd acc b s).bind fun u => .ok (u.forced a) := by
  by_cases hacc : acc = 7#3
  · simp [effectAnd, hacc]
  · simp [effectAnd, hacc, State.localRead_inFile _ (inFile_of_le hb), State.readSlot_forced, State.setAc_forced,
      State.ac_forced]

theorem effectTad_forced (acc : BitVec 3) (s : State) (a : Addr) :
    effectTad acc b (s.forced a) = (effectTad acc b s).bind fun u => .ok (u.forced a) := by
  by_cases hacc : acc = 7#3
  · simp [effectTad, hacc]
  · simp [effectTad, hacc, State.localRead_inFile _ (inFile_of_le hb), State.readSlot_forced, State.setAc_forced,
      State.setLk_forced, State.ac_forced]

theorem effectIsz_forced (s : State) (a : Addr) :
    effectIsz b (s.forced a) = (effectIsz b s).bind fun u => .ok (u.forced a) := by
  simp only [effectIsz, State.localRead_inFile _ (inFile_of_le hb), State.readSlot_forced, Res.bind_ok,
    inFile_of_le hb, if_true, State.localWrite_forced hb]
  cases (s.readSlot (b.setWidth 4)).2.localWrite b ((s.readSlot (b.setWidth 4)).1 + 1#16) with
  | ok u => simp only [Res.bind_ok, apply_ite (State.forced · a), State.skip_forced]
  | check | refuse => rfl

theorem effectSta_forced {acc : BitVec 3} (hacc : acc ≠ 7#3) (s : State) (a : Addr) :
    effectSta acc b (s.forced a) = (effectSta acc b s).bind fun u => .ok (u.forced a) := by
  rw [effectSta, State.ac_forced _ _ hacc, State.localWrite_forced hb, effectSta]

theorem effectDca_forced (acc : BitVec 3) (s : State) (a : Addr) :
    effectDca acc b (s.forced a) = (effectDca acc b s).bind fun u => .ok (u.forced a) := by
  by_cases hacc : acc = 7#3
  · simp [effectDca, hacc]
  · simp only [effectDca, hacc, if_false, State.ac_forced, State.localWrite_forced hb, ne_eq, not_false_eq_true]
    cases s.localWrite b (s.ac acc) with
    | ok u => simp [State.setAc_forced, hacc]
    | check | refuse => rfl

theorem effectJms_forced (acc : BitVec 3) (s : State) (a : Addr) :
    effectJms acc b (s.forced a) = (effectJms acc b s).bind fun u => .ok (u.forced a) := by
  by_cases hacc : acc = 7#3
  · simp only [effectJms, hacc, ne_eq, not_true_eq_false, if_false, State.pc_forced, State.localWrite_forced hb]
    cases s.localWrite b s.pc with
    | ok u => simp [State.setPc_forced]
    | check | refuse => rfl
  · simp [effectJms, hacc]

/-- An effect on an in-file address goes on the forced state as on the state itself (R154, R190). -/
theorem effect_forced (op acc : BitVec 3) (s : State) (a : Addr) :
    effect op acc b (s.forced a) = (effect op acc b s).bind fun u => .ok (u.forced a) := by
  unfold effect
  split_ifs with h0 h1 h2 hacc h3 h4 hacc
  · exact effectAnd_forced hb acc s a
  · exact effectTad_forced hb acc s a
  · exact effectIsz_forced hb s a
  · exact effectSta_forced hb hacc s a
  · exact effectDca_forced hb acc s a
  · exact effectJms_forced hb acc s a
  · exact congrArg Res.ok (s.setPc_forced a _).symm
  · rfl

/-- EXECUTE on the forced state. -/
theorem cpuStep_forced {s : State} {op acc : BitVec 3} (htmp : s.tmp = op.setWidth 4) (hacc : s.acc = acc)
    (hop : op.toNat ≤ 5) : cpuStep (s.forced b) =
      ((effect op acc b s).bind fun u => .ok (u.forced b).endExecute).outcome (s.forced b) := by
  obtain ⟨-, -, -, -, -, fcycle, ftmp, facc⟩ := State.fields_of_psw (State.psw_forced s.psw_eq_pack b)
  rw [cpuStep_execute_op op fcycle (ftmp.trans htmp) hop, facc.trans hacc, show (s.forced b).ea = b from rfl,
    effect_forced hb]
  cases effect op acc b s <;> rfl

end InFile

/-- FETCH of an effect that left the scratch fields but TMP and ACC 0 changes nothing more (R147). -/
theorem State.selectCycle_done {u : State} {lk : Bool} {tmp : BitVec 4} {acc : BitVec 3}
    (h : u.psw = packPsw lk false false false false 0#4 tmp acc) : u.selectCycle = u := by
  obtain ⟨-, -, hio, hex, hid, hcycle, -, -⟩ := State.fields_of_psw h
  rw [State.selectCycle_eq, hcycle, if_neg (by decide), State.nextAfterFetch, hid, hex, hio]
  exact State.eq_of_psw (fun i hi => State.x_setCycle _ _ _ hi) ((State.psw_setCycle h _).trans h.symm) rfl

/-- EXECUTE ends where the short-circuit did, EA apart (R149). -/
theorem State.endExecute_forced {u : State} {lk : Bool} {tmp : BitVec 4} {acc : BitVec 3}
    (h : u.psw = packPsw lk false false false false 0#4 tmp acc) (a : Addr) :
    { (u.forced a).endExecute with ea := u.ea } = u := by
  have hend : (u.forced a).endExecute.psw = u.psw := (State.psw_endExecute (State.psw_forced h a)).trans h.symm
  refine State.eq_of_psw (fun i hi => (State.x_endExecute _ hi).trans (u.x_forced a hi)) hend ?_
  cases u
  rfl

theorem mriFields_op_le {ins : Instr} {op acc : BitVec 3} {i z : Bool} {off : BitVec 8}
    (h : mriFields ins = some (op, acc, i, z, off)) : op.toNat ≤ 5 := by
  cases ins <;> cases h <;> decide

/-- Settles O29: both paths run the same effect, on the latched state and on that state forced. -/
theorem shortCircuitEqualsLongPath : Obligations.ShortCircuitEqualsLongPath := by
  intro s ins op acc z off hins hwf hs hin forced
  let a := address s.pc z off
  have hpsw := hs.psw_latch op acc
  obtain ⟨-, hop, hio, hex, hid, hcycle, htmp, hacc⟩ := State.fields_of_psw hpsw
  have hshort : exec ins s = endFetch s (effect op acc a (s.latch op acc)) :=
    (exec_of_mriFields hins s).trans (fetchMri_direct op acc z off s hin)
  have hlong : cpuStep forced = _ := cpuStep_forced hin htmp hacc (mriFields_op_le hins)
  rw [hshort, hlong]
  cases heff : effect op acc a (s.latch op acc) with
  | ok u =>
    obtain ⟨-, lk, hu, -⟩ := effect_inFile hin heff
    rw [hop, hio, hex, hid, hcycle, htmp, hacc] at hu
    have hend := State.endExecute_forced hu a
    rw [endFetch_ok, State.selectCycle_done hu]
    exact ⟨_, rfl, (congrArg State.regs hend :), hend⟩
  | check k b => exact absurd heff (effect_inFile_no_check hin)
  | refuse r => rfl

end Sys2Proof.Machine

namespace Sys2Proof.Machine

open Reference

/-! Which refusals a step can answer, one lemma for each operation (R33(b), R47, R149, R189, R330). -/

theorem Res.bind_eq_refuse {α β : Type} {r : Res α} {f : α → Res β} {q : Refusal} :
    r.bind f = .refuse q ↔ r = .refuse q ∨ ∃ a, r = .ok a ∧ f a = .refuse q := by
  cases r <;> simp [Res.bind]

theorem Res.outcome_eq_refused {s : State} {r : Res State} {q : Refusal} :
    r.outcome s = .refused q ↔ r = .refuse q := by
  cases r <;> simp [Res.outcome]

theorem endFetch_eq_refused {s : State} {r : Res State} {q : Refusal} (h : endFetch s r = .refused q) :
    r = .refuse q := by
  obtain h | ⟨u, -, h⟩ := Res.bind_eq_refuse.1 (Res.outcome_eq_refused.1 h)
  · exact h
  · cases h

/-- The refusals of an engine access: a word nothing has written, and a write of the PSW (R33(b), R47). -/
abbrev AccessRefusal (q : Refusal) : Prop := q = .readUnwritten ∨ q = .pswWrite

/-- Not one of the two refusals of the engine's own scratch state (R149, R153). -/
abbrev NotScratchRefusal (q : Refusal) : Prop := q ≠ .undefinedCycle ∧ q ≠ .badScratch

theorem AccessRefusal.notScratch {q : Refusal} (h : AccessRefusal q) : NotScratchRefusal q := by
  obtain rfl | rfl := h <;> decide

theorem State.busRead_refuse {s : State} {k : CheckKind} {a : Addr} {q : Refusal} (h : s.busRead k a = .refuse q) :
    AccessRefusal q := by
  cases hl : s.locate a with
  | none =>
    rw [State.busRead_unbound hl] at h
    cases h
  | some l =>
    rw [State.busRead_bound hl] at h
    by_cases h7 : l = .slot 7#4
    · rw [h7, State.readLoc_psw] at h
      cases h
    cases hv : s.peek l with
    | none =>
      rw [State.readLoc_unwritten hv] at h
      cases h
      exact .inl rfl
    | some v =>
      rw [State.readLoc_of_peek h7 hv] at h
      cases h

theorem State.localRead_refuse {s : State} {a : Addr} {q : Refusal} (h : s.localRead a = .refuse q) :
    AccessRefusal q := by
  unfold State.localRead at h
  split at h
  · cases h
  · exact State.busRead_refuse h

theorem State.localWrite_refuse {s : State} {a : Addr} {v : Word} {q : Refusal} (h : s.localWrite a v = .refuse q) :
    AccessRefusal q := by
  unfold State.localWrite State.busWrite at h
  split at h
  · cases h
    exact .inr rfl
  split at h
  · cases h
  split at h
  · cases h
  split at h
  · cases h
    exact .inr rfl
  · cases h

/-- What follows an access that goes through is refused for a reason of its own. -/
theorem State.localRead_bind_refuse {α : Type} {s : State} {a : Addr} {q : Refusal} {f : Word × State → Res α}
    (h : (s.localRead a).bind f = .refuse q) : AccessRefusal q ∨ ∃ p, f p = .refuse q := by
  obtain h | ⟨p, -, h⟩ := Res.bind_eq_refuse.1 h
  · exact .inl (State.localRead_refuse h)
  · exact .inr ⟨p, h⟩

theorem State.localWrite_bind_refuse {α : Type} {s : State} {a : Addr} {v : Word} {q : Refusal} {f : State → Res α}
    (h : (s.localWrite a v).bind f = .refuse q) : AccessRefusal q ∨ ∃ u, f u = .refuse q := by
  obtain h | ⟨u, -, h⟩ := Res.bind_eq_refuse.1 h
  · exact .inl (State.localWrite_refuse h)
  · exact .inr ⟨u, h⟩

/-- The forms of `Effect` that R188 and R189 refuse are the ones the decoder does not accept. -/
theorem not_legalForm : ∀ op acc : BitVec 3, ((op = 0#3 ∨ op = 1#3 ∨ op = 3#3) ∧ acc = 7#3) ∨
    (op ≠ 0#3 ∧ op ≠ 1#3 ∧ op ≠ 2#3 ∧ op ≠ 3#3 ∧ acc ≠ 7#3) → ¬ LegalForm (op.setWidth 4) acc := by decide

theorem effectIsz_refuse {a : Addr} {s : State} {q : Refusal} (h : effectIsz a s = .refuse q) : AccessRefusal q := by
  obtain h | ⟨p, h⟩ := State.localRead_bind_refuse h
  · exact h
  obtain h | ⟨u, -, h⟩ := Res.bind_eq_refuse.1 h
  · split at h
    · exact State.localWrite_refuse h
    · cases h
  · cases h

/-- An effect is refused for its access, or for a form the decoder does not accept. -/
theorem effect_refuse {op acc : BitVec 3} {a : Addr} {s : State} {q : Refusal} (h : effect op acc a s = .refuse q) :
    AccessRefusal q ∨ ((q = .noRegisterForm ∨ q = .unspecifiedSemantics) ∧ ¬ LegalForm (op.setWidth 4) acc) := by
  unfold effect effectAnd effectTad effectSta effectDca effectJms effectJmp effectJmpl at h
  split_ifs at h with h0 hacc h1 hacc h2 hacc h3 hacc h4 hacc hacc
  · cases h
    exact .inr ⟨.inl rfl, not_legalForm op acc (.inl ⟨.inl h0, hacc⟩)⟩
  · exact .inl ((State.localRead_bind_refuse h).resolve_right (by simp))
  · cases h
    exact .inr ⟨.inl rfl, not_legalForm op acc (.inl ⟨.inr (.inl h1), hacc⟩)⟩
  · exact .inl ((State.localRead_bind_refuse h).resolve_right (by simp))
  · exact .inl (effectIsz_refuse h)
  · exact .inl (State.localWrite_refuse h)
  · cases h
    exact .inr ⟨.inl rfl, not_legalForm op acc (.inl ⟨.inr (.inr h3), hacc⟩)⟩
  · exact .inl ((State.localWrite_bind_refuse h).resolve_right (by simp))
  · cases h
    exact .inr ⟨.inl rfl, not_legalForm op acc (.inr ⟨h0, h1, h2, h3, hacc⟩)⟩
  · exact .inl ((State.localWrite_bind_refuse h).resolve_right (by simp))
  · cases h
    exact .inr ⟨.inr rfl, not_legalForm op acc (.inr ⟨h0, h1, h2, h3, hacc⟩)⟩

/-! No instruction's FETCH is refused for the scratch state (R142, R330). -/

theorem fetchMri_refused {op acc : BitVec 3} {i z : Bool} {off : BitVec 8} {s : State} {q : Refusal}
    (h : fetchMri op acc i z off s = .refused q) : NotScratchRefusal q := by
  replace h := endFetch_eq_refused h
  unfold mriFetch at h
  simp only at h
  split_ifs at h
  obtain h | ⟨rfl | rfl, -⟩ := effect_refuse h
  · exact h.notScratch
  · decide
  · decide

theorem fetchShiftReg_refused {f : Word → Bool → Nat → Word × Bool} {d r : BitVec 3} {s : State} {q : Refusal}
    (h : fetchShiftReg f d r s = .refused q) : NotScratchRefusal q := by
  replace h := endFetch_eq_refused h
  simp only at h
  split at h
  · cases h
    decide
  · cases h

theorem exec_refused {i : Instr} {s : State} {q : Refusal} (h : exec i s = .refused q) : NotScratchRefusal q := by
  cases i
  case and | tad | sta | isz | dca | jms | jmp => exact fetchMri_refused h
  case shl | shr | sar | rol | ror => exact fetchShiftReg_refused h
  case jmpWithLoad | reservedRot7 | reservedBit0 | jmsReg | acc7 | iotBit9 | g3rSource7 | g3rBit3 | g3rOp3 | g3iOp3 =>
    cases h
    decide
  case iot | cla | cll | cma | cml | iac | rar | ral | rtr | rtl | bsw | bsw6 | nop => cases h
  case sma | sza | snl | spa | sna | szl | skp | cla2 | osr | hlt | nop2 => cases h
  case mov | swp | or | xor | shli | shri | sari | roli | rori => cases h

theorem stepFetch_refused {s : State} {q : Refusal} (h : stepFetch s = .refused q) : NotScratchRefusal q := by
  unfold stepFetch at h
  split at h
  next => exact exec_refused h
  next => cases h
  next r hf =>
    cases h
    obtain hread | ⟨p, -, hp⟩ := Res.bind_eq_refuse.1 hf
    · exact (State.busRead_refuse hread).notScratch
    · cases hp

/-! The handlers after FETCH (R148-R150). -/

theorem stepIndirect_refused {s : State} {q : Refusal} (h : stepIndirect s = .refused q) : AccessRefusal q := by
  obtain h | ⟨p, -, h⟩ := Res.bind_eq_refuse.1 (Res.outcome_eq_refused.1 h)
  · split at h
    · cases h
    · exact (State.localRead_bind_refuse h).resolve_right (by simp)
  · cases h

theorem stepExecute_refused {s : State} {q : Refusal} (hform : LegalForm s.tmp s.acc) (h : stepExecute s = .refused q) :
    AccessRefusal q := by
  have widen : ∀ tmp : BitVec 4, tmp.toNat ≤ 5 → (tmp.setWidth 3).setWidth 4 = tmp := by decide
  have htmp : s.tmp.toNat ≤ 5 := hform.1
  rw [stepExecute, if_neg (Nat.not_lt.2 htmp)] at h
  obtain h | ⟨u, -, h⟩ := Res.bind_eq_refuse.1 (Res.outcome_eq_refused.1 h)
  · refine (effect_refuse h).resolve_right fun ⟨_, hbad⟩ => hbad ?_
    rwa [widen _ htmp]
  · cases h

theorem stepWriteback_refused {s : State} {q : Refusal} (h : stepWriteback s = .refused q) : AccessRefusal q :=
  (State.localWrite_bind_refuse (Res.outcome_eq_refused.1 h)).resolve_right (by simp)

/-- A CPU step of a legal engine is refused by its instruction in FETCH, and elsewhere by an access only. -/
theorem cpuStep_refused {s : State} {q : Refusal} (he : EngineLegal s) (h : cpuStep s = .refused q) :
    NotScratchRefusal q ∧ (s.cycle ≠ 0#4 → s.cycle ≠ 1#4 → AccessRefusal q) := by
  obtain ⟨hcycle, hform, -⟩ := he
  have access (hq : AccessRefusal q) :
      NotScratchRefusal q ∧ (s.cycle ≠ 0#4 → s.cycle ≠ 1#4 → AccessRefusal q) := ⟨hq.notScratch, fun _ _ => hq⟩
  unfold cpuStep at h
  split_ifs at h with h0 h2 h3 h4 h9 h15
  · exact ⟨stepFetch_refused h, fun hn0 hn1 => absurd h0 (not_or.2 ⟨hn0, hn1⟩)⟩
  · exact access (stepIndirect_refused h)
  · exact access (stepExecute_refused (hform (.inr h3)) h)
  · cases h
  · exact access (stepWriteback_refused h)
  · exact absurd hcycle (by simp [LegalCycle, not_or.1 h0, h2, h3, h4, h9, h15])

/-! A device's part of a run is refused for ACC 7 only, so never while a command is outstanding (R226, R234, R379). -/

theorem action_refuse {d : Dev} {c : Word} {acc : BitVec 3} {s : State} {q : Refusal}
    (h : action d c acc s = .refuse q) : acc = 7#3 := by
  unfold action actionOutput actionSkip actionRead at h
  split at h <;> split_ifs at h <;> assumption

theorem devFinish_refuse {d : Dev} {s : State} {q : Refusal} (h : devFinish d s = .refuse q) : s.acc = 7#3 := by
  unfold devFinish at h
  split at h
  next c _ =>
    obtain h | ⟨u, -, h⟩ := Res.bind_eq_refuse.1 h
    · exact action_refuse h
    · cases h
  next => cases h

theorem stopAgent_refuse {d : Dev} {s : State} {q : Refusal} (h : stopAgent d s = .refuse q) : s.acc = 7#3 := by
  unfold stopAgent at h
  split at h
  · obtain h | ⟨u, -, h⟩ := Res.bind_eq_refuse.1 h
    · exact devFinish_refuse h
    · cases h
  · cases h

theorem endOfRun_refuse {s : State} {q : Refusal} (h : endOfRun s = .refuse q) : s.acc = 7#3 := by
  obtain h | ⟨u, hu, h⟩ := Res.bind_eq_refuse.1 h
  · exact stopAgent_refuse h
  obtain h | ⟨v, -, h⟩ := Res.bind_eq_refuse.1 h
  · obtain ⟨-, -, -, io, hpsw, -⟩ := stopAgent_keeps hu
    obtain ⟨-, -, -, -, -, -, -, hacc⟩ := State.fields_of_psw hpsw
    exact hacc.symm.trans (stopAgent_refuse h)
  · cases h

/-- With nothing claimed the run's end goes through. -/
theorem endOfRun_idle {s : State} (h : ∀ d, (s.agent d).pending = none) (q : Refusal) : endOfRun s ≠ .refuse q := by
  have hin : ((s.setAgent .output { s.agent .output with running := false }).agent .input).pending = none := h .input
  simp [endOfRun, stopAgent_idle (h .output), stopAgent_idle hin]

theorem DeviceLegal.pending_eq_none {s : State} (h : DeviceLegal s) (hrun : s.running = true) (hacc : s.acc = 7#3)
    (d : Dev) : (s.agent d).pending = none := by
  obtain ⟨hle, hone⟩ := h hrun
  have hne : outstanding s ≠ 1 := fun h1 => by
    obtain ⟨-, hreg, -⟩ := hone h1
    exact hreg hacc
  have h0 : outstanding s = 0 := by omega
  simp only [outstanding, Nat.add_eq_zero_iff, Bool.toNat_eq_zero, Option.isSome_eq_false_iff,
    Option.isNone_iff_eq_none] at h0
  obtain ⟨⟨-, hout⟩, hin⟩ := h0
  cases d
  · exact hout
  · exact hin

theorem devFinish_ne_refuse {d : Dev} {s : State} (h : DeviceLegal s) (hrun : s.running = true)
    (hp : s.canPerform d = true) (q : Refusal) : devFinish d s ≠ .refuse q := fun hq => by
  simp [State.canPerform, h.pending_eq_none hrun (devFinish_refuse hq) d] at hp

theorem endOfRun_ne_refuse {s : State} (h : DeviceLegal s) (hrun : s.running = true) (q : Refusal) :
    endOfRun s ≠ .refuse q := fun hq =>
  endOfRun_idle (h.pending_eq_none hrun (endOfRun_refuse hq)) q hq

/-! A refused step of a run is the CPU's (R374). -/

theorem loopStep_refused {s : State} {q : Refusal} (h : DeviceLegal s) (hrun : s.running = true)
    (hq : loopStep s = .refused q) : cpuStep s = .refused q := by
  unfold loopStep at hq
  split at hq
  · exact absurd (Res.outcome_eq_refused.1 hq) (endOfRun_ne_refuse h hrun q)
  split at hq
  next => cases hq
  next => cases hq
  next r hr => exact hr.trans (by rw [Host.Outcome.refused.inj hq])

theorem devMove_refused {d : Dev} {s : State} {q : Refusal} (h : DeviceLegal s) (hrun : s.running = true)
    (hq : devMove d s = .refused q) : cpuStep s = .refused q := by
  unfold devMove at hq
  split at hq
  next hp => exact absurd (Res.outcome_eq_refused.1 hq) (devFinish_ne_refuse h hrun hp q)
  split at hq
  · cases hq
  · exact loopStep_refused h hrun hq

theorem runStep_refused {s : State} {q : Refusal} (h : DeviceLegal s.drawTurn.2) (hrun : s.drawTurn.2.running = true)
    (hq : runStep s = .refused q) : cpuStep s.drawTurn.2 = .refused q := by
  unfold runStep at hq
  split at hq
  next s1 hd =>
    rw [hd] at h hrun ⊢
    exact loopStep_refused h hrun hq
  next s1 hd =>
    rw [hd] at h hrun ⊢
    exact devMove_refused h hrun hq
  next s1 hd =>
    rw [hd] at h hrun ⊢
    exact devMove_refused h hrun hq

/-- Settles O50: a refused step is a refused CPU step of a legal engine, in a run too. -/
theorem invariantRulesOutEngineRefusals : Obligations.InvariantRulesOutEngineRefusals := by
  intro s q hi h
  suffices hcpu : NotScratchRefusal q ∧ (s.cycle ≠ 0#4 → s.cycle ≠ 1#4 → AccessRefusal q) from
    and_assoc.1 hcpu
  unfold step machineStep at h
  split at h
  next hrun =>
    obtain ⟨-, he, hd⟩ := drawTurn_inv hi
    have hcpu := runStep_refused hd ((congrArg State.running s.drawTurn_rest).trans hrun) h
    rw [← cycle_drawTurn s]
    exact cpuStep_refused he hcpu
  next =>
    obtain ⟨-, he, -⟩ := hi
    exact cpuStep_refused he h

end Sys2Proof.Machine

namespace Sys2Proof.Machine

open Reference

/-! The FETCH of a memory-reference instruction that completes there (R142, R144): on a direct in-file address the
effect runs on the latched state. -/

/-- An in-file write but the PSW's reaches its slot (R146). -/
theorem State.localWrite_inFile (s : State) {a : Addr} (hin : a.toNat ≤ 15) (h7 : a.toNat ≠ 7) (v : Word) :
    s.localWrite a v = .ok (s.setX (a.setWidth 4) v) :=
  State.localWrite_of_storePlace (if_pos hin) (by simpa using slot_ne_psw hin h7) v

/-- What an MRI's effect leaves is what its FETCH leaves, once only LK, TMP and ACC of the PSW are set. -/
theorem exec_direct_of_effect {ins : Instr} {op acc : BitVec 3} {z : Bool} {off : BitVec 8} {s u : State} {lk : Bool}
    (hins : mriFields ins = some (op, acc, false, z, off)) (hin : (address s.pc z off).toNat ≤ 15)
    (heff : effect op acc (address s.pc z off) (s.latch op acc) = .ok u) (hpsw : u.psw = mriDone lk op acc) :
    exec ins s = .next u := by
  rw [exec_of_mriFields hins, fetchMri_direct op acc z off s hin, heff, endFetch_ok, State.selectCycle_done hpsw]

/-- The operand read in-file after the latch is the one the state before it shows (R33(a), R146). -/
theorem Fetched.localRead_latch {s : State} (hs : Fetched s) (op acc : BitVec 3) {a : Addr} (hin : a.toNat ≤ 15) :
    ∃ s1, (s.latch op acc).localRead a = .ok ((s.readSlot (a.setWidth 4)).1, s1) ∧
      s1.psw = mriDone s.lk op acc ∧ (∀ i, i ≠ 7#4 → s1.x i = s.x i) ∧ Frame [.slot 7#4] s s1 := by
  have hread : (s.latch op acc).localRead a =
      .ok ((s.readSlot (a.setWidth 4)).1, ((s.latch op acc).readSlot (a.setWidth 4)).2) := by
    rw [State.localRead_inFile _ (inFile_of_le hin),
      ← State.readSlot_congr (a.setWidth 4) (s.x_latch op acc _) (s.lk_latch op acc) rfl]
  obtain ⟨hpsw, hx, hframe⟩ := State.localRead_leaves hread
  exact ⟨_, hread, hpsw.trans (hs.psw_latch op acc), fun i hi => (hx i).trans (s.x_latch op acc i hi),
    ((s.latch_frame op acc).trans hframe).mono (by simp)⟩

/-- Settles O11: the operand is read, then AC written. -/
theorem andDirectInFile : Obligations.AndDirectInFile := by
  intro s acc z off hs hacc hin
  obtain ⟨s1, hread, hpsw1, hx1, hframe1⟩ := hs.localRead_latch 0#3 acc hin
  have hac : s1.ac acc = s.ac acc := hx1 _ (acSlot_ne_psw acc hacc)
  have hpsw (w : Word) : (s1.setAc acc w).psw = mriDone s.lk 0#3 acc := (State.psw_setAc _ _ _ hacc).trans hpsw1
  refine ⟨_, exec_direct_of_effect rfl hin (effect_and hacc hread) (hpsw _), ?_, hpsw _, ?_⟩
  · rw [State.ac_setAc, if_pos rfl, hac]
  · exact (hframe1.mono (by simp)).then_setX _ _ (by simp)

/-- Settles O12: the operand is read, then AC and LK written. -/
theorem tadDirectInFile : Obligations.TadDirectInFile := by
  intro s acc z off hs hacc hin v
  obtain ⟨s1, hread, hpsw1, hx1, hframe1⟩ := hs.localRead_latch 1#3 acc hin
  have hac : s1.ac acc = s.ac acc := hx1 _ (acSlot_ne_psw acc hacc)
  have hlk : carryLk s1.lk (addCarry (s1.ac acc) v).2 =
      if 65536 ≤ (s.ac acc).toNat + v.toNat then !s.lk else s.lk := by
    obtain ⟨hlk1, -⟩ := State.fields_of_psw hpsw1
    simp only [carryLk, hlk1, addCarry_snd, hac, decide_eq_true_eq]
  have hpsw := State.psw_setLk ((State.psw_setAc s1 acc (addCarry (s1.ac acc) v).1 hacc).trans hpsw1)
    (carryLk s1.lk (addCarry (s1.ac acc) v).2)
  refine ⟨_, exec_direct_of_effect rfl hin (effect_tad hacc hread) hpsw, ?_, hlk ▸ hpsw, ?_⟩
  · rw [State.ac_setLk _ _ _ hacc, State.ac_setAc, if_pos rfl, addCarry_fst, hac]
  · exact ((hframe1.mono (by simp)).then_setX _ _ (by simp)).then_setPsw _ (by simp)

/-- Settles O13: the slot is counted up, and the skip reads PC after that. -/
theorem iszDirectInFile : Obligations.IszDirectInFile := by
  intro s z off hs hin h7 i v
  let u := (s.latch 2#3 7#3).setX i v
  have hi : i ≠ 7#4 := slot_ne_psw hin h7
  have heff : effect 2#3 7#3 (address s.pc z off) (s.latch 2#3 7#3) = .ok (if v = 0#16 then u.skip else u) := by
    rw [effect_isz_inFile hin h7, s.x_latch 2#3 7#3 i hi]
  have hpsw : (if v = 0#16 then u.skip else u).psw = mriDone s.lk 2#3 7#3 :=
    (State.psw_ite_skip _ u).trans ((State.psw_setX _ i v hi).trans (hs.psw_latch 2#3 7#3))
  refine ⟨_, exec_direct_of_effect rfl hin heff hpsw, fun h15 => ⟨?_, ?_⟩, fun h15 => ?_, hpsw, ?_⟩
  · rw [State.x_ite_skip _ _ h15, State.x_setX_same]
  · rw [State.pc_ite_skip, State.pc, State.x_setX_ne _ _ _ _ h15, ← State.pc, State.pc_latch]
  · rw [State.pc_ite_skip, State.pc, ← h15, State.x_setX_same]
  · exact (((s.latch_frame 2#3 7#3).mono (by simp)).then_setX i v (by simp)).then_ite_skip _ (by simp)

/-- Settles O14: AC is kept in the slot, and DCA clears it after that. -/
theorem staDcaDirectInFile : Obligations.StaDcaDirectInFile := by
  intro s acc z off hs hacc hin h7 i
  let u (op : BitVec 3) := (s.latch op acc).setX i (s.ac acc)
  have hwrite (op : BitVec 3) :
      (s.latch op acc).localWrite (address s.pc z off) ((s.latch op acc).ac acc) = .ok (u op) := by
    rw [State.localWrite_inFile _ hin h7, s.ac_latch op acc acc hacc]
  have hpsw (op : BitVec 3) : (u op).psw = mriDone s.lk op acc :=
    (State.psw_setX _ i _ (slot_ne_psw hin h7)).trans (hs.psw_latch op acc)
  have hframe (op : BitVec 3) (ls : List Loc) : Frame (.slot i :: ls ++ [.slot 7#4]) s (u op) :=
    ((s.latch_frame op acc).mono (by simp)).then_setX i _ (by simp)
  have hclear : ((u 3#3).setAc acc 0#16).psw = mriDone s.lk 3#3 acc :=
    (State.psw_setAc _ _ _ hacc).trans (hpsw 3#3)
  refine ⟨⟨_, exec_direct_of_effect rfl hin (effect_sta hacc (hwrite 2#3)) (hpsw 2#3), ?_, hpsw 2#3,
      hframe 2#3 []⟩,
    ⟨_, exec_direct_of_effect rfl hin (effect_dca hacc (hwrite 3#3)) hclear, ?_, fun hne => ?_, hclear, ?_⟩⟩
  · exact State.x_setX_same _ _ _
  · rw [State.ac_setAc, if_pos rfl]
  · rw [State.setAc, State.x_setX_ne _ _ _ _ hne.symm, State.x_setX_same]
  · exact (hframe 3#3 [.slot (acSlot acc)]).then_setX _ _ (by simp)

/-- Settles O15: JMS keeps PC in the slot before it loads PC, so that slot 15 ends with the jump's address. -/
theorem jmsJmpDirectInFile : Obligations.JmsJmpDirectInFile := by
  intro s z off hs hin a i
  refine ⟨fun h7 => ?_, ?_⟩
  · let u := (s.latch 4#3 7#3).setX i s.pc
    have hwrite : (s.latch 4#3 7#3).localWrite a (s.latch 4#3 7#3).pc = .ok u := by
      rw [State.localWrite_inFile _ hin h7, State.pc_latch]
    have hpsw : (u.setPc (a.setWidth 16 + 1#16)).psw = mriDone s.lk 4#3 7#3 :=
      (State.psw_setPc _ _).trans ((State.psw_setX _ i _ (slot_ne_psw hin h7)).trans (hs.psw_latch 4#3 7#3))
    refine ⟨_, exec_direct_of_effect rfl hin (effect_jms hwrite) hpsw, State.pc_setPc _ _, fun h15 => ?_, hpsw, ?_⟩
    · rw [State.setPc, State.x_setX_ne _ _ _ _ (Ne.symm h15), State.x_setX_same]
    · exact (((s.latch_frame 4#3 7#3).mono (by simp)).then_setX i _ (by simp)).then_setX _ _ (by simp)
  · have hpsw : ((s.latch 5#3 7#3).setPc (a.setWidth 16)).psw = mriDone s.lk 5#3 7#3 :=
      (State.psw_setPc _ _).trans (hs.psw_latch 5#3 7#3)
    exact ⟨_, exec_direct_of_effect rfl hin (effect_jmp a _) hpsw, State.pc_setPc _ _, hpsw,
      ((s.latch_frame 5#3 7#3).mono (by simp)).then_setX _ _ (by simp)⟩

end Sys2Proof.Machine

namespace Sys2Proof.Machine

open Reference

/-! A direct out-of-file ISZ from FETCH to FETCH (R183, R387): FETCH, EXECUTE and WRITEBACK, one step each. -/

/-- A run goes on from the state its first step leaves. -/
theorem core_run_succ {s t : State} (h : step s = .next t) (k : Nat) :
    Sys2Proof.core.run (k + 1) s = Sys2Proof.core.run k t := by
  simp only [Host.Core.run, show Sys2Proof.core.step s = .next t from h]

/-- A fetch leaves the state with the PSW cleared and PC counted up (R142). -/
theorem State.fetch_eq_ok {s s1 : State} {w : Word} (h : s.fetch = .ok (w, s1)) : ∃ n, s1 = s.afterFetch n := by
  obtain ⟨⟨w', s0⟩, hread, hs1⟩ := Res.bind_eq_ok.1 h
  obtain ⟨n, rfl⟩ := State.busRead_state hread
  cases hs1
  refine ⟨n, ?_⟩
  rw [State.afterFetch, ← s.pc_clearPsw]
  rfl

/-- No place shows the latches, so a frame between two states is one between them with other latches. -/
theorem Frame.with_latches {s t : State} {touched : List Loc} (h : Frame touched s t) (a : Addr) (v : Word) :
    Frame touched { s with ea := a, wb := v } { t with ea := a, wb := v } := by
  have hpeek (u : State) (l : Loc) : ({ u with ea := a, wb := v } : State).peek l = u.peek l := by cases l <;> rfl
  refine ⟨fun l hl => by rw [hpeek, hpeek, h.1 l hl], ?_⟩
  exact congrArg (fun u : State => { u with ea := a, wb := v }) h.2

/-- Frames up to the latches follow one another. -/
theorem Frame.trans_latches {a b c : List Loc} {s t u : State} {e e' : Addr} {v v' : Word}
    (h : Frame a s { t with ea := e, wb := v }) (g : Frame b t { u with ea := e', wb := v' })
    (hs : ∀ l, l ∈ a ++ b → l ∈ c) : Frame c s { u with ea := e, wb := v } :=
  (h.trans (g.with_latches e v)).mono hs

section OutsideLatches

/-! What a frame up to the latches says of a slot or place it does not list, of the run and of the bus. -/

variable {s t : State} {touched : List Loc} {a : Addr} {v : Word} (h : Frame touched s { t with ea := a, wb := v })

include h

theorem Frame.peek_eq {l : Loc} (hl : l ∉ touched) : t.peek l = s.peek l := by
  rw [← h.1 l hl]
  cases l <;> rfl

theorem Frame.pc_eq (h15 : .slot 15#4 ∉ touched) : t.pc = s.pc := Option.some.inj (h.peek_eq h15)

theorem Frame.running_eq : t.running = s.running := (congrArg State.running h.2 :)

theorem Frame.locate_eq (b : Addr) : t.locate b = s.locate b := by
  have hpages : t.pages = s.pages := (congrArg State.pages h.2 :)
  simp only [State.locate, State.unitAt, hpages]

end OutsideLatches

theorem word_wraps_iff (v : Word) : v + 1#16 = 0#16 ↔ v = 0xFFFF#16 := by bv_omega

/-- FETCH of a direct out-of-file ISZ: EA holds the address, PC is past the instruction and EXECUTE is next (R142). -/
theorem step_fetch_isz {s s1 : State} {w : Word} {z : Bool} {off : BitVec 8} (hrun : s.running = false)
    (hc : s.cycle = 0#4 ∨ s.cycle = 1#4) (hfetch : s.fetch = .ok (w, s1)) (hdec : decode w = .isz false z off)
    (hout : 15 < (address s1.pc z off).toNat) :
    ∃ t, step s = .next t ∧ t.ea = address s1.pc z off ∧ t.pc = s.pc + 1#16 ∧
      t.psw = packPsw s.lk false false true false 3#4 2#4 7#3 ∧
      Frame [.slot 15#4, .slot 7#4] s { t with ea := s.ea, wb := s.wb } := by
  obtain ⟨n, rfl⟩ := State.fetch_eq_ok hfetch
  obtain ⟨hpc0, hlk0, hs0, hframe0⟩ := s.afterFetch_ends n
  obtain ⟨t, hexec, hea, hpsw, hframe⟩ :=
    mriDirectOutOfFilePends (s.afterFetch n) (.isz false z off) _ _ z off rfl hs0 hout
  refine ⟨t, ?_, hea, (hframe.pc_eq (by simp)).trans hpc0, hlk0 ▸ hpsw,
    (hframe0.with_latches s.ea s.wb).trans_latches hframe (by simp)⟩
  rw [step_of_idle hrun, cpuStep_of_fetch hc hfetch, hdec, hexec]

/-- EXECUTE of ISZ on a word of an array: WB holds the word counted up, the skip is decided and WRITEBACK is next
(R149, R183). -/
theorem step_execute_isz {s : State} {v : Word} {l : Loc} {lk : Bool} (hrun : s.running = false)
    (hpsw : s.psw = packPsw lk false false true false 3#4 2#4 7#3) (hout : 15 < s.ea.toNat)
    (hloc : s.locate s.ea = some l) (h7 : l ≠ .slot 7#4) (hv : s.peek l = some v) :
    ∃ t, step s = .next t ∧ t.ea = s.ea ∧ t.wb = v + 1#16 ∧
      t.pc = (if v = 0xFFFF#16 then s.pc + 1#16 else s.pc) ∧ t.lk = lk ∧ t.cycle = 9#4 ∧
      Frame [.slot 15#4, .slot 7#4] s { t with wb := s.wb } := by
  obtain ⟨hlk, -, -, -, -, hc, htmp, hacc⟩ := State.fields_of_psw hpsw
  have hread : s.localRead s.ea = .ok (v, s) := by
    rw [State.localRead_outOfFile s hout, State.busRead_bound hloc, State.readLoc_of_peek h7 hv]
  obtain ⟨hexecute, -⟩ := executeIsz s hc htmp hacc
  obtain ⟨t, hcpu, hwb, hpc, htpsw, hframe⟩ := hexecute v s hout hread
  obtain ⟨htlk, -, -, -, -, htc, -, -⟩ := State.fields_of_psw htpsw
  exact ⟨t, (step_of_idle hrun).trans hcpu, (congrArg State.ea hframe.2 :), hwb,
    hpc.trans (if_congr (word_wraps_iff v) rfl rfl), htlk.trans hlk, htc, hframe⟩

/-- Settles O28: FETCH latches the address, EXECUTE counts the word up and decides the skip, WRITEBACK stores. -/
theorem iszOutOfFileThreeSteps : Obligations.IszOutOfFileThreeSteps := by
  intro s s1 w v z off l hrun hc hfetch hdec hout hloc hslot hv
  have h7 : l ≠ .slot 7#4 := hslot _
  have h15 : l ≠ .slot 15#4 := hslot _
  obtain ⟨t1, hstep1, hea1, hpc1, hpsw1, hframe1⟩ := step_fetch_isz hrun hc hfetch hdec hout
  have hloc1 : t1.locate t1.ea = some l := by rw [hframe1.locate_eq, hea1, hloc]
  have hv1 : t1.peek l = some v := (hframe1.peek_eq (by simp [h7, h15])).trans hv
  obtain ⟨t2, hstep2, hea2, hwb2, hpc2, hlk2, hc2, hframe2⟩ :=
    step_execute_isz (hframe1.running_eq.trans hrun) hpsw1 (hea1 ▸ hout) hloc1 h7 hv1
  have hto2 : Frame [.slot 15#4, .slot 7#4] s { t2 with ea := s.ea, wb := s.wb } :=
    hframe1.trans_latches hframe2 (by simp)
  have hplace2 : storePlace t2 t2.ea = some l := by
    rw [storePlace, hea2, hea1, if_neg (Nat.not_le_of_lt hout), hto2.locate_eq, hloc]
  obtain ⟨t, hcpu3, hpeek, hpsw, hframe3⟩ := writebackStores t2 l hc2 hplace2 h7
  obtain ⟨hlk, -, -, -, -, hcycle, -, -⟩ := State.fields_of_psw hpsw
  have hstep3 : step t2 = .next t := (step_of_idle (hto2.running_eq.trans hrun)).trans hcpu3
  refine ⟨t, ?_, hwb2 ▸ hpeek, ?_, hlk.trans hlk2, hcycle, hto2.trans_latches hframe3 (by simp)⟩
  · rw [core_run_succ hstep1, core_run_succ hstep2, core_run_succ hstep3]
    rfl
  · have hpc : t.pc = t2.pc := hframe3.pc_eq (by simp [h15.symm])
    rw [hpc, hpc2, hpc1, BitVec.add_assoc]
    rfl

end Sys2Proof.Machine

namespace Sys2Proof.Machine

open Reference

/-! IOT in FETCH: the attention call on a bound and on an unbound unit (R66, R220-R222). -/

/-- Setting IO sets that field of the PSW alone (R24). -/
theorem State.psw_setIo {s : State} {lk op io ex id : Bool} {cycle tmp : BitVec 4} {acc : BitVec 3}
    (h : s.psw = packPsw lk op io ex id cycle tmp acc) (b : Bool) :
    (s.setIo b).psw = packPsw lk op b ex id cycle tmp acc := by
  obtain ⟨hlk, hop, -, hex, hid, hcycle, htmp, hacc⟩ := State.fields_of_psw h
  apply State.psw_of_fields <;> simp [*]

theorem iotIssue_bound {unit : BitVec 6} {s : State} (h : s.attns[unit.toNat]? = some (some .terminal))
    (fn : BitVec 3) : iotIssue unit fn s =
      { s.setIo true with mailbox := { unit := unit.setWidth 8, cmd := fn.setWidth 16 } } := by
  simp [iotIssue, State.attn, State.setIo, State.setPsw, h]

theorem iotIssue_unbound {unit : BitVec 6} {s : State} (h : s.attns[unit.toNat]? = some none) (fn : BitVec 3) :
    iotIssue unit fn s = (s.setIo true).setIo false := by
  simp [iotIssue, State.attn, State.setIo, State.setPsw, h]

/-- With IO set and neither ID nor EX the next cycle state is IO-WAIT, whatever is in the mailbox (R147). -/
theorem State.selectCycle_posted {s : State} {lk : Bool} {tmp : BitVec 4} {acc : BitVec 3}
    (h : s.psw = packPsw lk false true false false 0#4 tmp acc) (m : Mailbox) :
    ({ s with mailbox := m } : State).selectCycle = { s.setCycle 4#4 with mailbox := m } := by
  obtain ⟨-, -, hio, hex, hid, hcycle, -, -⟩ := State.fields_of_psw h
  rw [State.selectCycle_eq, State.cycle_with_mailbox, hcycle, if_neg (by decide), State.nextAfterFetch,
    State.id_with_mailbox, State.ex_with_mailbox, State.io_with_mailbox, hid, hex, hio]
  rfl

/-- Settles O30: the unit posts to the mailbox with IO set, so IO-WAIT is next. -/
theorem iotPostsAndWaits : Obligations.IotPostsAndWaits := by
  intro s acc unit fn hs _ hattn
  have hpsw : ((s.latch 6#3 acc).setIo true).psw = packPsw s.lk false true false false 0#4 6#4 acc :=
    State.psw_setIo (hs.psw_latch 6#3 acc) true
  have hframe : Frame [.slot 7#4] s (((s.latch 6#3 acc).setIo true).setCycle 4#4) :=
    ((s.latch_frame 6#3 acc).then_setPsw _ (by simp)).then_setPsw _ (by simp)
  refine ⟨{ ((s.latch 6#3 acc).setIo true).setCycle 4#4 with
    mailbox := { unit := unit.setWidth 8, cmd := fn.setWidth 16 } }, ?_, rfl, State.psw_setCycle hpsw 4#4, hframe⟩
  rw [exec, execIot, iotIssue_bound (s := s.latch 6#3 acc) hattn, endFetch_ok, State.selectCycle_posted hpsw]

/-- Settles O31: IO is set and cleared again, so the scratch fields are those of a FETCH that is done. -/
theorem iotUnboundCompletes : Obligations.IotUnboundCompletes := by
  intro s acc unit fn hs _ hattn
  have hpsw : (((s.latch 6#3 acc).setIo true).setIo false).psw = packPsw s.lk false false false false 0#4 6#4 acc :=
    State.psw_setIo (State.psw_setIo (hs.psw_latch 6#3 acc) true) false
  refine ⟨_, ?_, hpsw, ((s.latch_frame 6#3 acc).then_setPsw _ (by simp)).then_setPsw _ (by simp)⟩
  rw [exec, execIot, iotIssue_unbound (s := s.latch 6#3 acc) hattn, endFetch_ok, State.selectCycle_done hpsw]

/-! A device's turn in a run (R225, R226, R374). -/

theorem step_of_deviceTurn {s : State} {d : Dev} (hrun : s.running = true) (hturn : s.drawTurn.1 = turnOf d) :
    step s = devMove d s.drawTurn.2 := by
  rw [step, machineStep, if_pos hrun, runStep]
  generalize s.drawTurn = r at hturn ⊢
  obtain ⟨turn, s1⟩ := r
  cases hturn
  cases d <;> rfl

theorem agent_drawTurn (s : State) (d : Dev) : s.drawTurn.2.agent d = s.agent d :=
  (congrArg (State.agent · d) s.drawTurn_rest :)

theorem mailbox_drawTurn (s : State) : s.drawTurn.2.mailbox = s.mailbox :=
  (congrArg State.mailbox s.drawTurn_rest :)

theorem State.canPerform_iff (s : State) (d : Dev) :
    s.canPerform d = true ↔ (s.agent d).running = true ∧ (s.agent d).pending ≠ none := by
  simp [State.canPerform]

theorem State.canClaim_iff (s : State) (d : Dev) :
    s.canClaim d = true ↔ (s.agent d).running = true ∧ (s.agent d).pending = none ∧ s.mailbox.cmd ≠ 0xFFFF#16 ∧
      s.mailbox.unit = (s.agent d).unit := by
  simp [State.canClaim, State.mailFull, Config.mailboxEmpty, and_assoc]

theorem devMove_performs {s : State} {d : Dev} {c : Word} (hr : (s.agent d).running = true)
    (hp : (s.agent d).pending = some c) : devMove d s = (devPerform d c s).outcome s := by
  have hcan : s.canPerform d = true := (s.canPerform_iff d).2 ⟨hr, by simp [hp]⟩
  rw [devMove, if_pos hcan, devFinish, hp]

theorem devMove_claims {s : State} {d : Dev} (hr : (s.agent d).running = true) (hp : (s.agent d).pending = none)
    (hfull : s.mailbox.cmd ≠ 0xFFFF#16) (hunit : s.mailbox.unit = (s.agent d).unit) :
    devMove d s = .next (devClaim d s) := by
  have hcannot : ¬ s.canPerform d = true := fun h => ((s.canPerform_iff d).1 h).2 hp
  rw [devMove, if_neg hcannot, if_pos ((s.canClaim_iff d).2 ⟨hr, hp, hfull, hunit⟩)]

/-- A poll that finds nothing is no step, and the loop moves (R225; log 10). -/
theorem devMove_of_not_enabled {s : State} {d : Dev} (h : ¬ DeviceEnabled d s) : devMove d s = loopStep s := by
  have hperform : ¬ s.canPerform d = true := fun hp =>
    let ⟨hr, hpending⟩ := (s.canPerform_iff d).1 hp
    h ⟨hr, .inl hpending⟩
  have hclaim : ¬ s.canClaim d = true := fun hc =>
    let ⟨hr, _, hmail⟩ := (s.canClaim_iff d).1 hc
    h ⟨hr, .inr hmail⟩
  rw [devMove, if_neg hperform, if_neg hclaim]

/-- The claim step writes this agent's pending command and empties the mailbox (R225). -/
theorem devClaim_ends (d : Dev) (s : State) :
    (devClaim d s).agent d = { s.agent d with pending := some s.mailbox.cmd } ∧
      (devClaim d s).mailbox = { s.mailbox with cmd := 0xFFFF#16 } ∧
      { (devClaim d s).setAgent d (s.agent d) with mailbox := s.mailbox } = s := by
  cases d <;> exact ⟨rfl, rfl, rfl⟩

/-- Settles O33: by what the agent has claimed and what the mailbox holds, on the state the draw leaves. -/
theorem agentTurnPerformsOrClaims : Obligations.AgentTurnPerformsOrClaims := by
  intro s d hrun hturn s1
  have hmail : s1.mailbox = s.mailbox := mailbox_drawTurn s
  rw [step_of_deviceTurn hrun hturn, ← agent_drawTurn s d, ← hmail]
  refine ⟨fun c => devMove_performs, fun hr hp hfull hunit => ?_, fun hr => ?_, fun hp hnone => ?_⟩
  · obtain ⟨hagent, hempty, hrest⟩ := devClaim_ends d s1
    exact ⟨devClaim d s1, devMove_claims hr hp hfull hunit, hagent, hempty, hrest.symm ▸ Frame.refl [] s1⟩
  · exact devMove_of_not_enabled fun ⟨hr', _⟩ => by simp [hr] at hr'
  · refine devMove_of_not_enabled ?_
    rintro ⟨-, hp' | ⟨hfull, hunit⟩⟩
    · exact hp' hp
    · exact hnone.elim hfull fun hne => hne hunit

/-! The perform step after its action: IO is cleared and nothing is pending (R226). -/

/-- `DevPerform` after the action, which has left `s` (R226). -/
def State.performed (s : State) (d : Dev) : State :=
  (s.setIo false).setAgent d { (s.setIo false).agent d with pending := none }

theorem devPerform_of_action {d : Dev} {c : Word} {s u : State} (h : action d c s.acc s = .ok u) :
    devPerform d c s = .ok (u.performed d) := by
  rw [devPerform, h]
  rfl

@[simp] theorem State.out_performed (s : State) (d : Dev) : (s.performed d).out = s.out := by cases d <;> rfl

@[simp] theorem State.answers_performed (s : State) (d : Dev) : (s.performed d).answers = s.answers := by
  cases d <;> rfl

theorem State.x_performed (s : State) (d : Dev) {i : BitVec 4} (h : i ≠ 7#4) : (s.performed d).x i = s.x i := by
  cases d <;> exact s.x_setIo false i h

theorem State.setAgent_performed (s : State) (d : Dev) : (s.performed d).setAgent d (s.agent d) = s.setIo false := by
  cases d <;> rfl

/-- An action that goes through ends the perform step as R226 says, so only its own frame is left to show. -/
theorem performEnds_of_action {d : Dev} {c : Word} {s u : State} {touched : List Loc}
    (h : action d c s.acc s = .ok u) (hframe : Frame touched s { u with out := s.out, answers := s.answers }) :
    PerformEnds d s (devPerform d c s) touched (u.performed d) := by
  have hok := devPerform_of_action h
  obtain ⟨-, hpsw, hagent, -⟩ := devPerform_ok hok
  have hsame : u.agent d = s.agent d := (congrArg (State.agent · d) hframe.2 :)
  refine ⟨hok, hpsw, hagent, ?_⟩
  rw [← hsame, State.setAgent_performed]
  exact (hframe.mono fun l hl => List.mem_cons_of_mem _ hl).then_setPsw _ List.mem_cons_self

/-! The actions (R227-R231). -/

theorem action_out {acc : BitVec 3} (hacc : acc ≠ 7#3) (s : State) :
    action .output 4#16 acc s = .ok { s with out := s.out ++ [(s.ac acc).setWidth 8] } := by
  simp [action, Config.fOut, actionOutput, hacc]

theorem action_out_unknown {c : Word} (h : c ≠ 4#16) (acc : BitVec 3) (s : State) :
    action .output c acc s = .ok s := by
  simp [action, Config.fOut, h]

theorem action_skip (acc : BitVec 3) (s : State) : action .input s.params.fSkip acc s =
    .ok (if s.drawAnswer.1.isSome then s.drawAnswer.2.skip else s.drawAnswer.2) := by
  simp [action, actionSkip]

theorem action_read {acc : BitVec 3} {s : State} (hacc : acc ≠ 7#3) (h : s.params.fRead ≠ s.params.fSkip) :
    action .input s.params.fRead acc s =
      .ok (s.drawAnswer.2.setAc acc ((s.drawAnswer.1.getD 0#8).setWidth 16)) := by
  simp [action, actionRead, h, hacc]

theorem action_in_unknown {c : Word} {s : State} (hskip : c ≠ s.params.fSkip) (hread : c ≠ s.params.fRead)
    (acc : BitVec 3) : action .input c acc s = .ok s := by
  simp [action, hskip, hread]

/-- A poll of the console uses up an answer, or draws a free one (R231; log 9). -/
theorem State.drawAnswer_state (s : State) : ∃ n rest, s.drawAnswer.2 = { s with draws := n, answers := rest } := by
  unfold State.drawAnswer
  split
  · exact ⟨s.draws, _, rfl⟩
  · exact ⟨s.draws + 1, s.answers, rfl⟩

/-- Settles O34: the action appends the byte and writes nothing else. -/
theorem outputCommandEmitsByte : Obligations.OutputCommandEmitsByte := by
  intro s hacc
  have hbyte : (s.ac s.acc).setWidth 8 = BitVec.ofNat 8 ((s.ac s.acc).toNat % 256) :=
    BitVec.eq_of_toNat_eq (by simp)
  refine ⟨_, performEnds_of_action (action_out hacc s) (Frame.refl [] s), ?_, State.answers_performed _ _⟩
  rw [State.out_performed, hbyte]

/-- Settles O35: the console's answer decides whether PC counts up. -/
theorem skipCommandSkipsWhenReady : Obligations.SkipCommandSkipsWhenReady := by
  intro s
  obtain ⟨n, rest, hdraw⟩ := s.drawAnswer_state
  have hframe := (Frame.draws s n).mono (b := [.slot 15#4]) (by simp)
  refine ⟨_, performEnds_of_action (action_skip s.acc s) ?_, ?_, ?_⟩
  · rw [hdraw]
    split
    · exact hframe.then_setX 15#4 _ (by simp)
    · exact hframe
  · rw [State.pc, State.x_performed _ _ (by decide), ← State.pc, State.pc_ite_skip, hdraw]
    rfl
  · rw [State.out_performed, hdraw]
    split <;> rfl

/-- Settles O36: AC gets the console's byte, or 0 where it has none. -/
theorem readCommandLoadsByteOrZero : Obligations.ReadCommandLoadsByteOrZero := by
  intro s hacc hne
  obtain ⟨n, rest, hdraw⟩ := s.drawAnswer_state
  have hframe := (Frame.draws s n).mono (b := [.slot (acSlot s.acc)]) (by simp)
  have hac (u : State) (v : Word) : ((u.setAc s.acc v).performed .input).ac s.acc = v :=
    (State.x_performed _ _ (acSlot_ne_psw _ hacc)).trans (u.x_setX_same _ v)
  refine ⟨_, performEnds_of_action (action_read hacc hne) ?_, fun b hb => ?_, fun hnone => ?_, ?_⟩
  · rw [hdraw]
    exact hframe.then_setX _ _ (by simp)
  · rw [hac, hb]
    rfl
  · rw [hac, hnone]
    rfl
  · rw [State.out_performed, hdraw]
    rfl

theorem performEnds_of_no_action {d : Dev} {c : Word} {s : State} (h : action d c s.acc s = .ok s) :
    ∃ t, PerformEnds d s (devPerform d c s) [] t ∧ t.out = s.out ∧ t.answers = s.answers :=
  ⟨_, performEnds_of_action h (Frame.refl [] s), s.out_performed d, s.answers_performed d⟩

/-- Settles O37: the action is none, so the perform step only clears. -/
theorem unknownCommandOnlyClearsIo : Obligations.UnknownCommandOnlyClearsIo := fun s _ =>
  ⟨fun hc => performEnds_of_no_action (action_out_unknown hc s.acc s),
    fun hskip hread => performEnds_of_no_action (action_in_unknown hskip hread s.acc)⟩

end Sys2Proof.Machine

namespace Sys2Proof.Machine

open Reference

/-! An OPR between its latch and the end of its FETCH (R142, R260). -/

/-- The operations of an OPR on accumulator `d`, begun in `s`, have come to `u`: AC is `v`, LK `l` and PC `pc`, the rest
of the PSW is as the latch and OP left it, and nothing else has changed. -/
structure OprReaches (d : BitVec 3) (s u : State) (v : Word) (l : Bool) (pc : Word) : Prop where
  ac : u.ac d = v
  pc : u.pc = pc
  psw : u.psw = packPsw l true false false false 0#4 7#4 d
  frame : Frame [.slot (acSlot d), .slot 15#4, .slot 7#4] s u

theorem State.ac_oprStart (s : State) (acc : BitVec 3) {d : BitVec 3} (hd : d ≠ 7#3) :
    (s.oprStart acc).ac d = s.ac d :=
  (State.ac_setOp _ _ _ hd).trans (s.ac_latch 7#3 acc d hd)

theorem Fetched.psw_oprStart {s : State} (hs : Fetched s) (acc : BitVec 3) :
    (s.oprStart acc).psw = packPsw s.lk true false false false 0#4 7#4 acc := by
  obtain ⟨hlk, -, hio, hex, hid, hcycle, htmp, hacc⟩ := State.fields_of_psw (hs.psw_latch 7#3 acc)
  apply State.psw_of_fields <;> simp [*]

theorem State.oprStart_frame (s : State) (acc : BitVec 3) : Frame [.slot 7#4] s (s.oprStart acc) :=
  (s.latch_frame 7#3 acc).then_setPsw _ (by simp)

theorem Fetched.oprStart_reaches {s : State} (hs : Fetched s) {d : BitVec 3} (hd : d ≠ 7#3) :
    OprReaches d s (s.oprStart d) (s.ac d) s.lk s.pc where
  ac := s.ac_oprStart d hd
  pc := by simp
  psw := hs.psw_oprStart d
  frame := (s.oprStart_frame d).mono (by simp)

/-- FETCH's last line leaves such a state as it is: CYCLE 15 stays, and with ID, EX and IO clear 0 is chosen (R147). -/
theorem State.selectCycle_opr {u : State} {l op : Bool} {cycle tmp : BitVec 4} {acc : BitVec 3}
    (h : u.psw = packPsw l op false false false cycle tmp acc) (hc : cycle = 0#4 ∨ cycle = 15#4) :
    u.selectCycle = u := by
  obtain ⟨-, -, hio, hex, hid, hcycle, -, -⟩ := State.fields_of_psw h
  have hnext : (if u.cycle = 15#4 then 15#4 else u.nextAfterFetch) = cycle := by
    rw [State.nextAfterFetch, hid, hex, hio, hcycle]
    obtain rfl | rfl := hc <;> rfl
  rw [State.selectCycle_eq, hnext]
  exact State.eq_of_psw (fun i hi => State.x_setCycle _ _ _ hi) ((State.psw_setCycle h _).trans h.symm) rfl

namespace OprReaches

variable {d : BitVec 3} {s u : State} {v : Word} {l : Bool} {pc : Word}

theorem lk (h : OprReaches d s u v l pc) : u.lk = l := (State.fields_of_psw h.psw).1

theorem params_eq (h : OprReaches d s u v l pc) : u.params = s.params := (congrArg State.params h.frame.2 :)

theorem sr_eq (h : OprReaches d s u v l pc) : u.sr = s.sr := (congrArg State.sr h.frame.2 :)

theorem setAc (hd : d ≠ 7#3) (h : OprReaches d s u v l pc) (w : Word) : OprReaches d s (u.setAc d w) w l pc where
  ac := by simp
  pc := (u.pc_setAc d w).trans h.pc
  psw := (State.psw_setAc _ _ _ hd).trans h.psw
  frame := h.frame.then_setX _ _ (by simp)

theorem setLk (hd : d ≠ 7#3) (h : OprReaches d s u v l pc) (b : Bool) : OprReaches d s (u.setLk b) v b pc where
  ac := (State.ac_setLk _ _ _ hd).trans h.ac
  pc := (u.pc_setLk b).trans h.pc
  psw := State.psw_setLk h.psw b
  frame := h.frame.then_setPsw _ (by simp)

theorem skip (h : OprReaches d s u v l pc) : OprReaches d s u.skip v l (pc + 1#16) where
  ac := (u.ac_setPc _ d).trans h.ac
  pc := by rw [State.skip, State.pc_setPc, h.pc]
  psw := (u.psw_setPc _).trans h.psw
  frame := h.frame.then_setX _ _ (by simp)

theorem doIf {f : State → State} {v' : Word} {l' : Bool} {pc' : Word} (b : Bool) (h : OprReaches d s u v l pc)
    (g : OprReaches d s (f u) v' l' pc') :
    OprReaches d s (u.doIf b f) (if b then v' else v) (if b then l' else l) (if b then pc' else pc) := by
  cases b
  · exact h
  · exact g

/-- An OPR that has not skipped ends its FETCH with the AC and LK it has reached. -/
theorem oprEnds (h : OprReaches d s u v l s.pc) : OprEnds d s (endFetch s (.ok u)) (v, l) := by
  refine ⟨u, ?_, h.ac, h.psw, fun place hplace => ?_, h.frame.2⟩
  · rw [endFetch_ok, State.selectCycle_opr h.psw (.inl rfl)]
  · by_cases hpc : place = .slot 15#4
    · subst hpc
      exact congrArg some h.pc
    · exact h.frame.1 place (by simp_all)

end OprReaches

end Sys2Proof.Machine

namespace Sys2Proof.Machine

open Reference

/-! AC and LK as one 17-bit number, LK on top, and the group-1 rotations on it (R267-R272). -/

theorem join17_mod (v : Word) (l : Bool) : join17 v l % 65536 = v.toNat := by
  have hv := v.isLt
  unfold join17
  omega

theorem join17_div (v : Word) (l : Bool) : join17 v l / 65536 = l.toNat := by
  have hv := v.isLt
  unfold join17
  omega

theorem join17_lt (v : Word) (l : Bool) : join17 v l < 131072 := by
  have hhigh := join17_div v l
  have hl := l.toNat_le
  omega

theorem split17_join17 (p : Word × Bool) : split17 (join17 p.1 p.2) = p := by
  obtain ⟨v, l⟩ := p
  refine Prod.ext (BitVec.eq_of_toNat_eq (join17_mod v l)) ?_
  simp only [split17, join17_div]
  cases l <;> rfl

/-- Two fields side by side, as a number (R8). -/
theorem toNat_append_eq_add {m n : Nat} (x : BitVec m) (y : BitVec n) :
    (x ++ y).toNat = x.toNat * 2 ^ n + y.toNat := by
  rw [BitVec.toNat_append, ← Nat.shiftLeft_add_eq_or_of_lt y.isLt, Nat.shiftLeft_eq]

/-- A field of a word, as a number (R8). -/
theorem toNat_extractLsb'_eq_div (v : Word) (lo n : Nat) : (v.extractLsb' lo n).toNat = v.toNat / 2 ^ lo % 2 ^ n := by
  rw [BitVec.extractLsb'_toNat, Nat.shiftRight_eq_div_pow]

theorem toNat_getLsbD (v : Word) (i : Nat) : (v.getLsbD i).toNat = v.toNat / 2 ^ i % 2 := by
  rw [← BitVec.testBit_toNat, Nat.toNat_testBit]

theorem join17_rar (v : Word) (l : Bool) : join17 (rar v l).1 (rar v l).2 = right17 (join17 v l) := by
  have hv := v.isLt
  simp only [rar, right17, join17, toNat_append_eq_add, toNat_extractLsb'_eq_div, toNat_getLsbD, BitVec.toNat_ofBool]
  omega

theorem join17_ral (v : Word) (l : Bool) : join17 (ral v l).1 (ral v l).2 = left17 (join17 v l) := by
  have hleft : left17 (join17 v l) = v.toNat * 2 + l.toNat := by
    rw [left17, show 131072 = 65536 * 2 from rfl, Nat.mul_mod_mul_right, join17_mod, join17_div]
  have hv := v.isLt
  rw [hleft]
  simp only [ral, join17, toNat_append_eq_add, toNat_extractLsb'_eq_div, toNat_getLsbD, BitVec.toNat_ofBool]
  omega

theorem swapBytes_eq_ofNat (v : Word) : swapBytes v = BitVec.ofNat 16 (v.toNat % 256 * 256 + v.toNat / 256) := by
  have hv := v.isLt
  have hhigh : v.toNat / 256 < 256 := by omega
  refine BitVec.eq_of_toNat_eq ?_
  simp only [swapBytes, toNat_append_eq_add, toNat_extractLsb'_eq_div, BitVec.toNat_ofNat, Nat.reducePow, Nat.div_one]
  rw [Nat.mod_eq_of_lt hhigh]
  omega

theorem rotate_eq_rotated (rot : Rot) (v : Word) (l : Bool) : rotate rot v l = rotated rot v l := by
  cases rot <;> simp only [rotated, ← join17_rar, ← join17_ral, split17_join17, ← swapBytes_eq_ofNat]
  all_goals rfl

theorem left17_right17 {n : Nat} (hn : n < 131072) : left17 (right17 n) = n := by
  unfold left17 right17
  rcases Nat.mod_two_eq_zero_or_one n with h | h <;> rw [h] <;> omega

/-- `k` places right in 17 bits: the low `k` bits come round to the top (R267). -/
theorem right17_iterate {n k : Nat} (hk : k ≤ 17) :
    right17^[k] n = n / 2 ^ k + n % 2 ^ k * 2 ^ (17 - k) := by
  induction k with
  | zero => simp [Nat.mod_one]
  | succ k ih =>
    obtain ⟨c, hc, hc', hsum⟩ : ∃ c, 17 - k = c + 1 ∧ 17 - (k + 1) = c ∧ k + c = 16 := ⟨16 - k, by omega⟩
    have htop : 2 ^ k * 2 ^ c = 65536 := by rw [← Nat.pow_add, hsum]
    rw [Function.iterate_succ_apply', ih (by omega), hc, hc', right17]
    calc (n / 2 ^ k + n % 2 ^ k * 2 ^ (c + 1)) / 2 + (n / 2 ^ k + n % 2 ^ k * 2 ^ (c + 1)) % 2 * 65536
        = n / 2 ^ k / 2 + n % 2 ^ k * 2 ^ c + n / 2 ^ k % 2 * 65536 := by
          rw [Nat.pow_succ, ← Nat.mul_assoc]; omega
      _ = n / 2 ^ (k + 1) + (n % 2 ^ k + 2 ^ k * (n / 2 ^ k % 2)) * 2 ^ c := by
          rw [Nat.pow_succ, Nat.div_div_eq_div_mul, Nat.add_mul, ← htop]; ring
      _ = n / 2 ^ (k + 1) + n % 2 ^ (k + 1) * 2 ^ c := by rw [Nat.mod_pow_succ]

/-- Settles O39: on the joined number RAR is one place right, RAL undoes it, and 17 of 17 places come round. -/
theorem seventeenRarsRestore : Obligations.SeventeenRarsRestore := by
  have hinj {p q : Word × Bool} (h : join17 p.1 p.2 = join17 q.1 q.2) : p = q := by
    rw [← split17_join17 p, h, split17_join17]
  refine ⟨fun v l => hinj ?_, fun v l => hinj ?_⟩
  · have hsemi : Function.Semiconj (fun p : Word × Bool => join17 p.1 p.2) (fun p => rar p.1 p.2) right17 :=
      fun p => join17_rar p.1 p.2
    have hlt := join17_lt v l
    refine ((hsemi.iterate_right 17).eq (v, l)).trans ((right17_iterate (by decide)).trans ?_)
    simp only [Nat.sub_self]
    omega
  · rw [join17_ral, join17_rar, left17_right17 (join17_lt v l)]

/-! Group 1 (R261-R266). -/

/-- The arithmetic sequence of group 1 on words: a carry out of IAC complements LK. -/
theorem groupOne_eq_rotate (cla cll cma cml iac : Bool) (rot : Rot) (v : Word) (l : Bool) :
    groupOne cla cll cma cml iac rot v l =
      let v1 := if cla then 0#16 else v
      let l1 := if cll then false else l
      let v2 := if cma then ~~~v1 else v1
      let l2 := if cml then !l1 else l1
      rotate rot (if iac then (addCarry v2 1#16).1 else v2) (if iac then carryLk l2 (addCarry v2 1#16).2 else l2) := by
  have hcla : (if cla then 0 else v.toNat) = (if cla then 0#16 else v).toNat := by cases cla <;> rfl
  have hcma (w : Word) : (if cma then 65535 - w.toNat else w.toNat) = (if cma then ~~~w else w).toNat := by
    cases cma
    · rfl
    · exact (BitVec.toNat_not (x := w)).symm
  have hiac (w : Word) : BitVec.ofNat 16 (if iac then (w.toNat + 1) % 65536 else w.toNat) =
      if iac then (addCarry w 1#16).1 else w := by
    cases iac
    · simp
    · rw [addCarry_fst]
      exact BitVec.eq_of_toNat_eq (by simp)
  have hcarry (w : Word) (b : Bool) : (if iac ∧ w.toNat = 65535 then !b else b) =
      if iac then carryLk b (addCarry w 1#16).2 else b := by
    have hw : 65536 ≤ w.toNat + 1 ↔ w.toNat = 65535 := by omega
    cases iac <;> simp [carryLk, addCarry_snd, hw]
  simp only [groupOne, hcla, hcma, hiac, hcarry, rotate_eq_rotated]

/-- The group-1 operations on AC and LK, one after the other. -/
theorem OprReaches.group1 {d : BitVec 3} {s u : State} {v : Word} {l : Bool} {pc : Word} (hd : d ≠ 7#3)
    (h : OprReaches d s u v l pc) (cla cll cma cml iac : Bool) (rot : Rot) :
    OprReaches d s (group1 d cla cll cma cml iac rot u) (groupOne cla cll cma cml iac rot v l).1
      (groupOne cla cll cma cml iac rot v l).2 pc := by
  have hcla := h.doIf cla (f := opCla d) (h.setAc hd 0#16)
  have hcll := hcla.doIf cll (f := opCll) (hcla.setLk hd false)
  have hcma := hcll.doIf cma (f := opCma d) (hcll.setAc hd _)
  have hcml := hcma.doIf cml (f := opCml) (hcma.setLk hd _)
  have hiac := hcml.doIf iac (f := opIac d) ((hcml.setAc hd _).setLk hd _)
  have hrot : OprReaches d s (Machine.group1 d cla cll cma cml iac rot u) _ _ _ := (hiac.setAc hd _).setLk hd _
  rw [hiac.ac, hiac.lk, hcml.ac, hcml.lk, hcma.lk, hcll.ac] at hrot
  simpa only [ite_self, groupOne_eq_rotate] using hrot

/-- Settles O38: each constructor's FETCH runs the one sequence. -/
theorem groupOneSequence : Obligations.GroupOneSequence := by
  intro s d hs hd cll cma cml iac rot r
  have hends (cla cll cma cml iac rot) :
      OprEnds d s (fetchGroup1 d cla cll cma cml iac rot s) (r cla cll cma cml iac rot) :=
    ((hs.oprStart_reaches hd).group1 hd cla cll cma cml iac rot).oprEnds
  have hnop : r false false false false false .none = (s.ac d, s.lk) := by
    simp only [r, groupOne_eq_rotate]
    rfl
  exact ⟨hends .., hends .., hends .., hends .., hends .., hends .., hends .., hends .., hends .., hends .., hends ..,
    hnop ▸ hends false false false false false .none⟩

end Sys2Proof.Machine

namespace Sys2Proof.Machine

open Reference

/-! Group 2 (R275-R287). -/

/-- AC is minus where its bit 15 is set (R276). -/
theorem getLsbD_15_iff (v : Word) : v.getLsbD 15 = true ↔ v.toInt < 0 := by
  rw [show v.getLsbD 15 = v.msb from rfl, BitVec.msb_eq_toInt, decide_eq_true_eq]

theorem skipOr_iff (sma sza snl : Bool) (v : Word) (l : Bool) :
    skipOr sma sza snl v l = true ↔ orTests sma sza snl v l := by
  simp only [skipOr, orTests, Bool.or_eq_true, Bool.and_eq_true, beq_iff_eq, getLsbD_15_iff,
    BitVec.toNat_eq, BitVec.toNat_zero, or_assoc]

theorem skipAnd_iff (spa sna szl : Bool) (v : Word) (l : Bool) :
    skipAnd spa sna szl v l = true ↔ andTests spa sna szl v l := by
  have hplus : v.getLsbD 15 = false ↔ 0 ≤ v.toInt := by
    rw [← Bool.not_eq_true, getLsbD_15_iff, not_lt]
  simp only [skipAnd, andTests, Bool.and_eq_true, Bool.or_eq_true, Bool.not_eq_true', bne_iff_ne, ne_eq, hplus,
    BitVec.toNat_eq, BitVec.toNat_zero, imp_iff_not_or, Bool.not_eq_true, and_assoc]

/-- The group-2 operations but for HLT: the skip, then CLA and OSR (R275). -/
theorem OprReaches.skipClaOsr {d : BitVec 3} {s u : State} {v : Word} {l : Bool} {pc : Word} (hd : d ≠ 7#3)
    (h : OprReaches d s u v l pc) (c cla osr : Bool) :
    OprReaches d s (((u.doIf c State.skip).doIf cla (opCla d)).doIf osr (opOsr d))
      (claOsr cla osr s.params.osrMode s.sr v) l (if c then pc + 1#16 else pc) := by
  have hskip := h.doIf c (f := State.skip) h.skip
  have hcla := hskip.doIf cla (f := opCla d) (hskip.setAc hd 0#16)
  have hosr := hcla.doIf osr (f := opOsr d) (hcla.setAc hd _)
  rw [hcla.ac, hcla.params_eq, hcla.sr_eq] at hosr
  have hval : claOsr cla osr s.params.osrMode s.sr v = if osr then
      osrValue s.params.osrMode (if cla then 0#16 else v) s.sr else if cla then 0#16 else v := by
    cases osr <;> rfl
  simpa only [ite_self, hval] using hosr

/-- HLT writes CYCLE and nothing else (R287). -/
theorem State.x_doIf_opHlt (s : State) (hlt : Bool) {i : BitVec 4} (h : i ≠ 7#4) : (s.doIf hlt opHlt).x i = s.x i := by
  cases hlt
  · rfl
  · exact State.x_setCycle _ _ _ h

/-- A group-2 word ends its FETCH with what it has reached, and with CYCLE 15 by HLT. -/
theorem OprReaches.skipEnds {d : BitVec 3} {s u : State} {c cla osr : Bool} {skips : Prop} (hd : d ≠ 7#3)
    (h : OprReaches d s u (claOsr cla osr s.params.osrMode s.sr (s.ac d)) s.lk (if c then s.pc + 1#16 else s.pc))
    (hc : c = true ↔ skips) (hlt : Bool) :
    SkipEnds d s (endFetch s (.ok (u.doIf hlt opHlt))) skips cla osr hlt := by
  have hpsw : (u.doIf hlt opHlt).psw = packPsw s.lk true false false false (if hlt then 15#4 else 0#4) 7#4 d := by
    cases hlt
    · exact h.psw
    · exact State.psw_setCycle h.psw 15#4
  have hcycle : (if hlt then 15#4 else 0#4) = 0#4 ∨ (if hlt then 15#4 else 0#4) = 15#4 := by cases hlt <;> simp
  have hpc : (u.doIf hlt opHlt).pc = if c then s.pc + 1#16 else s.pc := (u.x_doIf_opHlt hlt (by decide)).trans h.pc
  refine ⟨u.doIf hlt opHlt, ?_, fun hskip => ?_, fun hskip => ?_,
    (u.x_doIf_opHlt hlt (acSlot_ne_psw d hd)).trans h.ac, hpsw, ?_⟩
  · rw [endFetch_ok, State.selectCycle_opr hpsw hcycle]
  · rw [hpc, if_pos (hc.2 hskip)]
  · rw [hpc, if_neg (mt hc.1 hskip)]
  · cases hlt
    · exact h.frame
    · exact h.frame.then_setPsw _ (by simp)

/-- The FETCH of a group-2 word whose test is `skips`. -/
theorem fetchGroup2_ends {d : BitVec 3} {s : State} (hs : Fetched s) (hd : d ≠ 7#3) {test : Word → Bool → Bool}
    {skips : Prop} (htest : test (s.ac d) s.lk = true ↔ skips) (cla osr hlt : Bool) :
    SkipEnds d s (fetchGroup2 d test cla osr hlt s) skips cla osr hlt := by
  have hstart := hs.oprStart_reaches hd
  rw [fetchGroup2, fetchOpr, group2, hstart.ac, hstart.lk]
  exact (hstart.skipClaOsr hd _ cla osr).skipEnds hd htest hlt

/-- Settles O40: the test is the disjunction of the selected ones. -/
theorem orGroupSkips : Obligations.OrGroupSkips := fun _ _ hs hd _ _ cla osr hlt =>
  ⟨fetchGroup2_ends hs hd (skipOr_iff ..) cla osr hlt, fetchGroup2_ends hs hd (skipOr_iff ..) cla osr hlt,
    fetchGroup2_ends hs hd (skipOr_iff ..) cla osr hlt⟩

/-- Settles O41: the test is the conjunction of the selected ones, and the empty one holds. -/
theorem andGroupSkips : Obligations.AndGroupSkips := fun _ _ hs hd _ _ cla osr hlt =>
  ⟨fetchGroup2_ends hs hd (skipAnd_iff ..) cla osr hlt, fetchGroup2_ends hs hd (skipAnd_iff ..) cla osr hlt,
    fetchGroup2_ends hs hd (skipAnd_iff ..) cla osr hlt, fetchGroup2_ends hs hd (iff_true_intro rfl) cla osr hlt⟩

/-- Settles O42: the disjunction of no tests fails. -/
theorem claOsrHltWithoutTest : Obligations.ClaOsrHltWithoutTest := by
  intro s d hs hd osr hlt
  have hends (cla osr hlt) : SkipEnds d s (fetchGroup2 d (skipOr false false false) cla osr hlt s) False cla osr hlt :=
    fetchGroup2_ends hs hd (iff_false_intro Bool.false_ne_true) cla osr hlt
  exact ⟨hends .., hends .., hends .., hends ..⟩

end Sys2Proof.Machine

namespace Sys2Proof.Machine

open Reference

/-! Group 3: one accumulator written, and LK by the shifts (R290-R299). -/

/-- Settles O43: the operation on the latched state, whose accumulators are those before. -/
theorem movSwpOrXor : Obligations.MovSwpOrXor := by
  intro s d r hs hd hr
  have hstart := hs.oprStart_reaches hd
  have hacd : (s.oprStart d).ac d = s.ac d := s.ac_oprStart d hd
  have hacr : (s.oprStart d).ac r = s.ac r := s.ac_oprStart d hr
  have hwrite (w : Word) : OprEnds d s (endFetch s (.ok ((s.oprStart d).setAc d w))) (w, s.lk) :=
    (hstart.setAc hd w).oprEnds
  refine ⟨hacr ▸ hwrite _, ?_, ?_, ?_⟩
  · rw [← hacd, ← hacr]
    exact hwrite _
  · rw [← hacd, ← hacr]
    exact hwrite _
  · have hpsw : (((s.oprStart d).setAc d ((s.oprStart d).ac r)).setAc r ((s.oprStart d).ac d)).psw =
        packPsw s.lk true false false false 0#4 7#4 d := by
      rw [State.psw_setAc _ _ _ hr, State.psw_setAc _ _ _ hd, hs.psw_oprStart]
    refine ⟨_, ?_, ?_, ?_, hpsw, ?_⟩
    · exact congrArg Host.Outcome.next (State.selectCycle_opr hpsw (.inl rfl))
    · by_cases hrd : r = d
      · simp [hrd, hacd]
      · simp [hrd, hacr]
    · simp [hacd]
    · exact (((s.oprStart_frame d).mono (by simp)).then_setX _ _ (by simp)).then_setX _ _ (by simp)

/-! The shifts and rotates as arithmetic (R295-R299). -/

/-- The bit at place `i` as a number's digit (R8). -/
theorem getLsbD_eq_decide (v : Word) (i : Nat) : v.getLsbD i = decide (v.toNat / 2 ^ i % 2 = 1) := by
  rw [← BitVec.testBit_toNat, Nat.testBit_eq_decide_div_mod_eq]

theorem shiftLeft_eq_ofNat (v : Word) (n : Nat) : v <<< n = BitVec.ofNat 16 (v.toNat * 2 ^ n) :=
  BitVec.eq_of_toNat_eq (by simp [Nat.shiftLeft_eq])

theorem ushiftRight_eq_ofNat (v : Word) (n : Nat) : v >>> n = BitVec.ofNat 16 (v.toNat / 2 ^ n) := by
  rw [← Nat.shiftRight_eq_div_pow, ← BitVec.toNat_ushiftRight, BitVec.ofNat_toNat, BitVec.setWidth_eq]

/-- Shifting the word widened with its sign is the arithmetic shift, for counts up to its width (R297). -/
theorem signExtend_shift_eq_ofInt (v : Word) {n : Nat} (hn : n ≤ 16) :
    ((v.signExtend 32) >>> n).setWidth 16 = BitVec.ofInt 16 (v.toInt / 2 ^ n) := by
  have hshift : ((v.signExtend 32) >>> n).setWidth 16 = v.sshiftRight n := by
    refine BitVec.eq_of_getLsbD_eq fun i hi => ?_
    have h16 : ¬ 16 ≤ i := by omega
    have h32 : n + i < 32 := by omega
    simp only [BitVec.getLsbD_sshiftRight, BitVec.getLsbD_signExtend, BitVec.getLsbD_setWidth,
      BitVec.getLsbD_ushiftRight, hi, h16, h32, decide_true, decide_false, Bool.true_and, Bool.not_false]
  rw [hshift, BitVec.sshiftRight_eq, Int.shiftRight_eq_div_pow]
  norm_num

/-- The two parts of a rotation meet in no bit, so they add up (R298, R299). -/
theorem rotation_eq_ofNat (v : Word) {m k : Nat} (h : m + k = 16) :
    v <<< m ||| v >>> k = BitVec.ofNat 16 (v.toNat * 2 ^ m % 65536 + v.toNat / 2 ^ k) := by
  have hdisjoint : v <<< m &&& v >>> k = 0#16 := by
    refine BitVec.eq_of_getLsbD_eq fun i hi => ?_
    by_cases him : i < m
    · simp [him]
    · simp [BitVec.getLsbD_of_ge v (k + i) (by omega)]
  rw [← BitVec.add_eq_or_of_and_eq_zero _ _ hdisjoint, shiftLeft_eq_ofNat, ushiftRight_eq_ofNat]
  exact BitVec.eq_of_toNat_eq (by simp)

/-- What a left shift by `m` keeps of a word is its low `k` bits (R299). -/
theorem mul_pow_mod_word (a : Nat) {m k : Nat} (h : m + k = 16) : a * 2 ^ m % 65536 = a % 2 ^ k * 2 ^ m := by
  rw [show 65536 = 2 ^ k * 2 ^ m by rw [← Nat.pow_add, Nat.add_comm, h], Nat.mul_mod_mul_right]

/-- The model's function for each shift and rotate. -/
def shiftFunction : Shift → Word → Bool → Nat → Word × Bool
  | .shl => shiftLeft
  | .shr => shiftRight
  | .sar => shiftArith
  | .rol => rotLeft
  | .ror => rotRight

theorem exec_byImm (f : Shift) (d : BitVec 3) (n : BitVec 4) (s : State) :
    exec (f.byImm d n) s = fetchShiftImm (shiftFunction f) d n s := by
  cases f <;> rfl

theorem exec_byReg (f : Shift) (d r : BitVec 3) (s : State) :
    exec (f.byReg d r) s = fetchShiftReg (shiftFunction f) d r s := by
  cases f <;> rfl

/-- A count of 0 moves nothing (R295-R299). -/
theorem shift_value_zero (f : Shift) (v : Word) : f.value v 0 = v := by
  cases f <;> simp [Shift.value, Nat.mod_one, Nat.div_eq_of_lt v.isLt, Nat.mod_eq_of_lt v.isLt]

theorem shiftFunction_zero (f : Shift) (v : Word) (l : Bool) : shiftFunction f v l 0 = (v, l) := by
  cases f <;> rfl

/-- The model's shifts and rotates are the arithmetic ones at every count they are called with (R290). -/
theorem shiftFunction_eq (f : Shift) (v : Word) (l : Bool) {n : Nat} (hn : n ≤ 15) :
    shiftFunction f v l n = (f.value v n, f.link v l n) := by
  by_cases h0 : n = 0
  · rw [h0, shiftFunction_zero, shift_value_zero]
    rfl
  have hsplit : n + (16 - n) = 16 := by omega
  have hsplit' : 16 - n + n = 16 := by omega
  cases f <;> simp only [shiftFunction, Shift.value, Shift.link, if_neg h0, ← getLsbD_eq_decide]
  case shl => rw [shiftLeft, if_neg h0, shiftLeft_eq_ofNat]
  case shr => rw [shiftRight, if_neg h0, ushiftRight_eq_ofNat]
  case sar => rw [shiftArith, if_neg h0, signExtend_shift_eq_ofInt v (by omega)]
  case rol => rw [rotLeft, if_neg h0, rotation_eq_ofNat v hsplit]
  case ror =>
    rw [rotRight, if_neg h0, BitVec.or_comm, rotation_eq_ofNat v hsplit', mul_pow_mod_word _ hsplit', Nat.add_comm]

theorem OprReaches.shiftBy {d : BitVec 3} {s u : State} {v : Word} {l : Bool} {pc : Word} (hd : d ≠ 7#3)
    (h : OprReaches d s u v l pc) (f : Shift) {n : Nat} (hn : n ≤ 15) :
    OprReaches d s (shiftBy (shiftFunction f) d n u) (f.value v n) (f.link v l n) pc := by
  have hval : shiftFunction f (u.ac d) u.lk n = (f.value v n, f.link v l n) := by
    rw [h.ac, h.lk, shiftFunction_eq f v l hn]
  unfold Machine.shiftBy
  rw [hval]
  exact (h.setAc hd _).setLk hd _

/-- Settles O44: a 4-bit count is at most 15. -/
theorem immediateShifts : Obligations.ImmediateShifts := by
  intro f s d n hs hd
  rw [exec_byImm]
  exact ((hs.oprStart_reaches hd).shiftBy hd f (by omega)).oprEnds

/-- Settles O45: the count is the source accumulator's before the destination is written. -/
theorem registerShifts : Obligations.RegisterShifts := by
  intro f s d r hs hd hr
  have hacr : (s.oprStart d).ac r = s.ac r := s.ac_oprStart d hr
  rw [exec_byReg, fetchShiftReg, fetchOpr, hacr]
  refine ⟨fun hle => ?_, fun hgt => ?_⟩
  · rw [if_neg (by omega)]
    exact ((hs.oprStart_reaches hd).shiftBy hd f hle).oprEnds
  · rw [if_pos hgt]
    rfl

end Sys2Proof.Machine

namespace Sys2Proof.Machine

open Reference

/-! A machine check halts the machine and leaves all else as it was before the step (R332, R339). -/

theorem checksWith_takeMachineCheck (s : State) (k : CheckKind) (a : Addr) :
    ChecksWith s (.next (takeMachineCheck k a s)) k a :=
  ⟨_, rfl, rfl, State.psw_setCycle s.psw_eq_pack cycleHalted, Frame.setX s 7#4 _⟩

/-- Whatever a handler does after a checked access, its step ends in the check alone (R332). -/
theorem checksWith_of_bind_check {α : Type} {s : State} {k : CheckKind} {a : Addr} {r : Res α} (h : r = .check k a)
    (f : α → Res State) : ChecksWith s ((r.bind f).outcome s) k a := by
  rw [h, Res.bind_check, Res.outcome_check]
  exact checksWith_takeMachineCheck s k a

/-! The fetch of a word that is not there (R47, R332). -/

theorem cpuStep_stepFetch {s : State} (hc : s.cycle = 0#4 ∨ s.cycle = 1#4) : cpuStep s = stepFetch s := if_pos hc

theorem State.fetch_unbound {s : State} (h : s.locate (s.pc.setWidth 32) = none) :
    s.fetch = .check .fetchUnbound (s.pc.setWidth 32) := by
  rw [State.fetch, State.pc_clearPsw, State.busRead_unbound (s := s.clearPsw) h, Res.bind_check]

/-- Only a word of the arrays can be unwritten, and clearing the PSW writes none. -/
theorem State.fetch_unwritten {s : State} {l : Loc} (hl : s.locate (s.pc.setWidth 32) = some l) (hv : s.peek l = none) :
    s.fetch = .refuse .readUnwritten := by
  have h7 : l ≠ .slot 7#4 := by
    rintro rfl
    cases hv
  have hv' : s.clearPsw.peek l = none := (s.peek_clearPsw h7).trans hv
  rw [State.fetch, State.pc_clearPsw, State.busRead_bound (s := s.clearPsw) hl, State.readLoc_unwritten hv',
    Res.bind_refuse]

/-- Settles O9: the answer of the fetch is the answer of the step. -/
theorem fetchStopsOnUnboundOrUnwritten : Obligations.FetchStopsOnUnboundOrUnwritten := by
  intro s hrun hc
  rw [step_of_idle hrun, cpuStep_stepFetch hc, stepFetch]
  refine ⟨fun hnone => ?_, fun l hl hv => ?_⟩
  · rw [State.fetch_unbound hnone]
    exact checksWith_takeMachineCheck s _ _
  · rw [State.fetch_unwritten hl hv]

/-! Out-of-file accesses to an unbound page (R64, R65, R146). -/

section Unbound

variable {s : State} {a : Addr} (hout : 15 < a.toNat) (hnone : s.locate a = none)

include hout hnone

theorem State.localRead_unbound : s.localRead a = .check .readUnbound a := by
  rw [State.localRead_outOfFile s hout, State.busRead_unbound hnone]

theorem State.localWrite_unbound (v : Word) : s.localWrite a v = .check .writeUnbound a := by
  simp [State.localWrite, addr_ne_psw (a := a) (by omega), inFile_of_lt hout, State.busWrite, hnone]

/-- The effects that begin with a read: AND, TAD and ISZ (R181-R183). -/
theorem effect_readUnbound {op acc : BitVec 3}
    (h : ((op = 0#3 ∨ op = 1#3) ∧ acc ≠ 7#3) ∨ (op = 2#3 ∧ acc = 7#3)) :
    effect op acc a s = .check .readUnbound a := by
  have hread := State.localRead_unbound hout hnone
  obtain ⟨rfl | rfl, hacc⟩ | ⟨rfl, rfl⟩ := h
  · simp [effect, effectAnd, hacc, hread]
  · simp [effect, effectTad, hacc, hread]
  · simp [effect, effectIsz, hread]

/-- The effects that begin with a store: STA, DCA and JMS (R184-R186). -/
theorem effect_writeUnbound {op acc : BitVec 3}
    (h : ((op = 2#3 ∨ op = 3#3) ∧ acc ≠ 7#3) ∨ (op = 4#3 ∧ acc = 7#3)) :
    effect op acc a s = .check .writeUnbound a := by
  have hwrite := State.localWrite_unbound hout hnone
  obtain ⟨rfl | rfl, hacc⟩ | ⟨rfl, rfl⟩ := h
  · simp [effect, effectSta, hacc, hwrite]
  · simp [effect, effectDca, hacc, hwrite]
  · simp [effect, effectJms, hwrite]

end Unbound

theorem checksWith_of_effect {s : State} {k : CheckKind} {a : Addr} (op : BitVec 3) (hc : s.cycle = 3#4)
    (htmp : s.tmp = op.setWidth 4) (hop : op.toNat ≤ 5) (h : effect op s.acc s.ea s = .check k a) :
    ChecksWith s (cpuStep s) k a := by
  rw [cpuStep_execute_op op hc htmp hop]
  exact checksWith_of_bind_check h _

/-- Settles O27: in each state the first access goes to EA, and its check is the step's. -/
theorem unboundAccessTakesMachineCheck : Obligations.UnboundAccessTakesMachineCheck := by
  intro s hout hnone
  refine ⟨fun hc => ?_, fun hc => ?_, fun hc h => ?_, fun hc h => ?_⟩
  · rw [cpuStep_indirect hc, stepIndirect, if_neg (by simp [inFile_of_lt hout]), State.localRead_unbound hout hnone]
    exact checksWith_of_bind_check rfl _
  · rw [cpuStep_writeback hc, stepWriteback]
    exact checksWith_of_bind_check (State.localWrite_unbound hout hnone _) _
  · obtain ⟨htmp | htmp, hacc⟩ | ⟨htmp, hacc⟩ := h
    · exact checksWith_of_effect 0#3 hc htmp (by decide) (effect_readUnbound hout hnone (.inl ⟨.inl rfl, hacc⟩))
    · exact checksWith_of_effect 1#3 hc htmp (by decide) (effect_readUnbound hout hnone (.inl ⟨.inr rfl, hacc⟩))
    · exact checksWith_of_effect 2#3 hc htmp (by decide) (effect_readUnbound hout hnone (.inr ⟨rfl, hacc⟩))
  · obtain ⟨htmp | htmp, hacc⟩ | ⟨htmp, hacc⟩ := h
    · exact checksWith_of_effect 2#3 hc htmp (by decide) (effect_writeUnbound hout hnone (.inl ⟨.inl rfl, hacc⟩))
    · exact checksWith_of_effect 3#3 hc htmp (by decide) (effect_writeUnbound hout hnone (.inl ⟨.inr rfl, hacc⟩))
    · exact checksWith_of_effect 4#3 hc htmp (by decide) (effect_writeUnbound hout hnone (.inr ⟨rfl, hacc⟩))

end Sys2Proof.Machine

namespace Sys2Proof.Machine

open Reference

/-! The loop's turn in a run, on the CPU's turn and on an idle device's (R374; log 10). -/

theorem running_drawTurn (s : State) : s.drawTurn.2.running = s.running := (congrArg State.running s.drawTurn_rest :)

theorem acc_drawTurn (s : State) : s.drawTurn.2.acc = s.acc := (congrArg State.acc s.drawTurn_rest :)

theorem step_of_loopMoves {s : State} (hrun : s.running = true) (h : LoopMoves s) : step s = loopStep s.drawTurn.2 := by
  obtain hturn | ⟨d, hturn, hidle⟩ := h
  · exact step_of_cpuTurn hrun hturn
  · rw [step_of_deviceTurn hrun hturn]
    exact devMove_of_not_enabled (by rwa [DeviceEnabled, agent_drawTurn, mailbox_drawTurn])

theorem loopStep_of_over {s : State} (h : s.cancel = true ∨ s.cycle = 15#4) : loopStep s = (endOfRun s).outcome s :=
  if_pos h

/-- A device with an enabled step finishes its claimed command or claims one (R225, R226). -/
theorem devMove_of_enabled {d : Dev} {s t : State} (he : DeviceEnabled d s) (h : devMove d s = .next t) :
    (∃ c, devPerform d c s = .ok t) ∨ t = devClaim d s := by
  obtain ⟨hr, hwork⟩ := he
  cases hp : (s.agent d).pending with
  | some c =>
    rw [devMove_performs hr hp] at h
    exact .inl ⟨c, Res.outcome_next_ok h fun _ _ => devPerform_no_check⟩
  | none =>
    obtain ⟨hfull, hunit⟩ := hwork.resolve_left fun hne => hne hp
    rw [devMove_claims hr hp hfull hunit] at h
    cases h
    exact .inr rfl

/-! What a run keeps while the CPU does not step (R374, R375, R379). -/

/-- `t` has the count, CYCLE, the machine-check record and the arrays of `s`. -/
structure NoCpuStep (s t : State) : Prop where
  count : t.count = s.count
  cycle : t.cycle = s.cycle
  mcheck : t.mcheck = s.mcheck
  mem : t.mem = s.mem
  zp : t.zp = s.zp

theorem NoCpuStep.trans {s t u : State} (h : NoCpuStep s t) (g : NoCpuStep t u) : NoCpuStep s u :=
  ⟨g.count.trans h.count, g.cycle.trans h.cycle, g.mcheck.trans h.mcheck, g.mem.trans h.mem, g.zp.trans h.zp⟩

theorem NoCpuStep.drawTurn (s : State) : NoCpuStep s s.drawTurn.2 :=
  ⟨count_drawTurn s, cycle_drawTurn s, (congrArg State.mcheck s.drawTurn_rest :),
    (congrArg State.mem s.drawTurn_rest :), (congrArg State.zp s.drawTurn_rest :)⟩

theorem DeviceKeeps.noCpuStep {s t : State} (h : DeviceKeeps s t) : NoCpuStep s t := by
  obtain ⟨hrest, -, -, io, hpsw, -⟩ := h
  obtain ⟨-, -, -, -, -, hcycle, -, -⟩ := State.fields_of_psw hpsw
  exact ⟨(congrArg State.count hrest :), hcycle, (congrArg State.mcheck hrest :), (congrArg State.mem hrest :),
    (congrArg State.zp hrest :)⟩

theorem NoCpuStep.devClaim (d : Dev) (s : State) : NoCpuStep s (devClaim d s) := by
  cases d <;> exact ⟨rfl, rfl, rfl, rfl, rfl⟩

theorem devPerform_running {d : Dev} {c : Word} {s t : State} (h : devPerform d c s = .ok t) :
    t.running = s.running := by
  obtain ⟨hrest, -⟩ := devPerform_ok h
  exact (congrArg State.running hrest :)

theorem devMove_keeps_run {d : Dev} {s t : State} (he : DeviceEnabled d s) (h : devMove d s = .next t) :
    NoCpuStep s t ∧ t.running = s.running := by
  obtain ⟨c, hc⟩ | rfl := devMove_of_enabled he h
  · exact ⟨(devPerform_keeps hc).noCpuStep, devPerform_running hc⟩
  · exact ⟨.devClaim d s, by cases d <;> rfl⟩

/-- Settles O54: the CPU's own step leaves the count, to which the loop adds one; the run's end and a device's step
leave it too. -/
theorem runCountsCpuSteps : Obligations.RunCountsCpuSteps := by
  intro s hrun s1
  refine ⟨fun hloop hcancel hc => ?_, fun hloop hover t h => ?_, fun d hturn he t h => ?_⟩
  · rw [step_of_loopMoves hrun hloop]
    replace hcancel : s1.cancel = false := (cancel_drawTurn s).trans hcancel
    replace hc : s1.cycle ≠ 15#4 := (cycle_drawTurn s).symm ▸ hc
    refine ⟨fun u hu => ?_, fun r => loopStep_of_refused hcancel hc⟩
    have hcount : u.count = s.count := (congrArg State.count (cpuStep_keeps hu)).trans (count_drawTurn s)
    rw [loopStep_of_next hcancel hc hu, hcount]
  · replace hover : s1.cancel = true ∨ s1.cycle = 15#4 := by rwa [cancel_drawTurn, cycle_drawTurn]
    rw [step_of_loopMoves hrun hloop, loopStep_of_over hover] at h
    obtain ⟨hk, hstopped⟩ := endOfRun_keeps (Res.outcome_next_ok h fun _ _ => endOfRun_no_check)
    obtain ⟨hcount, hcycle, hrecord, hmem, hzp⟩ := (NoCpuStep.drawTurn s).trans hk.noCpuStep
    exact ⟨hcount, hstopped, hcycle, hrecord, hmem, hzp⟩
  · replace he : DeviceEnabled d s1 := by rwa [DeviceEnabled, agent_drawTurn, mailbox_drawTurn]
    rw [step_of_deviceTurn hrun hturn] at h
    obtain ⟨hk, hgoes⟩ := devMove_keeps_run he h
    obtain ⟨hcount, hcycle, hrecord, hmem, hzp⟩ := (NoCpuStep.drawTurn s).trans hk
    exact ⟨hcount, hgoes.trans ((running_drawTurn s).trans hrun), hcycle, hrecord, hmem, hzp⟩

/-! The host's calls of a run's start, of cancel and of zap (R374, R376, R378, R386). -/

theorem hostCall_running {s : State} (h : s.running = true) (c : HostCall) : hostCall c s =
    if c = .cancel ∧ s.cancel = false then .answered .done (cancelRun s) else .notPermitted := if_pos h

theorem runStart_halted {s : State} (h : s.cycle = 15#4) : runStart s = { s with count := 0 } := if_pos h

theorem runStart_of_not_halted {s : State} (h : s.cycle ≠ 15#4) : runStart s =
    { s with
      count := 0
      mailbox := { s.mailbox with cmd := 0xFFFF#16 }
      cancel := false
      running := true
      outAgent := { s.outAgent with pending := none, running := true }
      inAgent := { s.inAgent with pending := none, running := s.params.inputPresent } } := if_neg h

/-- Settles O55: in HALTED nothing runs after the start, so the call answers 0; elsewhere the run is on. -/
theorem runStartsAgents : Obligations.RunStartsAgents := by
  intro s hrun
  rw [hostCall_idle hrun, hostIdleCall, hostRun]
  refine ⟨fun hc => ?_, fun hc => ?_⟩
  · rw [runStart_halted hc]
    exact if_neg (by simp [hrun])
  · rw [runStart_of_not_halted hc]
    exact ⟨_, rfl, rfl, rfl, rfl, rfl, rfl, rfl, Frame.refl [] s⟩

/-- Settles O57: CYCLE is the one field of the PSW that zap sets. -/
theorem zapClearsHalt : Obligations.ZapClearsHalt := by
  refine fun s => ⟨fun hrun => ⟨zap s, ?_, rfl, State.psw_setCycle s.psw_eq_pack 0#4, Frame.setX s 7#4 _⟩,
    fun hrun => ?_⟩
  · rw [hostCall_idle hrun, hostIdleCall]
  · rw [hostCall_running hrun]
    exact if_neg (by simp)

/-! An action, and the other agent's perform step, neither see nor change an agent (R226-R231). -/

theorem State.drawAnswer_setAgent (s : State) (e : Dev) (a : Agent) :
    (s.setAgent e a).drawAnswer = (s.drawAnswer.1, s.drawAnswer.2.setAgent e a) := by
  have hanswers : (s.setAgent e a).answers = s.answers := by cases e <;> rfl
  unfold State.drawAnswer
  rw [hanswers]
  split
  · cases e <;> rfl
  · cases e <;> rfl

theorem actionOutput_setAgent (acc : BitVec 3) (s : State) (e : Dev) (a : Agent) :
    actionOutput acc (s.setAgent e a) = (actionOutput acc s).bind fun t => .ok (t.setAgent e a) := by
  unfold actionOutput
  split
  · rfl
  · cases e <;> rfl

theorem actionSkip_setAgent (s : State) (e : Dev) (a : Agent) :
    actionSkip (s.setAgent e a) = (actionSkip s).bind fun t => .ok (t.setAgent e a) := by
  simp only [actionSkip, State.drawAnswer_setAgent, Res.bind_ok]
  split
  · cases e <;> rfl
  · rfl

theorem actionRead_setAgent (acc : BitVec 3) (s : State) (e : Dev) (a : Agent) :
    actionRead acc (s.setAgent e a) = (actionRead acc s).bind fun t => .ok (t.setAgent e a) := by
  simp only [actionRead, State.drawAnswer_setAgent]
  split
  · rfl
  · cases e <;> rfl

theorem action_setAgent (d : Dev) (c : Word) (acc : BitVec 3) (s : State) (e : Dev) (a : Agent) :
    action d c acc (s.setAgent e a) = (action d c acc s).bind fun t => .ok (t.setAgent e a) := by
  have hparams : (s.setAgent e a).params = s.params := by cases e <;> rfl
  unfold action
  rw [hparams]
  split
  next =>
    split
    · exact actionOutput_setAgent acc s e a
    · rfl
  next =>
    split_ifs
    · exact actionSkip_setAgent s e a
    · exact actionRead_setAgent acc s e a
    · rfl

theorem State.performed_setAgent (s : State) {d e : Dev} (h : e ≠ d) (a : Agent) :
    (s.setAgent e a).performed d = (s.performed d).setAgent e a := by
  cases d <;> cases e
  · exact absurd rfl h
  · rfl
  · rfl
  · exact absurd rfl h

theorem devPerform_setAgent {d e : Dev} (h : e ≠ d) (c : Word) (s : State) (a : Agent) :
    devPerform d c (s.setAgent e a) = (devPerform d c s).bind fun t => .ok (t.setAgent e a) := by
  have hacc : (s.setAgent e a).acc = s.acc := by cases e <;> rfl
  rw [devPerform, hacc, action_setAgent, devPerform]
  cases action d c s.acc s with
  | ok u => exact congrArg Res.ok (u.performed_setAgent h a)
  | check k b => rfl
  | refuse r => rfl

/-! The end of a run (R379). -/

/-- `s` with the agent of `d` stopped. -/
def State.stopped (s : State) (d : Dev) : State := s.setAgent d { s.agent d with running := false }

theorem stopAgent_of_idle {d : Dev} {s : State} (h : (s.agent d).pending = none) : stopAgent d s = .ok (s.stopped d) :=
  stopAgent_idle h

theorem stopAgent_of_claimed {d : Dev} {s : State} {c : Word} (hr : (s.agent d).running = true)
    (hp : (s.agent d).pending = some c) : stopAgent d s = (devPerform d c s).bind fun v => .ok (v.stopped d) := by
  rw [stopAgent, if_pos hr, devFinish, hp]
  rfl

theorem State.agent_input_stopped_output (s : State) : (s.stopped .output).agent .input = s.agent .input := rfl

/-- With nothing claimed the agents and the run just stop. -/
theorem endOfRun_of_idle {s : State} (h : ∀ d, (s.agent d).pending = none) : endOfRun s = .ok (runOver s) := by
  rw [endOfRun, stopAgent_of_idle (h .output), Res.bind_ok, stopAgent_of_idle (s.agent_input_stopped_output ▸ h .input)]
  rfl

/-- A command that one running agent has claimed is performed, also after the idle agent has stopped (R379; log 24). -/
theorem endOfRun_of_claimed {d : Dev} {c : Word} {s : State} (hr : (s.agent d).running = true)
    (hp : (s.agent d).pending = some c) (hothers : ∀ e, e ≠ d → (s.agent e).pending = none) :
    endOfRun s = (devPerform d c s).bind fun v => .ok (runOver v) := by
  cases d with
  | output =>
    rw [endOfRun, stopAgent_of_claimed hr hp]
    cases h : devPerform .output c s with
    | check k a => rfl
    | refuse r => rfl
    | ok v =>
      obtain ⟨-, -, -, hkept⟩ := devPerform_ok h
      have hin : (v.agent .input).pending = none := hkept .input (by decide) ▸ hothers .input (by decide)
      rw [Res.bind_ok, Res.bind_ok, stopAgent_of_idle (v.agent_input_stopped_output ▸ hin)]
      rfl
  | input =>
    rw [← s.agent_input_stopped_output] at hr hp
    rw [endOfRun, stopAgent_of_idle (hothers .output (by decide)), Res.bind_ok, stopAgent_of_claimed hr hp,
      State.stopped, devPerform_setAgent (by decide)]
    cases h : devPerform .input c s with
    | check k a => rfl
    | refuse r => rfl
    | ok v =>
      obtain ⟨-, -, -, hkept⟩ := devPerform_ok h
      rw [← hkept .output (by decide)]
      rfl

/-- An accumulator 0 to 6 is all that a perform step needs (R226; log 19). -/
theorem devPerform_of_register {s : State} (hacc : s.acc ≠ 7#3) (d : Dev) (c : Word) :
    ∃ v, devPerform d c s = .ok v := by
  cases h : devPerform d c s with
  | ok v => exact ⟨v, rfl⟩
  | check k a => exact absurd h devPerform_no_check
  | refuse r =>
    obtain h | ⟨u, -, h⟩ := Res.bind_eq_refuse.1 h
    · exact absurd (action_refuse h) hacc
    · cases h

/-! The loop's turn where it finds a cancel, or HALTED (R375, R379). -/

section Over

variable {s : State} (hrun : s.running = true) (hloop : LoopMoves s) (hover : s.cancel = true ∨ s.cycle = 15#4)

include hrun hloop hover

theorem step_of_over : step s = (endOfRun s.drawTurn.2).outcome s.drawTurn.2 := by
  rw [step_of_loopMoves hrun hloop, loopStep_of_over (by rwa [cancel_drawTurn, cycle_drawTurn])]

theorem step_of_over_idle (h : ∀ d, (s.agent d).pending = none) : step s = .next (runOver s.drawTurn.2) := by
  simp only [← agent_drawTurn s] at h
  rw [step_of_over hrun hloop hover, endOfRun_of_idle h, Res.outcome_ok]

theorem step_of_over_claimed {d : Dev} {c : Word} (hr : (s.agent d).running = true) (hp : (s.agent d).pending = some c)
    (hothers : ∀ e, e ≠ d → (s.agent e).pending = none) :
    step s = ((devPerform d c s.drawTurn.2).bind fun v => .ok (runOver v)).outcome s.drawTurn.2 := by
  simp only [← agent_drawTurn s] at hr hp hothers
  rw [step_of_over hrun hloop hover, endOfRun_of_claimed hr hp hothers]

/-- The output agent's claimed command puts out AC's low byte before the run ends (R227). -/
theorem step_of_over_output (hacc : s.acc ≠ 7#3) (hr : s.outAgent.running = true)
    (hp : s.outAgent.pending = some 4#16) (hin : s.inAgent.pending = none) :
    step s = .next (runOver (({ s.drawTurn.2 with
      out := s.out ++ [(s.ac s.acc).setWidth 8] } : State).performed .output)) := by
  have hothers : ∀ e, e ≠ .output → (s.agent e).pending = none := fun e he => by
    cases e
    · exact absurd rfl he
    · exact hin
  have hac1 : s.drawTurn.2.ac s.acc = s.ac s.acc := (congrArg (State.ac · s.acc) s.drawTurn_rest :)
  have hout1 : s.drawTurn.2.out = s.out := (congrArg State.out s.drawTurn_rest :)
  rw [step_of_over_claimed hrun hloop hover (d := .output) hr hp hothers,
    devPerform_of_action (action_out (acc_drawTurn s ▸ hacc) _), acc_drawTurn, hac1, hout1, Res.bind_ok, Res.outcome_ok]

end Over

/-! Cancel (R376, R386). -/

theorem hostCall_cancel {s : State} (hrun : s.running = true) (hcancel : s.cancel = false) :
    hostCall .cancel s = .answered .done (cancelRun s) :=
  (hostCall_running hrun .cancel).trans (if_pos ⟨rfl, hcancel⟩)

theorem psw_cancelRun (s : State) : (cancelRun s).psw = packPsw s.lk s.op false s.ex s.id s.cycle s.tmp s.acc :=
  State.psw_setIo (s := { s with cancel := true }) s.psw_eq_pack false

theorem ac_cancelRun (s : State) {acc : BitVec 3} (h : acc ≠ 7#3) : (cancelRun s).ac acc = s.ac acc :=
  State.ac_setIo { s with cancel := true } false acc h

/-- Settles O56: cancel writes the flag and IO, and the loop's next turn is the run's end. -/
theorem cancelledRunEnds : Obligations.CancelledRunEnds := by
  refine fun s hrun => ⟨fun hcancel => ?_, fun hcancel => ?_, fun hover hloop => ⟨?_, fun d c hr hp hothers => ?_⟩,
    fun hcancel hacc hr hp hin => ?_⟩
  · exact (hostCall_running hrun .cancel).trans (if_neg (by simp [hcancel]))
  · exact ⟨cancelRun s, hostCall_cancel hrun hcancel, rfl, psw_cancelRun s, Frame.setX s 7#4 _⟩
  · exact step_of_over_idle hrun hloop hover
  · rw [step_of_over_claimed hrun hloop hover hr hp hothers]
    refine ⟨fun hacc => devPerform_of_register ?_ d c, fun v hv => by rw [hv]; rfl, fun r hv => by rw [hv]; rfl⟩
    rwa [acc_drawTurn]
  · obtain ⟨-, -, hio, -, -, hcycle, -, hacc'⟩ := State.fields_of_psw (psw_cancelRun s)
    refine ⟨cancelRun s, hostCall_cancel hrun hcancel, hio, rfl, fun hturn => ⟨_, step_of_over_output (s := cancelRun s)
      hrun (.inl hturn) (.inl rfl) (hacc' ▸ hacc) hr hp hin, rfl, rfl, rfl, rfl, ?_, ?_, ?_, ?_⟩⟩
    · exact count_drawTurn (cancelRun s)
    · exact (State.cycle_setIo _ false).trans ((cycle_drawTurn _).trans hcycle)
    · exact mailbox_drawTurn (cancelRun s)
    · rw [hacc', ac_cancelRun s hacc]
      rfl

end Sys2Proof.Machine
